-- ==== Sys2Proof/Word.lean ====
section
/-! DEFINITION. The word types of the block: binary32 patterns, 32-bit response words, 64-bit command words
and bytes. The rules cited are those of spec/00_scope.md (R15, R24) and spec/30_encoding.md (R120). -/

namespace Sys2Proof

/-- A byte of a byte-wide path (R93). -/
abbrev Byte := BitVec 8

/-- A 32-bit register, response or buffer word (R15). -/
abbrev Word := BitVec 32

/-- A 32-bit word read as an IEEE 754 binary32 bit pattern (R24). -/
abbrev F32 := BitVec 32

/-- One 64-bit command word: DATA 63:32, OP 31:24, IDX 23:16, IMM16 15:0 (R120). -/
abbrev Command := BitVec 64

end Sys2Proof
end

