-- ==== Sys2Proof/Config.lean ====
section
/-! DEFINITION. What an implementation fixes: the parameters of spec/00_scope.md R9 to R14 as plain data, their
bounds, the one standard configuration of spec/95_test_vectors.md, and SINE_FN, the parameter that is a function
and therefore stands here as a constant without a body. -/

namespace Sys2Proof

/-- The waveform of a voice, in the order of the codes of R33. -/
inductive Wave where
  | sine
  | saw
  | square
  | triangle
deriving DecidableEq, Repr

/-- The two command ports (R16, R318). -/
inductive Port where
  /-- the control context's port -/
  | cmd
  /-- the audio transfer collaborator's port -/
  | aud
deriving DecidableEq, Repr

/-- BUILD_MODE (R12): what a capacity violation does. -/
inductive BuildMode where
  | debug
  | release
deriving DecidableEq, Repr

/-- The start-up configuration of one voice: INIT_WAVE, INIT_FREQ, INIT_SR, INIT_EN (R14). -/
structure VoiceInit where
  wave : Wave
  freq : F32
  sr : F32
  en : Bool
deriving DecidableEq, Repr

/-- The start-up configuration of one switch: INIT_DW, INIT_DCW, INIT_HT (R14). -/
structure SwitchInit where
  dw : BitVec 16
  dcw : BitVec 16
  ht : BitVec 16
deriving DecidableEq, Repr

/-- The start-up configuration of one indicator: INIT_TARGET, INIT_STEP, INIT_BLINK (R14). -/
structure IndicatorInit where
  target : F32
  step : F32
  blink : BitVec 16
deriving DecidableEq, Repr

/-- Everything the excluded bring-up layer supplies once at start-up (R9 to R12, R14). NUM_VOICES, NUM_SWITCHES
and NUM_INDICATORS are the lengths of the three lists; `capacity` is C = BLOCK_SIZE_MAX. -/
structure StartUp where
  voices : List VoiceInit
  switches : List SwitchInit
  indicators : List IndicatorInit
  capacity : Nat
  build : BuildMode
deriving DecidableEq, Repr

/-- The bounds of R9 to R11 on the four sizes. A configuration outside them is refused (R307, U5). -/
def boundsOk (numVoices numSwitches numIndicators capacity : Nat) : Bool :=
  decide (1 ≤ numVoices) && decide (numVoices ≤ 256) &&
  decide (1 ≤ numSwitches) && decide (numSwitches ≤ 32) &&
  decide (1 ≤ numIndicators) && decide (numIndicators ≤ 16) &&
  decide (1 ≤ capacity) && decide (capacity ≤ 65535)

/-- The configuration's sizes are within the bounds of R9 to R11. -/
def StartUp.admissible (c : StartUp) : Bool :=
  boundsOk c.voices.length c.switches.length c.indicators.length c.capacity

/-- DESIGN CHOICE (log entry 1): the configuration that `State.reset` is the reset of. It is CFG-A of
spec/95_test_vectors.md section 0, the only complete configuration the spec writes down. -/
def standardStartUp : StartUp where
  voices :=
    [ { wave := .saw, freq := 0x43DC0000#32, sr := 0x473B8000#32, en := true },
      { wave := .sine, freq := 0x447A0000#32, sr := 0x473B8000#32, en := true } ]
  switches := [ { dw := 2#16, dcw := 10#16, ht := 20#16 } ]
  indicators := [ { target := 0x00000000#32, step := 0x3E800000#32, blink := 0#16 } ]
  capacity := 4
  build := .debug

/-- SINE_FN (R13, U3): a total function from binary32 to binary32 that the implementation chooses. It has no body,
so that nothing can be proved of its values (log entry 3). -/
opaque Config.sineFn : F32 → F32

end Sys2Proof
end

