-- ==== Sys2Proof/Syntax.lean ====
section
/-! DEFINITION. The commands of the block, one constructor per row of spec/opcode_table.json, with the operand fields
of that row (spec/30_encoding.md R121, R122, R131). -/

namespace Sys2Proof

/-- One command. Instance indices are the 8-bit IDX field (R127), register numbers and frame indices the 16-bit IMM16
field (R128); every value of every field has an encoding. -/
inductive Instr where
  /-- NOP (R280) -/
  | nop
  /-- SYS_CLR_ERR (R281) -/
  | sysClrErr
  /-- OSC_SET_FREQ (R170) -/
  | oscSetFreq (voice : BitVec 8) (value : F32)
  /-- OSC_SET_SR (R171) -/
  | oscSetSr (voice : BitVec 8) (value : F32)
  /-- OSC_SET_WAVE (R172) -/
  | oscSetWave (voice : BitVec 8) (wave : Wave)
  /-- OSC_SET_EN (R173) -/
  | oscSetEn (voice : BitVec 8) (en : Bool)
  /-- OSC_TICK_BLEP (R175) -/
  | oscTickBlep (voice : BitVec 8)
  /-- OSC_TICK_NAIVE (R176) -/
  | oscTickNaive (voice : BitVec 8)
  /-- AUD_PERIOD (R200) -/
  | audPeriod (ready : Bool) (n : BitVec 16)
  /-- CTL_POLL (R230) -/
  | ctlPoll (levels : BitVec 32)
  /-- SW_SET_DW (R270) -/
  | swSetDw (switch : BitVec 8) (value : BitVec 16)
  /-- SW_SET_DCW (R271) -/
  | swSetDcw (switch : BitVec 8) (value : BitVec 16)
  /-- SW_SET_HT (R272) -/
  | swSetHt (switch : BitVec 8) (value : BitVec 16)
  /-- IND_SET_TARGET (R264) -/
  | indSetTarget (indicator : BitVec 8) (value : F32)
  /-- IND_SET_STEP (R265) -/
  | indSetStep (indicator : BitVec 8) (value : F32)
  /-- IND_SET_BLINK (R266) -/
  | indSetBlink (indicator : BitVec 8) (value : BitVec 16)
  /-- RD_SYS (R284) -/
  | rdSys (reg : BitVec 16)
  /-- RD_OSC (R285) -/
  | rdOsc (voice : BitVec 8) (reg : BitVec 16)
  /-- RD_SW (R286) -/
  | rdSw (switch : BitVec 8) (reg : BitVec 16)
  /-- RD_IND (R287) -/
  | rdInd (indicator : BitVec 8) (reg : BitVec 16)
  /-- RD_BUF (R288) -/
  | rdBuf (bank : BitVec 1) (ch : BitVec 1) (frame : BitVec 16)
deriving DecidableEq, Repr

end Sys2Proof
end

