-- ==== Sys2Proof/WellFormed.lean ====
section
/-! DEFINITION. Well-formed commands: those whose operands some admissible configuration accepts. Every operand field has
its exact width in `Instr`, so a command always fits its encoding; what is left to check is the part of the range
check of spec/30_encoding.md R136 that no configuration can satisfy, given the bounds of spec/00_scope.md R9 to R11. -/

namespace Sys2Proof

/-- The highest register numbers of the four units (R136 d). -/
def maxSysReg : Nat := 6
/-- See `maxSysReg`. -/
def maxOscReg : Nat := 6
/-- See `maxSysReg`. -/
def maxSwReg : Nat := 8
/-- See `maxSysReg`. -/
def maxIndReg : Nat := 5

/-- A switch index that some admissible configuration has (R10: at most 32 switches). -/
def switchIndexOk (s : BitVec 8) : Bool := decide (s.toNat < 32)

/-- An indicator index that some admissible configuration has (R10: at most 16 indicators). -/
def indicatorIndexOk (i : BitVec 8) : Bool := decide (i.toNat < 16)

/-- The command's operands are in range in some admissible configuration. A command that is not well formed in this
sense decodes all the same and is illegal with cause INDEX_RANGE in every configuration (R136). -/
def Instr.wellFormed : Instr → Bool
  | .nop => true
  | .sysClrErr => true
  | .oscSetFreq _ _ => true
  | .oscSetSr _ _ => true
  | .oscSetWave _ _ => true
  | .oscSetEn _ _ => true
  | .oscTickBlep _ => true
  | .oscTickNaive _ => true
  | .audPeriod _ _ => true
  | .ctlPoll _ => true
  | .swSetDw s _ => switchIndexOk s
  | .swSetDcw s _ => switchIndexOk s
  | .swSetHt s _ => switchIndexOk s
  | .indSetTarget i _ => indicatorIndexOk i
  | .indSetStep i _ => indicatorIndexOk i
  | .indSetBlink i _ => indicatorIndexOk i
  | .rdSys r => decide (r.toNat ≤ maxSysReg)
  | .rdOsc _ r => decide (r.toNat ≤ maxOscReg)
  | .rdSw s r => switchIndexOk s && decide (r.toNat ≤ maxSwReg)
  | .rdInd i r => indicatorIndexOk i && decide (r.toNat ≤ maxIndReg)
  | .rdBuf _ _ k => decide (k.toNat < 65535)

end Sys2Proof
end

