-- ==== Sys2Proof/Decode.lean ====
section
/-! DEFINITION. The decoder and the encoder of command words, both from the tables of spec/30_encoding.md (R120 to R139)
and spec/opcode_table.json. The decoder makes checks (1) and (3) of R132, which need the word alone; check (2), the
port, and check (4), the ranges, need the machine and stand in Sys2Proof/Machine. -/

namespace Sys2Proof

/-! ### Fields of a command word -/

/-- DATA, bits 63:32 (R121). -/
def dataOf (w : Command) : BitVec 32 := w.extractLsb' 32 32
/-- OP, bits 31:24 (R121). -/
def opOf (w : Command) : BitVec 8 := w.extractLsb' 24 8
/-- IDX, bits 23:16 (R121). -/
def idxOf (w : Command) : BitVec 8 := w.extractLsb' 16 8
/-- IMM16, bits 15:0 (R121). -/
def immOf (w : Command) : BitVec 16 := w.extractLsb' 0 16

/-- The word with the four fields of R121. -/
def mkCommand (data : BitVec 32) (op : BitVec 8) (idx : BitVec 8) (imm : BitVec 16) : Command :=
  data ++ op ++ idx ++ imm

/-- The waveform with a code of R33. -/
def waveOfCode (c : BitVec 2) : Wave :=
  match c.toNat with
  | 0 => .sine
  | 1 => .saw
  | 2 => .square
  | _ => .triangle

/-- The 2-bit code of a waveform (R33). -/
def waveCode : Wave → BitVec 2
  | .sine => 0#2
  | .saw => 1#2
  | .square => 2#2
  | .triangle => 3#2

/-! ### Opcodes -/

/-- The OP value of a command (R131). -/
def opcode : Instr → BitVec 8
  | .nop => 0x00#8
  | .sysClrErr => 0x01#8
  | .oscSetFreq _ _ => 0x10#8
  | .oscSetSr _ _ => 0x11#8
  | .oscSetWave _ _ => 0x12#8
  | .oscSetEn _ _ => 0x13#8
  | .oscTickBlep _ => 0x14#8
  | .oscTickNaive _ => 0x15#8
  | .audPeriod _ _ => 0x20#8
  | .ctlPoll _ => 0x30#8
  | .swSetDw _ _ => 0x31#8
  | .swSetDcw _ _ => 0x32#8
  | .swSetHt _ _ => 0x33#8
  | .indSetTarget _ _ => 0x40#8
  | .indSetStep _ _ => 0x41#8
  | .indSetBlink _ _ => 0x42#8
  | .rdSys _ => 0x70#8
  | .rdOsc _ _ => 0x71#8
  | .rdSw _ _ => 0x72#8
  | .rdInd _ _ => 0x73#8
  | .rdBuf _ _ _ => 0x74#8

/-- Whether a command whose OP field is `op` may be issued on port `p` (R134): AUD_PERIOD only on AUD, NOP on both,
every other assigned command only on CMD. -/
def portLegal (op : BitVec 8) (p : Port) : Bool :=
  if op = 0x00#8 then true
  else if op = 0x20#8 then decide (p = .aud)
  else decide (p = .cmd)

/-! ### Decoding -/

/-- Why a 64-bit word is no command, by the checks of R132 that need the word alone. -/
inductive Reject where
  /-- check (1): OP is not in the opcode map (R133) -/
  | unassignedOpcode
  /-- check (3): OP is assigned and a reserved field is not zero (R135) -/
  | reservedField
deriving DecidableEq, Repr

/-- Check (3) of R132: the word matches its row of the opcode table, (w AND mask) = match (R135). -/
def checked (w mask pattern : Command) (i : Instr) : Except Reject Instr :=
  if w &&& mask = pattern then .ok i else .error .reservedField

/-- The command that a word encodes (R131 to R135), with the masks and patterns of spec/opcode_table.json. -/
def decode (w : Command) : Except Reject Instr :=
  match (opOf w).toNat with
  | 0x00 => checked w 0xFFFFFFFFFFFFFFFF#64 0x0000000000000000#64 .nop
  | 0x01 => checked w 0xFFFFFFFFFFFFFFFF#64 0x0000000001000000#64 .sysClrErr
  | 0x10 => checked w 0x00000000FF00FFFF#64 0x0000000010000000#64 (.oscSetFreq (idxOf w) (dataOf w))
  | 0x11 => checked w 0x00000000FF00FFFF#64 0x0000000011000000#64 (.oscSetSr (idxOf w) (dataOf w))
  | 0x12 => checked w 0xFFFFFFFFFF00FFFC#64 0x0000000012000000#64
      (.oscSetWave (idxOf w) (waveOfCode (w.extractLsb' 0 2)))
  | 0x13 => checked w 0xFFFFFFFFFF00FFFE#64 0x0000000013000000#64 (.oscSetEn (idxOf w) (w.getLsbD 0))
  | 0x14 => checked w 0xFFFFFFFFFF00FFFF#64 0x0000000014000000#64 (.oscTickBlep (idxOf w))
  | 0x15 => checked w 0xFFFFFFFFFF00FFFF#64 0x0000000015000000#64 (.oscTickNaive (idxOf w))
  | 0x20 => checked w 0xFFFFFFFFFFFE0000#64 0x0000000020000000#64 (.audPeriod (w.getLsbD 16) (immOf w))
  | 0x30 => checked w 0x00000000FFFFFFFF#64 0x0000000030000000#64 (.ctlPoll (dataOf w))
  | 0x31 => checked w 0xFFFFFFFFFF000000#64 0x0000000031000000#64 (.swSetDw (idxOf w) (immOf w))
  | 0x32 => checked w 0xFFFFFFFFFF000000#64 0x0000000032000000#64 (.swSetDcw (idxOf w) (immOf w))
  | 0x33 => checked w 0xFFFFFFFFFF000000#64 0x0000000033000000#64 (.swSetHt (idxOf w) (immOf w))
  | 0x40 => checked w 0x00000000FF00FFFF#64 0x0000000040000000#64 (.indSetTarget (idxOf w) (dataOf w))
  | 0x41 => checked w 0x00000000FF00FFFF#64 0x0000000041000000#64 (.indSetStep (idxOf w) (dataOf w))
  | 0x42 => checked w 0xFFFFFFFFFF000000#64 0x0000000042000000#64 (.indSetBlink (idxOf w) (immOf w))
  | 0x70 => checked w 0xFFFFFFFFFFFF0000#64 0x0000000070000000#64 (.rdSys (immOf w))
  | 0x71 => checked w 0xFFFFFFFFFF000000#64 0x0000000071000000#64 (.rdOsc (idxOf w) (immOf w))
  | 0x72 => checked w 0xFFFFFFFFFF000000#64 0x0000000072000000#64 (.rdSw (idxOf w) (immOf w))
  | 0x73 => checked w 0xFFFFFFFFFF000000#64 0x0000000073000000#64 (.rdInd (idxOf w) (immOf w))
  | 0x74 => checked w 0xFFFFFFFFFFFC0000#64 0x0000000074000000#64
      (.rdBuf (w.extractLsb' 17 1) (w.extractLsb' 16 1) (immOf w))
  | _ => .error .unassignedOpcode

/-! ### Words as bytes -/

/-- The four bytes of a 32-bit word on a byte path, bits 7:0 first (R93). -/
def wordBytes (w : Word) : List Byte :=
  [w.extractLsb' 0 8, w.extractLsb' 8 8, w.extractLsb' 16 8, w.extractLsb' 24 8]

/-- The first 32-bit word of a byte stream, and the bytes after it (R93); none if fewer than four bytes remain. -/
def takeWord : List Byte → Option (Word × List Byte)
  | b0 :: b1 :: b2 :: b3 :: rest => some (b3 ++ b2 ++ b1 ++ b0, rest)
  | _ => none

/-- The eight bytes of a command word on a byte path, bits 7:0 first (R93). -/
def commandBytes (w : Command) : List Byte :=
  [ w.extractLsb' 0 8, w.extractLsb' 8 8, w.extractLsb' 16 8, w.extractLsb' 24 8,
    w.extractLsb' 32 8, w.extractLsb' 40 8, w.extractLsb' 48 8, w.extractLsb' 56 8 ]

/-- The first command word of a byte stream, and the bytes after it (R93); none if fewer than eight bytes remain. -/
def takeCommand : List Byte → Option (Command × List Byte)
  | b0 :: b1 :: b2 :: b3 :: b4 :: b5 :: b6 :: b7 :: rest =>
      some (b7 ++ b6 ++ b5 ++ b4 ++ b3 ++ b2 ++ b1 ++ b0, rest)
  | _ => none

/-- A command word on a 32-bit path: the header first, then DATA (R93). -/
def commandHalves (w : Command) : Word × Word := (w.extractLsb' 0 32, w.extractLsb' 32 32)

/-- The command word that two words of a 32-bit path carry, the header first (R93). -/
def commandOfHalves (header data : Word) : Command := data ++ header

/-- Why a byte stream does not begin with a command. -/
inductive StreamReject where
  /-- fewer than eight bytes remain: every command is one whole 64-bit word (R139) -/
  | truncated
  /-- the word that the bytes carry is rejected -/
  | rejected (r : Reject)
deriving DecidableEq, Repr

/-- The command at the front of a byte stream, and the bytes after it; total on any bytes. -/
def decodeBytes (bs : List Byte) : Except StreamReject (Instr × List Byte) :=
  match takeCommand bs with
  | none => .error .truncated
  | some (w, rest) =>
    match decode w with
    | .ok i => .ok (i, rest)
    | .error r => .error (.rejected r)

/-! ### Encoding -/

/-- The word of a command (R121 to R131); reserved fields are zero. -/
def encode (i : Instr) : Command :=
  match i with
  | .nop => mkCommand 0#32 (opcode i) 0#8 0#16
  | .sysClrErr => mkCommand 0#32 (opcode i) 0#8 0#16
  | .oscSetFreq v f => mkCommand f (opcode i) v 0#16
  | .oscSetSr v sr => mkCommand sr (opcode i) v 0#16
  | .oscSetWave v w => mkCommand 0#32 (opcode i) v (0#14 ++ waveCode w)
  | .oscSetEn v e => mkCommand 0#32 (opcode i) v (0#15 ++ BitVec.ofBool e)
  | .oscTickBlep v => mkCommand 0#32 (opcode i) v 0#16
  | .oscTickNaive v => mkCommand 0#32 (opcode i) v 0#16
  | .audPeriod r n => mkCommand 0#32 (opcode i) (0#7 ++ BitVec.ofBool r) n
  | .ctlPoll m => mkCommand m (opcode i) 0#8 0#16
  | .swSetDw s n => mkCommand 0#32 (opcode i) s n
  | .swSetDcw s n => mkCommand 0#32 (opcode i) s n
  | .swSetHt s n => mkCommand 0#32 (opcode i) s n
  | .indSetTarget k x => mkCommand x (opcode i) k 0#16
  | .indSetStep k x => mkCommand x (opcode i) k 0#16
  | .indSetBlink k n => mkCommand 0#32 (opcode i) k n
  | .rdSys r => mkCommand 0#32 (opcode i) 0#8 r
  | .rdOsc v r => mkCommand 0#32 (opcode i) v r
  | .rdSw s r => mkCommand 0#32 (opcode i) s r
  | .rdInd k r => mkCommand 0#32 (opcode i) k r
  | .rdBuf b c k => mkCommand 0#32 (opcode i) (0#6 ++ b ++ c) k

/-! ### The host's table question -/

/-- The word whose low `nbits` bits are those of `w`, every higher bit zero. -/
def tableWord (nbits w : Nat) : Command := BitVec.ofNat 64 (w % 2 ^ nbits)

/-- The command the decoder reads from a table word, through the bytes the hardware would be sent (R93). -/
def decodeTableWord (nbits w : Nat) : Option Instr :=
  match decodeBytes (commandBytes (tableWord nbits w)) with
  | .ok (i, _) => some i
  | .error _ => none

end Sys2Proof
end

