-- ==== Sys2Proof/Machine/Float.lean ====
section
/-! DEFINITION. IEEE 754 binary32 arithmetic as spec/00_scope.md R20 to R24 fix it: round to nearest, ties to even,
subnormals kept, canonical NaN, no flags. A finite magnitude is held exactly, as a whole number of units of 2^-149 (the
smallest subnormal); an operation computes its exact result as a fraction of such units and rounds it once. -/

namespace Sys2Proof.Machine

/-! ### Bit patterns -/

/-- PI_F (R23). -/
def piF : F32 := 0x40490FDB#32
/-- TWO_PI_F (R23). -/
def twoPiF : F32 := 0x40C90FDB#32
/-- +0.0 -/
def zeroF : F32 := 0x00000000#32
/-- 0.5 -/
def halfF : F32 := 0x3F000000#32
/-- 1.0 -/
def oneF : F32 := 0x3F800000#32
/-- −1.0 -/
def minusOneF : F32 := 0xBF800000#32
/-- 2.0 -/
def twoF : F32 := 0x40000000#32
/-- The canonical NaN (R21). -/
def canonicalNaN : F32 := 0x7FC00000#32
/-- The magnitude of an infinity: exponent field 255, fraction 0 (R24). -/
def infMag : Nat := 0x7F800000

/-- The sign bit, bit 31 (R24). -/
def signOf (x : F32) : Bool := x.getLsbD 31
/-- Exponent and fraction, bits 30:0, as a number (R24). The magnitudes of the values other than NaN are ordered as
these numbers are. -/
def magOf (x : F32) : Nat := x.toNat % 2 ^ 31
/-- The pattern with a sign and a magnitude of 31 bits. -/
def packF (neg : Bool) (m : Nat) : F32 := BitVec.ofBool neg ++ BitVec.ofNat 31 m

/-- x is a NaN. -/
def isNaN (x : F32) : Bool := decide (infMag < magOf x)
/-- x is an infinity. -/
def isInf (x : F32) : Bool := decide (magOf x = infMag)

/-- The magnitude of a finite pattern, in units of 2^-149: a subnormal's fraction, or 2^23 plus the fraction of a normal
number, scaled by its exponent (R24). -/
def unitsOfMag (m : Nat) : Nat :=
  if m / 2 ^ 23 = 0 then m % 2 ^ 23 else (2 ^ 23 + m % 2 ^ 23) * 2 ^ (m / 2 ^ 23 - 1)

/-- The magnitude of a finite value, in units of 2^-149. -/
def unitsOf (x : F32) : Nat := unitsOfMag (magOf x)

/-- A finite value, in units of 2^-149. -/
def signedUnits (x : F32) : Int := if signOf x then -(unitsOf x : Int) else (unitsOf x : Int)

/-! ### Rounding -/

/-- The whole number nearest to num / den, ties to even (R20); den is not 0. -/
def roundDiv (num den : Nat) : Nat :=
  let q := num / den
  let r := num % den
  if 2 * r < den then q
  else if den < 2 * r then q + 1
  else if q % 2 = 0 then q else q + 1

/-- How many bits below 24 the exact magnitude num / den (in units of 2^-149) loses: 0 for a subnormal result and for the
lowest normal exponent, one more for each exponent above. -/
def shiftFor (num den : Nat) : Nat := Nat.log2 (num / den) - 23

/-- The magnitude pattern nearest to the exact magnitude num / den, in units of 2^-149: a 24-bit significand, rounded to
nearest with ties to even, and the infinity from 2^128 − 2^103 up (R20). A significand that rounds up to 2^24 carries
into the exponent field by itself. -/
def roundMag (num den : Nat) : Nat :=
  let sh := shiftFor num den
  let m := sh * 2 ^ 23 + roundDiv num (den * 2 ^ sh)
  if infMag ≤ m then infMag else m

/-! ### Operations (R20, R21) -/

/-- x with its sign bit inverted. -/
def negF (x : F32) : F32 := packF (!signOf x) (magOf x)

/-- The pattern of an exact finite sum. A sum of zero is −0.0 only if both operands are negative (R20). -/
def packSum (bothNeg : Bool) (z : Int) : F32 :=
  if z = 0 then packF bothNeg 0 else packF (decide (z < 0)) (roundMag z.natAbs 1)

/-- add32 (R20, R21). -/
def add32 (a b : F32) : F32 :=
  if isNaN a || isNaN b then canonicalNaN
  else if isInf a then (if isInf b && (signOf a != signOf b) then canonicalNaN else a)
  else if isInf b then b
  else packSum (signOf a && signOf b) (signedUnits a + signedUnits b)

/-- sub32 (R20, R21): the sum with the second operand's sign inverted. -/
def sub32 (a b : F32) : F32 := add32 a (negF b)

/-- mul32 (R20, R21). -/
def mul32 (a b : F32) : F32 :=
  let neg := signOf a != signOf b
  if isNaN a || isNaN b then canonicalNaN
  else if isInf a || isInf b then
    (if magOf a = 0 ∨ magOf b = 0 then canonicalNaN else packF neg infMag)
  else packF neg (roundMag (unitsOf a * unitsOf b) (2 ^ 149))

/-- div32 (R20, R21). -/
def div32 (a b : F32) : F32 :=
  let neg := signOf a != signOf b
  if isNaN a || isNaN b then canonicalNaN
  else if isInf a then (if isInf b then canonicalNaN else packF neg infMag)
  else if isInf b then packF neg 0
  else if magOf b = 0 then (if magOf a = 0 then canonicalNaN else packF neg infMag)
  else packF neg (roundMag (unitsOf a * 2 ^ 149) (unitsOf b))

/-- abs32 (R22): the sign bit cleared. -/
def abs32 (x : F32) : F32 := packF false (magOf x)

/-- DEDUCED (log entry 4): a sample leaves the block with any NaN as the canonical NaN (R175, R207), whatever NaN pattern
SINE_FN gives. -/
def canonical (x : F32) : F32 := if isNaN x then canonicalNaN else x

/-! ### Comparisons (R22) -/

/-- The place of a value other than NaN in the order of binary32: both zeros at 0. -/
def orderOf (x : F32) : Int := if signOf x then -(magOf x : Int) else (magOf x : Int)

/-- Neither operand is a NaN. -/
def ordered (a b : F32) : Bool := !isNaN a && !isNaN b

/-- lt32 (R22). -/
def lt32 (a b : F32) : Bool := ordered a b && decide (orderOf a < orderOf b)
/-- gt32 (R22). -/
def gt32 (a b : F32) : Bool := ordered a b && decide (orderOf b < orderOf a)
/-- ge32 (R22). -/
def ge32 (a b : F32) : Bool := ordered a b && decide (orderOf b ≤ orderOf a)
/-- min32 (R22). -/
def min32 (a b : F32) : F32 := if lt32 b a then b else a
/-- max32 (R22). -/
def max32 (a b : F32) : F32 := if gt32 b a then b else a

/-- clamp01 (R263): into [0, 1], never NaN and never −0.0. -/
def clamp01 (x : F32) : F32 :=
  if gt32 x zeroF then (if gt32 x oneF then oneF else x) else zeroF

end Sys2Proof.Machine
end

