-- ==== Sys2Proof/Machine/Units.lean ====
section
/-! DEFINITION. The three kinds of bank (spec/10_state.md sections 2, 5 and 7) and what reset makes of each
(spec/70_reset_and_hazards.md R340). Every bank carries its own start-up configuration, which no command and no reset
changes, so that the configuration (R14) can never disagree with the number of banks (R9, R10). -/

namespace Sys2Proof.Machine

/-! ### OSC: one voice -/

/-- OSC[v] (R33 to R39), and its start-up configuration (R14). -/
structure Voice where
  /-- INIT_WAVE, INIT_FREQ, INIT_SR, INIT_EN: a parameter, not state (R30) -/
  init : VoiceInit
  wave : Wave
  freq : F32
  sr : F32
  pinc : F32
  phase : F32
  last : F32
  en : Bool
deriving DecidableEq, Repr

/-- The phase increment of a frequency and a sample rate (R151). -/
def pincOf (freq sr : F32) : F32 := div32 (mul32 freq twoPiF) sr

/-- OSC[v] right after reset (R340). -/
def voiceAtReset (c : VoiceInit) : Voice where
  init := c
  wave := c.wave
  freq := c.freq
  sr := c.sr
  pinc := pincOf c.freq c.sr
  phase := zeroF
  last := zeroF
  en := c.en

/-! ### SW: one switch -/

/-- The classification of a switch (R56). -/
inductive ClickState where
  | idle
  | pressed
  | doubleClicked
  | held
  | released
deriving DecidableEq, Repr

/-- The event of one poll (R58). -/
inductive ClickEvent where
  | none
  | click
  | doubleClick
  | held
deriving DecidableEq, Repr

/-- SW[s] (R53 to R59), and its start-up configuration (R14). -/
structure Switch where
  /-- INIT_DW, INIT_DCW, INIT_HT: a parameter, not state (R30) -/
  init : SwitchInit
  level : Bool
  deb : Bool
  cnt : BitVec 16
  state : ClickState
  pressT : BitVec 32
  event : ClickEvent
  dw : BitVec 16
  dcw : BitVec 16
  ht : BitVec 16
deriving DecidableEq, Repr

/-- SW[s] right after reset (R340). -/
def switchAtReset (c : SwitchInit) : Switch where
  init := c
  level := false
  deb := false
  cnt := 0#16
  state := .idle
  pressT := 0#32
  event := .none
  dw := c.dw
  dcw := c.dcw
  ht := c.ht

/-! ### IND: one indicator -/

/-- IND[i] (R63 to R68), and its start-up configuration (R14). -/
structure Indicator where
  /-- INIT_TARGET, INIT_STEP, INIT_BLINK: a parameter, not state (R30) -/
  init : IndicatorInit
  cur : F32
  target : F32
  step : F32
  blink : BitVec 16
  bcnt : BitVec 16
  on : Bool
deriving DecidableEq, Repr

/-- IND[i] right after reset (R340). -/
def indicatorAtReset (c : IndicatorInit) : Indicator where
  init := c
  cur := zeroF
  target := clamp01 c.target
  step := clamp01 c.step
  blink := c.blink
  bcnt := 0#16
  on := false

end Sys2Proof.Machine
end

