-- ==== Sys2Proof/Machine/State.lean ====
section
/-! DEFINITION. The state of the block as plain data: every piece of state of spec/10_state.md, the parameters that the
model takes beside it, the commands that wait at the ports, and the outputs of the last transition. -/

namespace Sys2Proof.Machine

/-- ILL_CAUSE (R49): no cause, or the first decode check that failed. -/
inductive IllCause where
  | none
  | unassignedOpcode
  | reservedField
  | indexRange
  | wrongPort
deriving DecidableEq, Repr

/-- HALT_CAUSE (R50). -/
inductive HaltCause where
  | none
  | capacityViolation
deriving DecidableEq, Repr

/-- What an agent does to the block (R16): the control context and the transfer collaborator send command words, the
reset input resets, and the transfer collaborator reads a frame of a submitted block (R90, R108). -/
inductive Input where
  /-- a command word arrives on a port -/
  | command (port : Port) (word : Command)
  /-- the reset input (R340) -/
  | reset
  /-- the transfer collaborator reads one frame of a bank (R109) -/
  | transferRead (bank : BitVec 1) (frame : BitVec 16)
deriving DecidableEq, Repr

/-- A response word and the port it is returned on (R137). -/
structure Response where
  port : Port
  word : Word
deriving DecidableEq, Repr

/-- The event SUBMIT(b, m) (R210). -/
structure Submission where
  bank : BitVec 1
  len : BitVec 16
deriving DecidableEq, Repr

/-- One (left, right) sample pair (R26). -/
structure Frame where
  left : F32
  right : F32
deriving DecidableEq, Repr

/-- What the last transition put out (R17): a response, the SUBMIT event, a frame read by the collaborator. -/
structure Output where
  resp : Option Response
  submit : Option Submission
  frame : Option Frame
deriving DecidableEq, Repr

/-- No output. -/
def Output.empty : Output where
  resp := Option.none
  submit := Option.none
  frame := Option.none

/-- Why the machine stops with a fault. -/
inductive Fault where
  /-- Raised by OSC_TICK_BLEP, OSC_TICK_NAIVE and a frame of AUD_PERIOD at a tick of a voice out of domain: the outcome
  is unspecified and a model faults (R177, R306, U1, U2). SAFE: no value is given where the spec gives none. -/
  | outOfDomain
deriving DecidableEq, Repr

/-- Why the machine refuses. -/
inductive Refusal where
  /-- Raised by an arm of exec whose instruction has no meaning yet; no arm is one. SAFE. -/
  | notModelled (mnemonic : String)
  /-- Raised by step when the sizes are outside the bounds of R9 to R11: a model refuses such a configuration (R307,
  R344, U5). SAFE. -/
  | configurationError
  /-- Raised by step when the transfer collaborator reads a frame that it does not own: the spec gives such a
  collaborator no meaning and a model refuses it (R109, U6). SAFE. -/
  | collaboratorDuty
deriving DecidableEq, Repr

/-- The state of the block. The first two fields and the `init` of each bank are parameters (R9 to R14, R30), held here so
that `exec` and `step` cover every configuration. `port`, `inputs` and `out` are the model's own: the port whose
command executes, the agents' commands in the order in which they come to execute (R101), the outputs (R17). -/
structure State where
  /-- C = BLOCK_SIZE_MAX, a parameter (R11) -/
  capacity : Nat
  /-- BUILD_MODE, a parameter (R12) -/
  build : BuildMode
  /-- OSC[0 .. NUM_VOICES − 1] (R33 to R39) -/
  voices : List Voice
  /-- SW[0 .. NUM_SWITCHES − 1] (R53 to R59) -/
  switches : List Switch
  /-- IND[0 .. NUM_INDICATORS − 1] (R63 to R68) -/
  indicators : List Indicator
  /-- OUT_BUF (R41), as bytes: word w of R91 holds byte addresses 4w to 4w + 3, little-endian (R93) -/
  mem : List Host.Cell
  /-- STATUS.HALTED (R48) -/
  halted : Bool
  /-- STATUS.ILL (R49) -/
  ill : Bool
  /-- STATUS.ILL_CAUSE (R49) -/
  illCause : IllCause
  /-- STATUS.HALT_CAUSE (R50) -/
  haltCause : HaltCause
  /-- SYS.WBANK, STATUS bit 12 (R42) -/
  wbank : BitVec 1
  /-- SYS.UNDERRUN_CNT (R44) -/
  underrunCnt : BitVec 32
  /-- SYS.BLOCK_CNT (R45) -/
  blockCnt : BitVec 32
  /-- SYS.NOW (R46) -/
  now : BitVec 32
  /-- OUTINFO.OUT_LEN (R43) -/
  outLen : BitVec 16
  /-- OUTINFO.LAST_BANK (R43) -/
  lastBank : BitVec 1
  /-- OUTINFO.VALID (R43) -/
  valid : Bool
  /-- the port whose command executes -/
  port : Port
  /-- what the agents do next, the first at the head -/
  inputs : List Input
  /-- what the last transition put out -/
  out : Output
deriving DecidableEq, Repr

/-- The block right after reset, for a start-up configuration (R340), with nothing waiting at its ports. -/
def State.ofStartUp (c : StartUp) : State where
  capacity := c.capacity
  build := c.build
  voices := c.voices.map voiceAtReset
  switches := c.switches.map switchAtReset
  indicators := c.indicators.map indicatorAtReset
  mem := []
  halted := false
  ill := false
  illCause := .none
  haltCause := .none
  wbank := 0#1
  underrunCnt := 0#32
  blockCnt := 0#32
  now := 0#32
  outLen := 0#16
  lastBank := 0#1
  valid := false
  port := .cmd
  inputs := []
  out := Output.empty

/-- The block right after reset under the standard configuration (R340; log entry 1). -/
def State.reset : State := State.ofStartUp standardStartUp

end Sys2Proof.Machine
end

