-- ==== Sys2Proof/Machine/Flags.lean ====
section
/-! DEFINITION. The block has no condition codes (spec/10_state.md R62). Its flag bits are fields of three SYS registers;
this file gives the codes of the coded fields and the words that reading those registers returns (R43, R47 to R52). -/

namespace Sys2Proof.Machine

/-- The 4-bit code of ILL_CAUSE (R49). -/
def illCauseCode : IllCause → BitVec 4
  | .none => 0#4
  | .unassignedOpcode => 1#4
  | .reservedField => 2#4
  | .indexRange => 3#4
  | .wrongPort => 4#4

/-- The 4-bit code of HALT_CAUSE (R50). -/
def haltCauseCode : HaltCause → BitVec 4
  | .none => 0#4
  | .capacityViolation => 1#4

/-- The 3-bit code of SW[s].STATE (R56). -/
def clickStateCode : ClickState → BitVec 3
  | .idle => 0#3
  | .pressed => 1#3
  | .doubleClicked => 2#3
  | .held => 3#3
  | .released => 4#3

/-- The 2-bit code of SW[s].EVENT (R58). -/
def clickEventCode : ClickEvent → BitVec 2
  | .none => 0#2
  | .click => 1#2
  | .doubleClick => 2#2
  | .held => 3#2

/-- The bit that CAPS reports for BUILD_MODE (R51). -/
def buildBit : BuildMode → BitVec 1
  | .debug => 1#1
  | .release => 0#1

/-- CAPS (R51): NUM_VOICES − 1 in 7:0, NUM_SWITCHES − 1 in 12:8, NUM_INDICATORS − 1 in 19:16, the build mode in 31. -/
def capsWord (s : State) : Word :=
  buildBit s.build ++ 0#11 ++ BitVec.ofNat 4 (s.indicators.length - 1) ++ 0#3 ++
    BitVec.ofNat 5 (s.switches.length - 1) ++ BitVec.ofNat 8 (s.voices.length - 1)

/-- BLKCAP (R52): C in 15:0. -/
def blkcapWord (s : State) : Word := 0#16 ++ BitVec.ofNat 16 s.capacity

/-- STATUS (R47): HALTED 0, ILL 1, ILL_CAUSE 7:4, HALT_CAUSE 11:8, WBANK 12, every other bit 0. -/
def statusWord (s : State) : Word :=
  0#19 ++ s.wbank ++ haltCauseCode s.haltCause ++ illCauseCode s.illCause ++ 0#2 ++
    BitVec.ofBool s.ill ++ BitVec.ofBool s.halted

/-- OUTINFO (R43): OUT_LEN 15:0, LAST_BANK 16, VALID 31, every other bit 0. -/
def outinfoWord (s : State) : Word :=
  BitVec.ofBool s.valid ++ 0#14 ++ s.lastBank ++ s.outLen

end Sys2Proof.Machine
end

