-- ==== Sys2Proof/Machine/Ops.lean ====
section
/-! DEFINITION. The named operations over memory and registers, raising the block's exceptional conditions, and the reset
transition (spec/20_memory.md, spec/60_exceptions.md, spec/70_reset_and_hazards.md). -/

namespace Sys2Proof.Machine

/-! ### Bytes of memory -/

/-- What a byte that no entry lists reads as: reset makes every word of OUT_BUF +0.0 (R41, R340). -/
def unlistedByte : Byte := 0x00#8

/-- The canonical form of a memory: addresses strictly rising, no entry equal to what an unlisted address reads as. -/
abbrev Memory.wf (m : List Host.Cell) : Prop :=
  m.Pairwise (fun x y => x.1 < y.1) ∧ ∀ c ∈ m, c.2 ≠ unlistedByte

/-- The byte at an address. -/
def memReadByte : List Host.Cell → Nat → Byte
  | [], _ => unlistedByte
  | (a, v) :: rest, x => if a = x then v else memReadByte rest x

/-- The memory with one byte written, in canonical form again. -/
def memWriteByte : List Host.Cell → Nat → Byte → List Host.Cell
  | [], x, v => if v = unlistedByte then [] else [(x, v)]
  | (a, u) :: rest, x, v =>
    if a < x then (a, u) :: memWriteByte rest x v
    else if a = x then (if v = unlistedByte then rest else (x, v) :: rest)
    else if v = unlistedByte then (a, u) :: rest
    else (x, v) :: (a, u) :: rest

/-! ### Words of OUT_BUF -/

/-- MemRead(w, 4) (R91): the word at word address w, little-endian over its four bytes (R93). -/
def memReadWord (m : List Host.Cell) (w : Nat) : Word :=
  memReadByte m (4 * w + 3) ++ memReadByte m (4 * w + 2) ++ memReadByte m (4 * w + 1) ++ memReadByte m (4 * w)

/-- MemWrite(w, 4, v) (R91). -/
def memWriteWord (m : List Host.Cell) (w : Nat) (v : Word) : List Host.Cell :=
  memWriteByte (memWriteByte (memWriteByte (memWriteByte m (4 * w) (v.extractLsb' 0 8))
    (4 * w + 1) (v.extractLsb' 8 8)) (4 * w + 2) (v.extractLsb' 16 8)) (4 * w + 3) (v.extractLsb' 24 8)

/-- The word address of OUT_BUF[b][k].ch (R91). -/
def bufAddr (capacity : Nat) (b : BitVec 1) (k : Nat) (ch : BitVec 1) : Nat :=
  b.toNat * (2 * capacity) + 2 * k + ch.toNat

/-- The byte of memory at an address, in a state. -/
def byteAt (s : State) (a : Nat) : Byte := memReadByte s.mem a

/-- OUT_BUF[b][k].ch (R41, R91). -/
def bufWord (s : State) (b : BitVec 1) (k : Nat) (ch : BitVec 1) : Word :=
  memReadWord s.mem (bufAddr s.capacity b k ch)

/-- OUT_BUF[b][k] <- (l, r) (R207): two word writes, L then R (R91). -/
def writeFrame (b : BitVec 1) (k : Nat) (l r : F32) (s : State) : State :=
  let leftDone := memWriteWord s.mem (bufAddr s.capacity b k 0#1) l
  { s with mem := memWriteWord leftDone (bufAddr s.capacity b k 1#1) r }

/-! ### Banks and responses -/

/-- OSC[v] replaced. -/
def setVoice (s : State) (v : BitVec 8) (x : Voice) : State := { s with voices := s.voices.set v.toNat x }

/-- SW[i] replaced. -/
def setSwitch (s : State) (i : BitVec 8) (x : Switch) : State := { s with switches := s.switches.set i.toNat x }

/-- IND[i] replaced. -/
def setIndicator (s : State) (i : BitVec 8) (x : Indicator) : State :=
  { s with indicators := s.indicators.set i.toNat x }

/-- RESP <- w on the port that issued the command (R137), and nothing else put out. -/
def reply (w : Word) (s : State) : State :=
  { s with out := { resp := some { port := s.port, word := w }, submit := none, frame := none } }

/-- A response on a byte path: the four bytes of RESP (R137), bits 7:0 first (R93). -/
def responseBytes (r : Response) : List Byte := wordBytes r.word

/-- A frame on a byte path: the words L then R (R91), each with bits 7:0 first (R93, R94). -/
def frameBytes (f : Frame) : List Byte := wordBytes f.left ++ wordBytes f.right

/-- The submission of bank b with m frames (R210): OUTINFO, WBANK, BLOCK_CNT, the event SUBMIT(b, m), RESP = 0. -/
def submitBlock (b : BitVec 1) (m : Nat) (s : State) : State :=
  { s with
    valid := true
    lastBank := b
    outLen := BitVec.ofNat 16 m
    wbank := 1#1 - b
    blockCnt := s.blockCnt + 1#32
    out :=
      { resp := some { port := s.port, word := 0#32 }
        submit := some { bank := b, len := BitVec.ofNat 16 m }
        frame := none } }

/-! ### Exceptional conditions (R300) -/

/-- The conditions that the block itself records (R300, rows 1 to 3). Row 4 is the fault `outOfDomain`, row 5 the refusal
`configurationError`. -/
inductive Condition where
  /-- AUD_PERIOD with READY = 0 (R301) -/
  | hardwareUnderrun
  /-- a push of frame k = C (R303) -/
  | capacityViolation
  /-- a word that fails a decode check, with the first failing check (R305) -/
  | illegalCommand (cause : IllCause)
deriving DecidableEq, Repr

/-- ILL and ILL_CAUSE record the first illegal command since reset or the last SYS_CLR_ERR (R305, R313). -/
def recordIllegal (c : IllCause) (s : State) : State :=
  if s.ill then s else { s with ill := true, illCause := c }

/-- HALTED <- 1 and HALT_CAUSE <- 1: the only state that halt entry writes (R303, R310). -/
def enterHalt (s : State) : State := { s with halted := true, haltCause := .capacityViolation }

/-- Raising a condition: what it records and the RESP it gives (R300). No condition transfers control or saves state. A
capacity violation in RELEASE drops the push with no other effect; its RESP is the one of the later submission (R208). -/
def raiseCondition (c : Condition) (s : State) : State :=
  match c with
  | .hardwareUnderrun => reply 1#32 { s with underrunCnt := s.underrunCnt + 1#32 }
  | .capacityViolation =>
    match s.build with
    | .debug => reply 3#32 (enterHalt s)
    | .release => s
  | .illegalCommand cause => reply 0#32 (recordIllegal cause s)

/-- The exit from the illegal-command record (R281, R313). The halt has no exit but reset (R312). -/
def clearIllegal (s : State) : State := { s with ill := false, illCause := .none }

/-! ### Parameters and reset -/

/-- NUM_VOICES, NUM_SWITCHES, NUM_INDICATORS and C are within the bounds of R9 to R11. -/
def parametersOk (s : State) : Bool :=
  boundsOk s.voices.length s.switches.length s.indicators.length s.capacity

/-- The start-up configuration that the block was given (R14). -/
def startUpOf (s : State) : StartUp where
  voices := s.voices.map Voice.init
  switches := s.switches.map Switch.init
  indicators := s.indicators.map Indicator.init
  capacity := s.capacity
  build := s.build

/-- The reset transition (R340): every piece of state at its reset value; what the agents do next is not the block's. -/
def resetBlock (s : State) : State := { State.ofStartUp (startUpOf s) with inputs := s.inputs }

/-- The transfer collaborator reads a frame of the block it owns (R90, R108). A read that breaks duty (1) of R109 has no
meaning and is refused (U6). Reading changes nothing but the frame put out. -/
def transferRead (b : BitVec 1) (k : BitVec 16) (s : State) : Host.Outcome State Fault Refusal :=
  if s.valid && decide (b = s.lastBank) && decide (k.toNat < s.outLen.toNat) then
    .next { s with out :=
      { resp := none, submit := none
        frame := some { left := bufWord s b k.toNat 0#1, right := bufWord s b k.toNat 1#1 } } }
  else .refused .collaboratorDuty

/-- The signal IND_BRIGHT[i] (R262). -/
def indBright (x : Indicator) : F32 := x.cur

/-- The signal IND_ON[i] (R262). -/
def indOn (x : Indicator) : Bool := x.on

end Sys2Proof.Machine
end

