-- ==== Sys2Proof/Machine/Operands.lean ====
section
/-! DEFINITION. The operand forms of the commands: the port check, the instance index and the register number
(spec/30_encoding.md R127, R128, R132, R134, R136), each with the condition it raises when it fails. -/

namespace Sys2Proof.Machine

/-- Check (2) of R132, with the condition of R134: a command on the wrong port is illegal with cause WRONG_PORT. -/
def onPort (p : Port) (s : State) (k : Host.Outcome State Fault Refusal) : Host.Outcome State Fault Refusal :=
  if s.port = p then k else .next (raiseCondition (.illegalCommand .wrongPort) s)

/-- The voice that IDX names, or an illegal command with cause INDEX_RANGE (R127, R136 a). -/
def withVoice (v : BitVec 8) (s : State) (k : Voice → Host.Outcome State Fault Refusal) :
    Host.Outcome State Fault Refusal :=
  match s.voices[v.toNat]? with
  | some x => k x
  | none => .next (raiseCondition (.illegalCommand .indexRange) s)

/-- The switch that IDX names, or an illegal command with cause INDEX_RANGE (R127, R136 b). -/
def withSwitch (i : BitVec 8) (s : State) (k : Switch → Host.Outcome State Fault Refusal) :
    Host.Outcome State Fault Refusal :=
  match s.switches[i.toNat]? with
  | some x => k x
  | none => .next (raiseCondition (.illegalCommand .indexRange) s)

/-- The indicator that IDX names, or an illegal command with cause INDEX_RANGE (R127, R136 c). -/
def withIndicator (i : BitVec 8) (s : State) (k : Indicator → Host.Outcome State Fault Refusal) :
    Host.Outcome State Fault Refusal :=
  match s.indicators[i.toNat]? with
  | some x => k x
  | none => .next (raiseCondition (.illegalCommand .indexRange) s)

/-- RESP <- the register read, or an illegal command with cause INDEX_RANGE where there is no such register (R136 d). -/
def replyRegister (r : Option Word) (s : State) : Host.Outcome State Fault Refusal :=
  match r with
  | some w => .next (reply w s)
  | none => .next (raiseCondition (.illegalCommand .indexRange) s)

/-- The SYS register with a number (R284). -/
def sysRegister (s : State) (r : BitVec 16) : Option Word :=
  match r.toNat with
  | 0 => some (capsWord s)
  | 1 => some (blkcapWord s)
  | 2 => some (statusWord s)
  | 3 => some s.underrunCnt
  | 4 => some s.blockCnt
  | 5 => some s.now
  | 6 => some (outinfoWord s)
  | _ => none

/-- The OSC register with a number, narrow ones zero-extended (R285, R70). -/
def voiceRegister (x : Voice) (r : BitVec 16) : Option Word :=
  match r.toNat with
  | 0 => some ((waveCode x.wave).setWidth 32)
  | 1 => some x.freq
  | 2 => some x.sr
  | 3 => some x.pinc
  | 4 => some x.phase
  | 5 => some x.last
  | 6 => some ((BitVec.ofBool x.en).setWidth 32)
  | _ => none

/-- The SW register with a number, narrow ones zero-extended (R286, R70). -/
def switchRegister (x : Switch) (r : BitVec 16) : Option Word :=
  match r.toNat with
  | 0 => some ((BitVec.ofBool x.level).setWidth 32)
  | 1 => some ((BitVec.ofBool x.deb).setWidth 32)
  | 2 => some (x.cnt.setWidth 32)
  | 3 => some ((clickStateCode x.state).setWidth 32)
  | 4 => some x.pressT
  | 5 => some ((clickEventCode x.event).setWidth 32)
  | 6 => some (x.dw.setWidth 32)
  | 7 => some (x.dcw.setWidth 32)
  | 8 => some (x.ht.setWidth 32)
  | _ => none

/-- The IND register with a number, narrow ones zero-extended (R287, R70). -/
def indicatorRegister (x : Indicator) (r : BitVec 16) : Option Word :=
  match r.toNat with
  | 0 => some x.cur
  | 1 => some x.target
  | 2 => some x.step
  | 3 => some (x.blink.setWidth 32)
  | 4 => some (x.bcnt.setWidth 32)
  | 5 => some ((BitVec.ofBool x.on).setWidth 32)
  | _ => none

end Sys2Proof.Machine
end

