-- ==== Sys2Proof/Machine/Control.lean ====
section
/-! DEFINITION. CTL, the switches and the indicators (spec/42_control.md): one poll tick of all of them, and the commands
that set their parameters. -/

namespace Sys2Proof.Machine

/-! ### Switch step -/

/-- An accepted change of the debounced level (R234). -/
inductive Edge where
  | none
  | press
  | release
deriving DecidableEq, Repr

/-- sat16(CNT + 1) (R18, R234). -/
def countUp (cnt : BitVec 16) : BitVec 16 := BitVec.ofNat 16 (min (cnt.toNat + 1) 65535)

/-- The raw level differs from the debounced one and has done so for max(DW, 1) consecutive polls (R234). -/
def accepts (raw : Bool) (x : Switch) : Bool :=
  decide (raw ≠ x.deb) && decide (max x.dw.toNat 1 ≤ (countUp x.cnt).toNat)

/-- The edge of one poll (R234). -/
def edgeOf (raw : Bool) (x : Switch) : Edge :=
  if accepts raw x then (if raw then .press else .release) else .none

/-- LEVEL, DEB and CNT after one poll (R233, R234). -/
def debounce (raw : Bool) (x : Switch) : Switch :=
  if raw = x.deb then { x with level := raw, cnt := 0#16 }
  else if accepts raw x then { x with level := raw, deb := raw, cnt := 0#16 }
  else { x with level := raw, cnt := countUp x.cnt }

/-- STATE, PRESS_T and EVENT after one poll, from the edge and from el = (NOW − PRESS_T) mod 2^32 (R235 to R242). A pair
of STATE and edge that R235 says cannot occur changes nothing (DEDUCED, log entry 6). -/
def classify (edge : Edge) (now : BitVec 32) (x : Switch) : Switch :=
  let el := (now - x.pressT).toNat
  match x.state, edge with
  | .idle, .press => { x with state := .pressed, pressT := now, event := .none }
  | .released, .press =>
    if el < x.dcw.toNat then { x with state := .doubleClicked, pressT := now, event := .doubleClick }
    else { x with state := .pressed, pressT := now, event := .click }
  | .pressed, .release =>
    if el < x.dcw.toNat then { x with state := .released, event := .none }
    else { x with state := .idle, event := .none }
  | .doubleClicked, .release => { x with state := .idle, event := .none }
  | .held, .release => { x with state := .idle, event := .none }
  | .pressed, .none =>
    if x.ht.toNat ≤ el then { x with state := .held, event := .held } else { x with event := .none }
  | .doubleClicked, .none =>
    if x.ht.toNat ≤ el then { x with state := .held, event := .held } else { x with event := .none }
  | .released, .none =>
    if x.dcw.toNat ≤ el then { x with state := .idle, event := .click } else { x with event := .none }
  | .idle, .none => { x with event := .none }
  | .held, .none => { x with event := .none }
  | .idle, .release => { x with event := .none }
  | .released, .release => { x with event := .none }
  | .pressed, .press => { x with event := .none }
  | .doubleClicked, .press => { x with event := .none }
  | .held, .press => { x with event := .none }

/-- switch_step (R233 to R242). -/
def switchStep (raw : Bool) (now : BitVec 32) (x : Switch) : Switch :=
  classify (edgeOf raw x) now (debounce raw x)

/-- RESP of a poll: bit s is 1 exactly when switch s emitted an event (R231), from some switch on. -/
def eventMask : List Switch → BitVec 32
  | [] => 0#32
  | x :: rest => (eventMask rest <<< 1) ||| (if x.event = .none then 0#32 else 1#32)

/-! ### Indicator step -/

/-- The brightness ramp (R260). -/
def rampCur (x : Indicator) : F32 :=
  if lt32 x.cur x.target then min32 (add32 x.cur x.step) x.target
  else if gt32 x.cur x.target then max32 (sub32 x.cur x.step) x.target
  else x.cur

/-- ON after one poll (R261). -/
def blinkOn (x : Indicator) : Bool :=
  if x.blink = 0#16 then true else decide (x.bcnt.toNat < x.blink.toNat - x.blink.toNat / 2)

/-- BCNT after one poll (R261). -/
def blinkCount (x : Indicator) : BitVec 16 :=
  if x.blink = 0#16 then 0#16
  else if x.bcnt.toNat + 1 = x.blink.toNat then 0#16
  else x.bcnt + 1#16

/-- indicator_step (R260, R261). -/
def indicatorStep (x : Indicator) : Indicator :=
  { x with cur := rampCur x, on := blinkOn x, bcnt := blinkCount x }

/-! ### Commands -/

/-- The switches after one poll, each with its own bit of the level mask and the same NOW (R231, R233). -/
def pollSwitches (levels : BitVec 32) (now : BitVec 32) (xs : List Switch) : List Switch :=
  xs.mapIdx fun i x => switchStep (levels.getLsbD i) now x

/-- CTL_POLL (R230): every switch, then every indicator, then NOW; HALTED is not consulted (R232). -/
def execCtlPoll (levels : BitVec 32) (s : State) : Host.Outcome State Fault Refusal :=
  onPort .cmd s (.next (reply (eventMask (pollSwitches levels s.now s.switches))
    { s with
      switches := pollSwitches levels s.now s.switches
      indicators := s.indicators.map indicatorStep
      now := s.now + 1#32 }))

/-- SW_SET_DW (R270): CNT is kept. -/
def execSwSetDw (i : BitVec 8) (n : BitVec 16) (s : State) : Host.Outcome State Fault Refusal :=
  onPort .cmd s (withSwitch i s fun x => .next (reply 0#32 (setSwitch s i { x with dw := n })))

/-- SW_SET_DCW (R271). -/
def execSwSetDcw (i : BitVec 8) (n : BitVec 16) (s : State) : Host.Outcome State Fault Refusal :=
  onPort .cmd s (withSwitch i s fun x => .next (reply 0#32 (setSwitch s i { x with dcw := n })))

/-- SW_SET_HT (R272). -/
def execSwSetHt (i : BitVec 8) (n : BitVec 16) (s : State) : Host.Outcome State Fault Refusal :=
  onPort .cmd s (withSwitch i s fun x => .next (reply 0#32 (setSwitch s i { x with ht := n })))

/-- IND_SET_TARGET (R264): CUR moves at the next poll. -/
def execIndSetTarget (i : BitVec 8) (x : F32) (s : State) : Host.Outcome State Fault Refusal :=
  onPort .cmd s (withIndicator i s fun d => .next (reply 0#32 (setIndicator s i { d with target := clamp01 x })))

/-- IND_SET_STEP (R265). -/
def execIndSetStep (i : BitVec 8) (x : F32) (s : State) : Host.Outcome State Fault Refusal :=
  onPort .cmd s (withIndicator i s fun d => .next (reply 0#32 (setIndicator s i { d with step := clamp01 x })))

/-- IND_SET_BLINK (R266): the new schedule starts with its on phase; ON changes at the next poll. -/
def execIndSetBlink (i : BitVec 8) (p : BitVec 16) (s : State) : Host.Outcome State Fault Refusal :=
  onPort .cmd s (withIndicator i s fun d =>
    .next (reply 0#32 (setIndicator s i { d with blink := p, bcnt := 0#16 })))

end Sys2Proof.Machine
end

