-- ==== Sys2Proof/Machine/Oscillator.lean ====
section
/-! DEFINITION. OSC, the band-limited oscillator engine (spec/40_oscillator.md): the operating domain, the phase
accumulator, the waveforms, polyBLEP, the Triangle integrator, the two tick functions, and the six OSC commands. Each
formula is evaluated in the order the rule writes it, one rounding an operation. -/

namespace Sys2Proof.Machine

/-! ### Domain and phase -/

/-- A value v with 0 ≤ v < TWO_PI_F, not a NaN: the range of R150 for PINC and for PHASE. -/
def inCycle (v : F32) : Bool := ge32 v zeroF && lt32 v twoPiF

/-- The voice is in domain (R150). -/
def inDomain (x : Voice) : Bool := inCycle x.pinc && inCycle x.phase

/-- The loop of R153, for at most `n` iterations; R154 gives that two are enough in domain. -/
def wrapPhase : Nat → F32 → F32
  | 0, p => p
  | n + 1, p => if ge32 p twoPiF then wrapPhase n (sub32 p twoPiF) else p

/-- The phase one increment later (R153). -/
def nextPhase (phase pinc : F32) : F32 := wrapPhase 2 (add32 phase pinc)

/-- advance(v) (R153). -/
def advance (x : Voice) : Voice := { x with phase := nextPhase x.phase x.pinc }

/-- t, the normalised phase (R155). -/
def normPhase (x : Voice) : F32 := div32 x.phase twoPiF

/-- dt, the normalised increment (R155). -/
def normPinc (x : Voice) : F32 := div32 x.pinc twoPiF

/-! ### Naive waveforms -/

/-- The naive Saw: a rising ramp (R157). -/
def sawNaive (t : F32) : F32 := sub32 (mul32 twoF t) oneF

/-- The naive Square (R158). -/
def squareNaive (phase : F32) : F32 := if lt32 phase piF then oneF else minusOneF

/-- The naive Triangle: the folded ramp (R159). -/
def triangleNaive (t : F32) : F32 := mul32 twoF (sub32 (abs32 (sawNaive t)) halfF)

/-- The naive sample of a voice by its WAVE (R156 to R159, R163). -/
def naiveSample (x : Voice) : F32 :=
  match x.wave with
  | .sine => Config.sineFn x.phase
  | .saw => sawNaive (normPhase x)
  | .square => squareNaive x.phase
  | .triangle => triangleNaive (normPhase x)

/-! ### polyBLEP -/

/-- The first polynomial, x + x − x² − 1 (R160). -/
def blepAfter (x : F32) : F32 := sub32 (sub32 (add32 x x) (mul32 x x)) oneF

/-- The second polynomial, x² + x + x + 1 (R160). -/
def blepBefore (x : F32) : F32 := add32 (add32 (add32 (mul32 x x) x) x) oneF

/-- blep(t, dt), with the zero-denominator guard and the two tests in order (R160, R308). -/
def blep (t dt : F32) : F32 :=
  if !gt32 dt zeroF then zeroF
  else if lt32 t dt then blepAfter (div32 t dt)
  else if gt32 t (sub32 oneF dt) then blepBefore (div32 (sub32 t oneF) dt)
  else zeroF

/-- t2, the phase of the Square's falling edge (R161). -/
def fallingEdge (t : F32) : F32 :=
  if ge32 (add32 t halfF) oneF then sub32 (add32 t halfF) oneF else add32 t halfF

/-- polyBLEP Saw: the correction of the downward step is subtracted (R164). -/
def sawBlep (t dt : F32) : F32 := sub32 (sawNaive t) (blep t dt)

/-- polyBLEP Square: the rising edge's correction added, then the falling edge's subtracted (R165). -/
def squareBlep (phase t dt : F32) : F32 :=
  sub32 (add32 (squareNaive phase) (blep t dt)) (blep (fallingEdge t) dt)

/-- The one-pole integrator of the polyBLEP Triangle, its coefficient PINC (R166). -/
def integrate (pinc sq last : F32) : F32 :=
  add32 (mul32 pinc sq) (mul32 (sub32 oneF pinc) last)

/-- The polyBLEP sample of a voice by its WAVE (R156, R162, R164 to R166). -/
def blepSample (x : Voice) : F32 :=
  match x.wave with
  | .sine => Config.sineFn x.phase
  | .saw => sawBlep (normPhase x) (normPinc x)
  | .square => squareBlep x.phase (normPhase x) (normPinc x)
  | .triangle => integrate x.pinc (squareBlep x.phase (normPhase x) (normPinc x)) x.last

/-- LAST after a polyBLEP tick: the sample for a Triangle voice, unchanged for any other (R38, R166). -/
def lastAfterBlep (x : Voice) : F32 :=
  match x.wave with
  | .sine => x.last
  | .saw => x.last
  | .square => x.last
  | .triangle => blepSample x

/-! ### Ticks -/

/-- A tick: the sample returned and the voice after it. -/
structure Ticked where
  sample : F32
  voice : Voice
deriving DecidableEq, Repr

/-- tick_blep(v) (R162); none where the voice is out of domain and the tick is unspecified (R177). -/
def tickBlep (x : Voice) : Option Ticked :=
  if inDomain x then
    some { sample := canonical (blepSample x), voice := advance { x with last := lastAfterBlep x } }
  else none

/-- tick_naive(v) (R163); none where the voice is out of domain and the tick is unspecified (R177). -/
def tickNaive (x : Voice) : Option Ticked :=
  if inDomain x then some { sample := canonical (naiveSample x), voice := advance x } else none

/-! ### Commands -/

/-- FREQ <- f and PINC recomputed in the same transition (R96 a, R151). -/
def setFreq (f : F32) (x : Voice) : Voice := { x with freq := f, pinc := pincOf f x.sr }

/-- SR <- sr and PINC recomputed in the same transition (R96 a, R151). -/
def setSr (sr : F32) (x : Voice) : Voice := { x with sr := sr, pinc := pincOf x.freq sr }

/-- OSC_SET_FREQ (R170). -/
def execOscSetFreq (v : BitVec 8) (f : F32) (s : State) : Host.Outcome State Fault Refusal :=
  onPort .cmd s (withVoice v s fun x => .next (reply 0#32 (setVoice s v (setFreq f x))))

/-- OSC_SET_SR (R171). -/
def execOscSetSr (v : BitVec 8) (sr : F32) (s : State) : Host.Outcome State Fault Refusal :=
  onPort .cmd s (withVoice v s fun x => .next (reply 0#32 (setVoice s v (setSr sr x))))

/-- OSC_SET_WAVE (R172): PHASE, LAST and PINC keep their values. -/
def execOscSetWave (v : BitVec 8) (w : Wave) (s : State) : Host.Outcome State Fault Refusal :=
  onPort .cmd s (withVoice v s fun x => .next (reply 0#32 (setVoice s v { x with wave := w })))

/-- OSC_SET_EN (R173). -/
def execOscSetEn (v : BitVec 8) (e : Bool) (s : State) : Host.Outcome State Fault Refusal :=
  onPort .cmd s (withVoice v s fun x => .next (reply 0#32 (setVoice s v { x with en := e })))

/-- A test tick of one voice: nothing while halted (R174), else the sample in RESP and the voice advanced; the tick of a
voice out of domain faults (R177). -/
def tickCommand (tick : Voice → Option Ticked) (v : BitVec 8) (s : State) : Host.Outcome State Fault Refusal :=
  withVoice v s fun x =>
    if s.halted then .next (reply 0#32 s)
    else
      match tick x with
      | some t => .next (reply t.sample (setVoice s v t.voice))
      | none => .fault .outOfDomain

/-- OSC_TICK_BLEP (R175): EN is not consulted. -/
def execOscTickBlep (v : BitVec 8) (s : State) : Host.Outcome State Fault Refusal :=
  onPort .cmd s (tickCommand tickBlep v s)

/-- OSC_TICK_NAIVE (R176): LAST is neither read nor written. -/
def execOscTickNaive (v : BitVec 8) (s : State) : Host.Outcome State Fault Refusal :=
  onPort .cmd s (tickCommand tickNaive v s)

end Sys2Proof.Machine
end

