-- ==== Sys2Proof/Machine/Pipeline.lean ====
section
/-! DEFINITION. PIPE, the audio block pipeline: AUD_PERIOD (spec/41_pipeline.md R200 to R215). -/

namespace Sys2Proof.Machine

/-- One frame over the banks from some voice on (R206): every enabled voice ticked once, in increasing order, its sample
added to the sum; none where the tick of an enabled voice is out of domain (R177). -/
def synthFrame : List Voice → F32 → Option (F32 × List Voice)
  | [], acc => some (acc, [])
  | x :: rest, acc =>
    if x.en then
      match tickBlep x with
      | none => none
      | some t =>
        match synthFrame rest (add32 acc t.sample) with
        | none => none
        | some (sum, rest') => some (sum, t.voice :: rest')
    else
      match synthFrame rest acc with
      | none => none
      | some (sum, rest') => some (sum, x :: rest')

/-- How the frame loop ends. -/
inductive Rendered where
  /-- every frame is done -/
  | complete (s : State)
  /-- a capacity violation in DEBUG ended the command (R208) -/
  | halted (s : State)
  /-- an enabled voice was ticked out of domain (R177) -/
  | outOfDomain
deriving Repr

/-- The frame loop from frame k on, with `todo` frames left (R205): each frame is computed (R206), and pushed while there is
room (R207); the push of a frame beyond C is a capacity violation, after that frame's ticks (R208). -/
def renderFrames (b : BitVec 1) : (todo : Nat) → (k : Nat) → State → Rendered
  | 0, _, s => .complete s
  | todo + 1, k, s =>
    match synthFrame s.voices zeroF with
    | none => .outOfDomain
    | some (acc, voices) =>
      if k < s.capacity then
        renderFrames b todo (k + 1) (writeFrame b k acc acc { s with voices := voices })
      else
        match s.build with
        | .debug => .halted (raiseCondition .capacityViolation { s with voices := voices })
        | .release => renderFrames b todo (k + 1) (raiseCondition .capacityViolation { s with voices := voices })

/-- AUD_PERIOD (R200). -/
def execAudPeriod (ready : Bool) (n : BitVec 16) (s : State) : Host.Outcome State Fault Refusal :=
  onPort .aud s (
    if s.halted then .next (reply 2#32 s)
    else if !ready then .next (raiseCondition .hardwareUnderrun s)
    else
      match renderFrames s.wbank n.toNat 0 s with
      | .complete s' => .next (submitBlock s.wbank (min n.toNat s.capacity) s')
      | .halted s' => .next s'
      | .outOfDomain => .fault .outOfDomain)

end Sys2Proof.Machine
end

