-- ==== Sys2Proof/Machine/System.lean ====
section
/-! DEFINITION. NOP, SYS_CLR_ERR and the five read commands (spec/43_system.md). -/

namespace Sys2Proof.Machine

/-- NOP (R280): RESP <- 0, on either port (R134). -/
def execNop (s : State) : Host.Outcome State Fault Refusal := .next (reply 0#32 s)

/-- SYS_CLR_ERR (R281): ILL and ILL_CAUSE cleared; HALTED and HALT_CAUSE kept. -/
def execSysClrErr (s : State) : Host.Outcome State Fault Refusal :=
  onPort .cmd s (.next (reply 0#32 (clearIllegal s)))

/-- RD_SYS (R284): RESP <- SYS[r]. -/
def execRdSys (r : BitVec 16) (s : State) : Host.Outcome State Fault Refusal :=
  onPort .cmd s (replyRegister (sysRegister s r) s)

/-- RD_OSC (R285): RESP <- OSC[v][r]. -/
def execRdOsc (v : BitVec 8) (r : BitVec 16) (s : State) : Host.Outcome State Fault Refusal :=
  onPort .cmd s (withVoice v s fun x => replyRegister (voiceRegister x r) s)

/-- RD_SW (R286): RESP <- SW[i][r]. -/
def execRdSw (i : BitVec 8) (r : BitVec 16) (s : State) : Host.Outcome State Fault Refusal :=
  onPort .cmd s (withSwitch i s fun x => replyRegister (switchRegister x r) s)

/-- RD_IND (R287): RESP <- IND[i][r]. -/
def execRdInd (i : BitVec 8) (r : BitVec 16) (s : State) : Host.Outcome State Fault Refusal :=
  onPort .cmd s (withIndicator i s fun x => replyRegister (indicatorRegister x r) s)

/-- RD_BUF (R288): RESP <- OUT_BUF[b][k].ch, for k < C (R136 e). -/
def execRdBuf (b ch : BitVec 1) (k : BitVec 16) (s : State) : Host.Outcome State Fault Refusal :=
  onPort .cmd s (replyRegister (if k.toNat < s.capacity then some (bufWord s b k.toNat ch) else none) s)

end Sys2Proof.Machine
end

