-- ==== Sys2Proof/Machine/Dispatch.lean ====
section
/-! DEFINITION. What a command does: one arm for each constructor of Instr, in the order of spec/opcode_table.json. -/

namespace Sys2Proof.Machine

def exec (i : Instr) (s : State) : Host.Outcome State Fault Refusal :=
  match i with
  | .nop => Sys2Proof.Machine.execNop s
  | .sysClrErr => Sys2Proof.Machine.execSysClrErr s
  | .oscSetFreq voice value => Sys2Proof.Machine.execOscSetFreq voice value s
  | .oscSetSr voice value => Sys2Proof.Machine.execOscSetSr voice value s
  | .oscSetWave voice wave => Sys2Proof.Machine.execOscSetWave voice wave s
  | .oscSetEn voice en => Sys2Proof.Machine.execOscSetEn voice en s
  | .oscTickBlep voice => Sys2Proof.Machine.execOscTickBlep voice s
  | .oscTickNaive voice => Sys2Proof.Machine.execOscTickNaive voice s
  | .audPeriod ready n => Sys2Proof.Machine.execAudPeriod ready n s
  | .ctlPoll levels => Sys2Proof.Machine.execCtlPoll levels s
  | .swSetDw switch value => Sys2Proof.Machine.execSwSetDw switch value s
  | .swSetDcw switch value => Sys2Proof.Machine.execSwSetDcw switch value s
  | .swSetHt switch value => Sys2Proof.Machine.execSwSetHt switch value s
  | .indSetTarget indicator value => Sys2Proof.Machine.execIndSetTarget indicator value s
  | .indSetStep indicator value => Sys2Proof.Machine.execIndSetStep indicator value s
  | .indSetBlink indicator value => Sys2Proof.Machine.execIndSetBlink indicator value s
  | .rdSys reg => Sys2Proof.Machine.execRdSys reg s
  | .rdOsc voice reg => Sys2Proof.Machine.execRdOsc voice reg s
  | .rdSw switch reg => Sys2Proof.Machine.execRdSw switch reg s
  | .rdInd indicator reg => Sys2Proof.Machine.execRdInd indicator reg s
  | .rdBuf bank ch frame => Sys2Proof.Machine.execRdBuf bank ch frame s

end Sys2Proof.Machine
end

