-- ==== Sys2Proof/Machine/Accept.lean ====
section
/-! DEFINITION. What the block does with what an agent sends it: a command word through the checks of
spec/30_encoding.md R132 in their order, the reset input, a read by the transfer collaborator. -/

namespace Sys2Proof.Machine

/-- A command word issued on a port (R132, R305). The checks run in the order opcode, port, reserved fields, range; a
word that decodes runs as its command, whose own port and range checks are (2) and (4). -/
def runCommand (p : Port) (w : Command) (s : State) : Host.Outcome State Fault Refusal :=
  match decode w with
  | .ok i => exec i { s with port := p }
  | .error .unassignedOpcode => .next (raiseCondition (.illegalCommand .unassignedOpcode) { s with port := p })
  | .error .reservedField =>
    if portLegal (opOf w) p then .next (raiseCondition (.illegalCommand .reservedField) { s with port := p })
    else .next (raiseCondition (.illegalCommand .wrongPort) { s with port := p })

/-- One atomic transition of the block (R96, R340). -/
def runInput (i : Input) (s : State) : Host.Outcome State Fault Refusal :=
  match i with
  | .command p w => runCommand p w s
  | .reset => .next (resetBlock s)
  | .transferRead b k => transferRead b k s

/-- The port on which a word's command is legal, for a word that the host asks about (R134). -/
def legalPort (w : Command) : Port := if portLegal (opOf w) .cmd then .cmd else .aud

end Sys2Proof.Machine
end

