-- ==== Sys2Proof/Machine/Step.lean ====
section
/-! DEFINITION. The step of the block: the next input of the agents, in the order in which the inputs come to execute
(spec/20_memory.md R101); between inputs the block holds its state (spec/60_exceptions.md R323). -/

namespace Sys2Proof.Machine

/-- One step: the next input runs as one atomic transition (R96); with no input the state is held (R323); a block whose
sizes are out of bounds is refused (R307). -/
def step (s : State) : Host.Outcome State Fault Refusal :=
  if parametersOk s then
    match s.inputs with
    | [] => .next s
    | i :: rest => runInput i { s with inputs := rest }
  else .refused .configurationError

/-- The state with a command word as the next input, on the port where its command is legal (log entry 2). -/
def State.withFetchWord (s : State) (nbits w : Nat) : State :=
  { s with inputs := .command (legalPort (tableWord nbits w)) (tableWord nbits w) :: s.inputs }

end Sys2Proof.Machine
end

