-- ==== Sys2Proof/Safety.lean ====
section
/-! DEFINITION. The terms that claims about the block are made in: what a legal command is, the record that an illegal
command leaves, the invariants of spec/10_state.md, and runs of ticks and of polls. -/

namespace Sys2Proof.Machine

/-! ### Legal and illegal commands -/

/-- The OP values of the opcode map (R131); every other value is unassigned (R133). -/
def assignedOps : List (BitVec 8) :=
  [0x00#8, 0x01#8, 0x10#8, 0x11#8, 0x12#8, 0x13#8, 0x14#8, 0x15#8, 0x20#8, 0x30#8, 0x31#8, 0x32#8, 0x33#8,
   0x40#8, 0x41#8, 0x42#8, 0x70#8, 0x71#8, 0x72#8, 0x73#8, 0x74#8]

/-- The formats of R122. -/
inductive Format where
  | n | vd | vi | v | p | a | r
deriving DecidableEq, Repr

/-- The format of an OP value (R131); `n` for an unassigned one. -/
def formatOf (op : BitVec 8) : Format :=
  if op = 0x00#8 ∨ op = 0x01#8 then .n
  else if op = 0x10#8 ∨ op = 0x11#8 ∨ op = 0x40#8 ∨ op = 0x41#8 then .vd
  else if op = 0x12#8 ∨ op = 0x13#8 ∨ op = 0x31#8 ∨ op = 0x32#8 ∨ op = 0x33#8 ∨ op = 0x42#8 then .vi
  else if op = 0x14#8 ∨ op = 0x15#8 then .v
  else if op = 0x20#8 then .a
  else if op = 0x30#8 then .p
  else if op = 0x70#8 ∨ op = 0x71#8 ∨ op = 0x72#8 ∨ op = 0x73#8 ∨ op = 0x74#8 then .r
  else .n

/-- Every reserved field of the word is zero, by the table of formats of R122 and the sub-fields of R135. -/
def reservedFieldsZero (w : Command) : Prop :=
  match formatOf (opOf w) with
  | .n => dataOf w = 0#32 ∧ idxOf w = 0#8 ∧ immOf w = 0#16
  | .vd => immOf w = 0#16
  | .vi =>
    dataOf w = 0#32 ∧ (opOf w = 0x12#8 → (immOf w).toNat < 4) ∧ (opOf w = 0x13#8 → (immOf w).toNat < 2)
  | .v => dataOf w = 0#32 ∧ immOf w = 0#16
  | .p => idxOf w = 0#8 ∧ immOf w = 0#16
  | .a => dataOf w = 0#32 ∧ (idxOf w).toNat < 2
  | .r =>
    dataOf w = 0#32 ∧ (opOf w = 0x70#8 → idxOf w = 0#8) ∧ (opOf w = 0x74#8 → (idxOf w).toNat < 4)

/-- A command whose OP field is `op` is on the wrong port (R134): AUD_PERIOD off AUD, any other command but NOP off CMD. -/
def onWrongPort (op : BitVec 8) (p : Port) : Prop :=
  (op = 0x20#8 ∧ p ≠ .aud) ∨ (op ≠ 0x20#8 ∧ op ≠ 0x00#8 ∧ p ≠ .cmd)

/-- The operands pass the range check of R136 in this state. -/
def operandsInRange (s : State) : Instr → Prop
  | .nop => True
  | .sysClrErr => True
  | .oscSetFreq v _ => v.toNat < s.voices.length
  | .oscSetSr v _ => v.toNat < s.voices.length
  | .oscSetWave v _ => v.toNat < s.voices.length
  | .oscSetEn v _ => v.toNat < s.voices.length
  | .oscTickBlep v => v.toNat < s.voices.length
  | .oscTickNaive v => v.toNat < s.voices.length
  | .audPeriod _ _ => True
  | .ctlPoll _ => True
  | .swSetDw i _ => i.toNat < s.switches.length
  | .swSetDcw i _ => i.toNat < s.switches.length
  | .swSetHt i _ => i.toNat < s.switches.length
  | .indSetTarget i _ => i.toNat < s.indicators.length
  | .indSetStep i _ => i.toNat < s.indicators.length
  | .indSetBlink i _ => i.toNat < s.indicators.length
  | .rdSys r => r.toNat ≤ 6
  | .rdOsc v r => v.toNat < s.voices.length ∧ r.toNat ≤ 6
  | .rdSw i r => i.toNat < s.switches.length ∧ r.toNat ≤ 8
  | .rdInd i r => i.toNat < s.indicators.length ∧ r.toNat ≤ 5
  | .rdBuf _ _ k => k.toNat < s.capacity

/-- The state with a response on the port of the command and no other output. -/
def answered (w : Word) (s : State) : State :=
  { s with out := { resp := some { port := s.port, word := w }, submit := none, frame := none } }

/-- What an illegal command leaves (R305): the first cause recorded, RESP = 0, nothing else changed. -/
def afterIllegal (c : IllCause) (s : State) : State :=
  answered 0#32 { s with ill := true, illCause := if s.ill then s.illCause else c }

/-! ### Invariants -/

/-- The switch invariant (R60). -/
def switchOk (x : Switch) : Prop :=
  (x.deb = true ↔ x.state = .pressed ∨ x.state = .doubleClicked ∨ x.state = .held) ∧
  (x.deb = false ↔ x.state = .idle ∨ x.state = .released)

/-- A value in [0, 1], never a NaN (R69). -/
def inUnit (v : F32) : Prop := ge32 v zeroF = true ∧ ge32 oneF v = true

/-- A value in [−1, 1], never a NaN (R168). -/
def inSignedUnit (v : F32) : Prop := ge32 v minusOneF = true ∧ ge32 oneF v = true

/-- The indicator invariant (R69). -/
def indicatorOk (x : Indicator) : Prop := inUnit x.cur ∧ inUnit x.target ∧ inUnit x.step

/-- BCNT lies in 0 .. max(BLINK − 1, 0) (R67). -/
def blinkOk (x : Indicator) : Prop := x.bcnt.toNat < max x.blink.toNat 1

/-- PHASE lies in [0, TWO_PI_F) and is not −0.0 (R37, R154). -/
def phaseOk (x : Voice) : Prop := ge32 x.phase zeroF = true ∧ lt32 x.phase twoPiF = true ∧ x.phase ≠ 0x80000000#32

/-- PINC is the increment of the stored FREQ and SR (R36, R151). -/
def pincOk (x : Voice) : Prop := x.pinc = div32 (mul32 x.freq twoPiF) x.sr

/-- The memory is canonical and lists only bytes of the 4C words of the buffer space (R91). -/
def memoryOk (s : State) : Prop := Memory.wf s.mem ∧ ∀ c ∈ s.mem, c.1 < 4 * (4 * s.capacity)

/-- The error record is consistent: ILL is set exactly with a cause (R49), HALTED exactly with a cause (R50), and only a
DEBUG block halts (R48). -/
def recordOk (s : State) : Prop :=
  (s.ill = true ↔ s.illCause ≠ .none) ∧ (s.halted = true ↔ s.haltCause ≠ .none) ∧
  (s.halted = true → s.build = .debug)

/-- The handoff: once a block is submitted, the next period writes the other bank and the block is at most C frames
(R108, R210); before that OUTINFO and WBANK are 0 (R340). -/
def handoffOk (s : State) : Prop :=
  (s.valid = true → s.wbank = 1#1 - s.lastBank ∧ s.outLen.toNat ≤ s.capacity) ∧
  (s.valid = false → s.wbank = 0#1 ∧ s.lastBank = 0#1 ∧ s.outLen = 0#16)

/-- Every invariant of the block at once. -/
def blockOk (s : State) : Prop :=
  memoryOk s ∧ recordOk s ∧ handoffOk s ∧ (∀ x ∈ s.voices, phaseOk x ∧ pincOk x) ∧
  (∀ x ∈ s.switches, switchOk x) ∧ ∀ x ∈ s.indicators, indicatorOk x ∧ blinkOk x

/-- The voice is in the operating domain, in the words of R150. -/
def inOperatingDomain (x : Voice) : Prop :=
  (ge32 x.pinc zeroF = true ∧ lt32 x.pinc twoPiF = true) ∧ ge32 x.phase zeroF = true ∧ lt32 x.phase twoPiF = true

/-- Every enabled voice is in the operating domain: what AUD_PERIOD needs to complete (R200). -/
def enabledInDomain (s : State) : Prop := ∀ x ∈ s.voices, x.en = true → inOperatingDomain x

/-- The distance of two whole numbers. -/
def distance (a b : Nat) : Nat := (a - b) + (b - a)

/-! ### Correct rounding (R20) -/

/-- The magnitude pattern m is the exact magnitude num / den, in units of 2^-149, rounded to nearest with ties to even:
the infinity exactly from 2^128 − 2^103 up; below that a nearest finite magnitude, the even one of two equally near. -/
def correctlyRounded (num den m : Nat) : Prop :=
  (m = infMag ↔ (2 ^ 277 - 2 ^ 252) * den ≤ num) ∧ m ≤ infMag ∧
  (m < infMag → ∀ m', m' < infMag →
    distance num (unitsOfMag m * den) ≤ distance num (unitsOfMag m' * den) ∧
    (m' ≠ m → distance num (unitsOfMag m * den) = distance num (unitsOfMag m' * den) → m % 2 = 0))

/-- The pattern r is the exact sum z, in units of 2^-149, with the sign of z and its magnitude correctly rounded; for
z = 0 it is −0.0 if `negZero`, else +0.0. -/
def roundedSum (z : Int) (negZero : Prop) (r : F32) : Prop :=
  (z ≠ 0 → signOf r = decide (z < 0) ∧ correctlyRounded z.natAbs 1 (magOf r)) ∧
  (z = 0 → negZero → r = 0x80000000#32) ∧ (z = 0 → ¬negZero → r = 0x00000000#32)

/-- The pattern r has the sign of a product or a quotient of a and b: negative exactly if one of them is. -/
def signOfProduct (a b r : F32) : Prop := signOf r = (signOf a != signOf b)

/-! ### Runs of ticks -/

/-- The voice after one polyBLEP tick; the same voice where the tick is unspecified. -/
def blepTicked (x : Voice) : Voice :=
  match tickBlep x with
  | some t => t.voice
  | none => x

/-- The voice after k successive polyBLEP ticks (R211). -/
def afterTicks : Nat → Voice → Voice
  | 0, x => x
  | k + 1, x => blepTicked (afterTicks k x)

/-- The sample that the voice gives at its k-th successive polyBLEP tick, k from 0 (R211). -/
def sampleAt (k : Nat) (x : Voice) : F32 :=
  match tickBlep (afterTicks k x) with
  | some t => t.sample
  | none => zeroF

/-- The sum, over the enabled voices in increasing order, of their samples at the k-th tick, from +0.0 (R206, R211). -/
def mixAt (k : Nat) (voices : List Voice) : F32 :=
  (voices.filter fun x => x.en).foldl (fun acc x => add32 acc (sampleAt k x)) zeroF

/-- The voices after k frames: every enabled one ticked k times, every other one as it was (R206, R215). -/
def voicesAfter (k : Nat) (voices : List Voice) : List Voice :=
  voices.map fun x => if x.en then afterTicks k x else x

/-! ### Runs of polls -/

/-- The states after each of a sequence of CTL_POLL commands, one level mask each. -/
def pollStates : List (BitVec 32) → State → List State
  | [], _ => []
  | m :: ms, s =>
    match exec (.ctlPoll m) s with
    | .next t => t :: pollStates ms t
    | .fault _ => []
    | .refused _ => []

/-- What EVENT of switch i holds after each poll of a run. -/
def eventsOf (i : Nat) (ts : List State) : List (Option ClickEvent) :=
  ts.map fun t => (t.switches[i]?).map Switch.event

/-- How often an event stands in a run's list of events. -/
def eventCount (e : ClickEvent) (es : List (Option ClickEvent)) : Nat := es.countP fun x => decide (x = some e)

end Sys2Proof.Machine
end

