-- ==== Sys2Proof/Certificates/Slice0/Obligations.lean ====
section
/-! DEFINITION. What is to be proved of the block. Each statement's docstring names the rules of spec/ it comes from. -/

open Sys2Proof Sys2Proof.Machine

/-! ### Encoding -/

/-- R142, R93: decoding what was encoded gives the command back, from its word and from its bytes. -/
def Obligations.DecodeInvertsEncode : Prop :=
  ∀ (i : Instr) (rest : List Byte),
    decode (encode i) = .ok i ∧ decodeBytes (commandBytes (encode i) ++ rest) = .ok (i, rest)

/-- R122, R131, R135: a word that decodes is the encoding of what it decodes to, so no two words are one command and no
bit of a legal word is dropped. -/
def Obligations.EncodeInvertsDecode : Prop :=
  ∀ (w : Command) (i : Instr), decode w = .ok i → encode i = w

/-- R122, R135: the words that decode are those with an assigned opcode whose reserved fields, by the table of formats,
are zero. -/
def Obligations.DecodableWordsHaveZeroReservedFields : Prop :=
  ∀ w : Command, (∃ i, decode w = .ok i) ↔ (opOf w ∈ assignedOps ∧ reservedFieldsZero w)

/-- R93, R94: on a byte path byte i of a command word holds bits 8i + 7 : 8i, and the header's four bytes come before those
of DATA; byte i of the response word, of each word of a frame and of each OUT_BUF word holds bits 8i + 7 : 8i; each word
comes back from its bytes. On a 32-bit path the header is first and DATA second. -/
def Obligations.BytePathsAreLittleEndian : Prop :=
  (∀ (w : Command) (rest : List Byte),
    takeCommand (commandBytes w ++ rest) = some (w, rest) ∧ (commandBytes w).length = 8 ∧
    (∀ i, i < 8 → (commandBytes w)[i]? = some (w.extractLsb' (8 * i) 8)) ∧
    commandBytes w = wordBytes (commandHalves w).1 ++ wordBytes (commandHalves w).2 ∧
    commandOfHalves (commandHalves w).1 (commandHalves w).2 = w ∧
    (commandHalves w).1 = opOf w ++ idxOf w ++ immOf w ∧ (commandHalves w).2 = dataOf w) ∧
  (∀ (r : Response) (f : Frame) (rest : List Byte),
    takeWord (responseBytes r ++ rest) = some (r.word, rest) ∧ (responseBytes r).length = 4 ∧
    (∀ i, i < 4 → (responseBytes r)[i]? = some (r.word.extractLsb' (8 * i) 8)) ∧
    takeWord (frameBytes f ++ rest) = some (f.left, wordBytes f.right ++ rest) ∧ (frameBytes f).length = 8 ∧
    (∀ i, i < 4 → (frameBytes f)[i]? = some (f.left.extractLsb' (8 * i) 8) ∧
      (frameBytes f)[4 + i]? = some (f.right.extractLsb' (8 * i) 8))) ∧
  ∀ (s : State) (b ch : BitVec 1) (k i : Nat), i < 4 →
    byteAt s (4 * bufAddr s.capacity b k ch + i) = (bufWord s b k ch).extractLsb' (8 * i) 8

/-- R131 and the words of spec/95_test_vectors.md: words written out from the encoding decode to their commands. -/
def Obligations.SpecWordsDecode : Prop :=
  decode 0x43DC000010000000#64 = .ok (.oscSetFreq 0#8 0x43DC0000#32) ∧
  decode 0x0000000012010003#64 = .ok (.oscSetWave 1#8 .triangle) ∧
  decode 0x0000000020010002#64 = .ok (.audPeriod true 2#16) ∧
  decode 0x0000000130000000#64 = .ok (.ctlPoll 1#32) ∧
  decode 0x0000000042000003#64 = .ok (.indSetBlink 0#8 3#16) ∧
  decode 0x0000000074030002#64 = .ok (.rdBuf 1#1 1#1 2#16)

/-! ### Decode checks, ports, inputs -/

/-- R133: the unassigned OP values, and what a command with one of them does on either port (log entries 2
and 9 for the inputs and the port field). -/
def Obligations.UnassignedOpcodesAreIllegal : Prop :=
  (∀ op : BitVec 8, op ∉ assignedOps ↔
    (0x02 ≤ op.toNat ∧ op.toNat ≤ 0x0F) ∨ (0x16 ≤ op.toNat ∧ op.toNat ≤ 0x1F) ∨
    (0x21 ≤ op.toNat ∧ op.toNat ≤ 0x2F) ∨ (0x34 ≤ op.toNat ∧ op.toNat ≤ 0x3F) ∨
    (0x43 ≤ op.toNat ∧ op.toNat ≤ 0x6F) ∨ (0x75 ≤ op.toNat ∧ op.toNat ≤ 0xFF)) ∧
  ∀ (s : State) (p : Port) (w : Command) (rest : List Input),
    parametersOk s = true → s.inputs = .command p w :: rest → opOf w ∉ assignedOps →
    step s = .next (afterIllegal .unassignedOpcode { s with inputs := rest, port := p }) ∧
      illCauseCode .unassignedOpcode = 1#4

/-- R132, R49: the four checks run in the order opcode, port, reserved fields, range; the first that fails gives the
cause, by its code; a word that passes them all executes. The list of inputs and the port field are the model's (log
entries 2, 9). -/
def Obligations.DecodeChecksRunInOrder : Prop :=
  (∀ (s : State) (p : Port) (w : Command) (rest : List Input),
    parametersOk s = true → s.inputs = .command p w :: rest →
    (opOf w ∉ assignedOps →
      step s = .next (afterIllegal .unassignedOpcode { s with inputs := rest, port := p })) ∧
    (opOf w ∈ assignedOps → onWrongPort (opOf w) p →
      step s = .next (afterIllegal .wrongPort { s with inputs := rest, port := p })) ∧
    (opOf w ∈ assignedOps → ¬onWrongPort (opOf w) p → ¬reservedFieldsZero w →
      step s = .next (afterIllegal .reservedField { s with inputs := rest, port := p })) ∧
    (opOf w ∈ assignedOps → ¬onWrongPort (opOf w) p → reservedFieldsZero w →
      ∃ i, decode w = .ok i ∧
        (¬operandsInRange s i →
          step s = .next (afterIllegal .indexRange { s with inputs := rest, port := p })) ∧
        (operandsInRange s i → step s = exec i { s with inputs := rest, port := p }))) ∧
  illCauseCode .unassignedOpcode = 1#4 ∧ illCauseCode .wrongPort = 4#4 ∧ illCauseCode .reservedField = 2#4 ∧
  illCauseCode .indexRange = 3#4

/-- R134: each command on a port where it is not legal is an illegal command with cause WRONG_PORT, whatever its other
fields are; NOP is legal on both. -/
def Obligations.CommandsOnTheWrongPortAreIllegal : Prop :=
  (∀ (s : State) (p : Port) (w : Command) (rest : List Input),
    parametersOk s = true → s.inputs = .command p w :: rest → opOf w ∈ assignedOps → onWrongPort (opOf w) p →
    step s = .next (afterIllegal .wrongPort { s with inputs := rest, port := p })) ∧
  (∀ (s : State) (r : Bool) (n : BitVec 16), s.port = .cmd →
    exec (.audPeriod r n) s = .next (afterIllegal .wrongPort s)) ∧
  (∀ (s : State) (i : Instr), s.port = .aud → i ≠ .nop → (∀ r n, i ≠ .audPeriod r n) →
    exec i s = .next (afterIllegal .wrongPort s)) ∧
  (∀ s : State, exec .nop s = .next (answered 0#32 s)) ∧ illCauseCode .wrongPort = 4#4

/-- R136: on its port, a command with an index or register number out of range is an illegal command with cause
INDEX_RANGE; AUD_PERIOD has no range check, and on its port is never illegal. -/
def Obligations.OutOfRangeOperandsAreIllegal : Prop :=
  (∀ (s : State) (i : Instr), ¬onWrongPort (opcode i) s.port → ¬operandsInRange s i →
    exec i s = .next (afterIllegal .indexRange s)) ∧
  (∀ (s t : State) (r : Bool) (n : BitVec 16), s.port = .aud → exec (.audPeriod r n) s = .next t →
    t.ill = s.ill ∧ t.illCause = s.illCause) ∧ illCauseCode .indexRange = 3#4

/-- R96, R101, R132: a word that decodes runs as its command, with the port it came on and the later inputs still waiting. -/
def Obligations.StepRunsTheDecodedCommand : Prop :=
  ∀ (s : State) (p : Port) (w : Command) (rest : List Input) (i : Instr),
    parametersOk s = true → s.inputs = .command p w :: rest → decode w = .ok i →
    step s = exec i { s with inputs := rest, port := p }

/-- R101, R323 (log entry 2: the list of inputs is the model's): each step takes exactly one input, so the commands of a
port execute in the order in which it issues them; with no input the block holds its state unchanged. -/
def Obligations.InputsRunOneAtATime : Prop :=
  (∀ s t : State, step s = .next t → t.inputs = s.inputs.tail) ∧
  ∀ s : State, parametersOk s = true → s.inputs = [] → step s = .next s

/-- R9 to R11, R307: exactly the configurations outside the bounds are refused. -/
def Obligations.ConfigurationsOutOfBoundsAreRefused : Prop :=
  (∀ s : State, parametersOk s = true ↔
    (1 ≤ s.voices.length ∧ s.voices.length ≤ 256) ∧ (1 ≤ s.switches.length ∧ s.switches.length ≤ 32) ∧
    (1 ≤ s.indicators.length ∧ s.indicators.length ≤ 16) ∧ 1 ≤ s.capacity ∧ s.capacity ≤ 65535) ∧
  ∀ s : State, step s = .refused .configurationError ↔ parametersOk s = false

/-- 93_implementation_defined.md: every command has a defined effect, but for the ticks of U1 and U2, which fault. -/
def Obligations.EveryCommandCompletesOrFaultsOutOfDomain : Prop :=
  ∀ (i : Instr) (s : State),
    (∃ t, exec i s = .next t) ∨
    (exec i s = .fault .outOfDomain ∧
      ((∃ v, i = .oscTickBlep v) ∨ (∃ v, i = .oscTickNaive v) ∨ ∃ n, i = .audPeriod true n))

/-- R98: NOP, the SET commands, the RD_* commands and SYS_CLR_ERR are idempotent, in their legal and illegal forms. -/
def Obligations.SetAndReadCommandsAreIdempotent : Prop :=
  ∀ (i : Instr) (s t : State),
    (∀ m, i ≠ .ctlPoll m) → (∀ r n, i ≠ .audPeriod r n) → (∀ v, i ≠ .oscTickBlep v) → (∀ v, i ≠ .oscTickNaive v) →
    exec i s = .next t → exec i t = .next t

/-! ### Reset -/

/-- R340: what the reset input leaves in every register, in the buffer and on the indicator outputs. -/
def Obligations.ResetSetsEveryRegister : Prop :=
  ∀ (s : State) (rest : List Input), parametersOk s = true → s.inputs = .reset :: rest →
    ∃ t, step s = .next t ∧
      (t.voices = s.voices.map fun x =>
        { init := x.init, wave := x.init.wave, freq := x.init.freq, sr := x.init.sr,
          pinc := div32 (mul32 x.init.freq twoPiF) x.init.sr, phase := 0x00000000#32, last := 0x00000000#32,
          en := x.init.en }) ∧
      (t.switches = s.switches.map fun x =>
        { init := x.init, level := false, deb := false, cnt := 0#16, state := .idle, pressT := 0#32, event := .none,
          dw := x.init.dw, dcw := x.init.dcw, ht := x.init.ht }) ∧
      (t.indicators = s.indicators.map fun x =>
        { init := x.init, cur := 0x00000000#32, target := clamp01 x.init.target, step := clamp01 x.init.step,
          blink := x.init.blink, bcnt := 0#16, on := false }) ∧
      (∀ x ∈ t.indicators, indBright x = 0x00000000#32 ∧ indOn x = false) ∧
      (∀ b k ch, bufWord t b k ch = 0x00000000#32) ∧
      statusWord t = 0x00000000#32 ∧ outinfoWord t = 0x00000000#32 ∧
      t.underrunCnt = 0#32 ∧ t.blockCnt = 0#32 ∧ t.now = 0#32 ∧
      capsWord t = capsWord s ∧ blkcapWord t = blkcapWord s

/-- R340 with R60, R69, R67, R37, R36: reset establishes every invariant, whatever the start-up configuration, and
`State.reset`, the reset of the configuration the model chose (log entry 1), has them. -/
def Obligations.ResetMeetsTheInvariants : Prop :=
  (∀ c : StartUp, blockOk (State.ofStartUp c)) ∧ blockOk State.reset

/-! ### System commands and registers -/

/-- R280, R281: NOP changes nothing and SYS_CLR_ERR clears ILL and ILL_CAUSE and nothing else; both answer 0. -/
def Obligations.NopAndClearErrorComplete : Prop :=
  (∀ s : State, exec .nop s = .next (answered 0#32 s)) ∧
  ∀ s : State, s.port = .cmd →
    exec .sysClrErr s = .next (answered 0#32 { s with ill := false, illCause := .none })

/-- R284, R288: RD_SYS answers the register and RD_BUF the buffer word, and neither changes anything. -/
def Obligations.SystemAndBufferReadsAnswer : Prop :=
  ∀ s : State, s.port = .cmd →
    exec (.rdSys 0#16) s = .next (answered (capsWord s) s) ∧
    exec (.rdSys 1#16) s = .next (answered (blkcapWord s) s) ∧
    exec (.rdSys 2#16) s = .next (answered (statusWord s) s) ∧
    exec (.rdSys 3#16) s = .next (answered s.underrunCnt s) ∧
    exec (.rdSys 4#16) s = .next (answered s.blockCnt s) ∧
    exec (.rdSys 5#16) s = .next (answered s.now s) ∧
    exec (.rdSys 6#16) s = .next (answered (outinfoWord s) s) ∧
    ∀ (b ch : BitVec 1) (k : BitVec 16), k.toNat < s.capacity →
      exec (.rdBuf b ch k) s =
        .next (answered (memReadWord s.mem (b.toNat * (2 * s.capacity) + 2 * k.toNat + ch.toNat)) s)

/-- R285, R286, R287: RD_OSC, RD_SW and RD_IND answer the register, narrow ones zero-extended, and change nothing. WAVE,
STATE and EVENT read as the codes of R33, R56 and R58. -/
def Obligations.UnitReadsAnswer : Prop :=
  (∀ (s : State) (v : BitVec 8) (x : Voice), s.port = .cmd → s.voices[v.toNat]? = some x →
    exec (.rdOsc v 0#16) s = .next (answered ((waveCode x.wave).setWidth 32) s) ∧
    exec (.rdOsc v 1#16) s = .next (answered x.freq s) ∧
    exec (.rdOsc v 2#16) s = .next (answered x.sr s) ∧
    exec (.rdOsc v 3#16) s = .next (answered x.pinc s) ∧
    exec (.rdOsc v 4#16) s = .next (answered x.phase s) ∧
    exec (.rdOsc v 5#16) s = .next (answered x.last s) ∧
    exec (.rdOsc v 6#16) s = .next (answered (if x.en then 1#32 else 0#32) s)) ∧
  (∀ (s : State) (i : BitVec 8) (x : Switch), s.port = .cmd → s.switches[i.toNat]? = some x →
    exec (.rdSw i 0#16) s = .next (answered (if x.level then 1#32 else 0#32) s) ∧
    exec (.rdSw i 1#16) s = .next (answered (if x.deb then 1#32 else 0#32) s) ∧
    exec (.rdSw i 2#16) s = .next (answered (x.cnt.setWidth 32) s) ∧
    exec (.rdSw i 3#16) s = .next (answered ((clickStateCode x.state).setWidth 32) s) ∧
    exec (.rdSw i 4#16) s = .next (answered x.pressT s) ∧
    exec (.rdSw i 5#16) s = .next (answered ((clickEventCode x.event).setWidth 32) s) ∧
    exec (.rdSw i 6#16) s = .next (answered (x.dw.setWidth 32) s) ∧
    exec (.rdSw i 7#16) s = .next (answered (x.dcw.setWidth 32) s) ∧
    exec (.rdSw i 8#16) s = .next (answered (x.ht.setWidth 32) s)) ∧
  (∀ (s : State) (i : BitVec 8) (x : Indicator), s.port = .cmd → s.indicators[i.toNat]? = some x →
    exec (.rdInd i 0#16) s = .next (answered x.cur s) ∧
    exec (.rdInd i 1#16) s = .next (answered x.target s) ∧
    exec (.rdInd i 2#16) s = .next (answered x.step s) ∧
    exec (.rdInd i 3#16) s = .next (answered (x.blink.setWidth 32) s) ∧
    exec (.rdInd i 4#16) s = .next (answered (x.bcnt.setWidth 32) s) ∧
    exec (.rdInd i 5#16) s = .next (answered (if x.on then 1#32 else 0#32) s)) ∧
  (waveCode .sine = 0#2 ∧ waveCode .saw = 1#2 ∧ waveCode .square = 2#2 ∧ waveCode .triangle = 3#2) ∧
  (clickStateCode .idle = 0#3 ∧ clickStateCode .pressed = 1#3 ∧ clickStateCode .doubleClicked = 2#3 ∧
    clickStateCode .held = 3#3 ∧ clickStateCode .released = 4#3) ∧
  clickEventCode .none = 0#2 ∧ clickEventCode .click = 1#2 ∧ clickEventCode .doubleClick = 2#2 ∧
  clickEventCode .held = 3#2

/-- R43, R47, R49, R50: the fields of STATUS and OUTINFO, that every other bit reads as 0, and the codes of the causes. -/
def Obligations.StatusAndOutinfoLayout : Prop :=
  (∀ s : State,
    (statusWord s).getLsbD 0 = s.halted ∧ (statusWord s).getLsbD 1 = s.ill ∧
    (statusWord s).extractLsb' 2 2 = 0#2 ∧ (statusWord s).extractLsb' 4 4 = illCauseCode s.illCause ∧
    (statusWord s).extractLsb' 8 4 = haltCauseCode s.haltCause ∧ (statusWord s).extractLsb' 12 1 = s.wbank ∧
    (statusWord s).extractLsb' 13 19 = 0#19 ∧
    (outinfoWord s).extractLsb' 0 16 = s.outLen ∧ (outinfoWord s).extractLsb' 16 1 = s.lastBank ∧
    (outinfoWord s).extractLsb' 17 14 = 0#14 ∧ (outinfoWord s).getLsbD 31 = s.valid) ∧
  (illCauseCode .none = 0#4 ∧ illCauseCode .unassignedOpcode = 1#4 ∧ illCauseCode .reservedField = 2#4 ∧
    illCauseCode .indexRange = 3#4 ∧ illCauseCode .wrongPort = 4#4) ∧
  haltCauseCode .none = 0#4 ∧ haltCauseCode .capacityViolation = 1#4

/-- R51, R52, R345: the fields of CAPS and BLKCAP give the parameters, every other bit reads as 0, and no step, a reset
among them, changes either register or any parameter of the start-up configuration. -/
def Obligations.CapsAndBlkcapReportTheParameters : Prop :=
  (∀ s : State, parametersOk s = true →
    ((capsWord s).extractLsb' 0 8).toNat = s.voices.length - 1 ∧
    ((capsWord s).extractLsb' 8 5).toNat = s.switches.length - 1 ∧
    (capsWord s).extractLsb' 13 3 = 0#3 ∧
    ((capsWord s).extractLsb' 16 4).toNat = s.indicators.length - 1 ∧
    (capsWord s).extractLsb' 20 11 = 0#11 ∧ ((capsWord s).getLsbD 31 = true ↔ s.build = .debug) ∧
    ((blkcapWord s).extractLsb' 0 16).toNat = s.capacity ∧ (blkcapWord s).extractLsb' 16 16 = 0#16) ∧
  (∀ s : State, s.port = .cmd →
    exec (.rdSys 0#16) s = .next (answered (capsWord s) s) ∧
    exec (.rdSys 1#16) s = .next (answered (blkcapWord s) s)) ∧
  ∀ s t : State, step s = .next t →
    startUpOf t = startUpOf s ∧ capsWord t = capsWord s ∧ blkcapWord t = blkcapWord s

/-! ### Numbers -/

/-- R20: add32, sub32, mul32 and div32 of finite operands are the exact sum, difference, product and quotient, correctly
signed, rounded once to nearest with ties to even (magnitudes in units of 2^-149); a zero sum is −0.0 only of two negative
terms. The limit 2^128 − 2^103 from which a result overflows, the signs of zeros, the quotient of a finite number by zero
and the results with an infinite operand are those of IEEE 754, which R20 names: log entry 16 (PRESUMED). -/
def Obligations.RoundingIsToNearestEven : Prop :=
  (∀ num den : Nat, 0 < den → correctlyRounded num den (roundMag num den)) ∧
  (∀ a b : F32, magOf a < infMag → magOf b < infMag →
    roundedSum (signedUnits a + signedUnits b) (signOf a = true ∧ signOf b = true) (add32 a b) ∧
    roundedSum (signedUnits a - signedUnits b) (signOf a = true ∧ signOf b = false) (sub32 a b) ∧
    signOfProduct a b (mul32 a b) ∧ correctlyRounded (unitsOf a * unitsOf b) (2 ^ 149) (magOf (mul32 a b)) ∧
    (magOf b ≠ 0 →
      signOfProduct a b (div32 a b) ∧ correctlyRounded (unitsOf a * 2 ^ 149) (unitsOf b) (magOf (div32 a b))) ∧
    (magOf b = 0 → magOf a ≠ 0 → signOfProduct a b (div32 a b) ∧ magOf (div32 a b) = infMag)) ∧
  (∀ a b : F32, isInf a = true → magOf b < infMag →
    add32 a b = a ∧ add32 b a = a ∧ sub32 a b = a ∧
    (signOf (sub32 b a) = !signOf a) ∧ magOf (sub32 b a) = infMag ∧
    signOfProduct a b (div32 a b) ∧ magOf (div32 a b) = infMag ∧
    signOfProduct b a (div32 b a) ∧ magOf (div32 b a) = 0) ∧
  (∀ a b : F32, isInf a = true → isNaN b = false → magOf b ≠ 0 →
    signOfProduct a b (mul32 a b) ∧ magOf (mul32 a b) = infMag ∧
    signOfProduct b a (mul32 b a) ∧ magOf (mul32 b a) = infMag) ∧
  ∀ a b : F32, isInf a = true → isInf b = true →
    (signOf a = signOf b → add32 a b = a) ∧ (signOf a ≠ signOf b → sub32 a b = a)

/-- R22: the comparisons order finite values as numbers, put each infinity beyond them, are false on a NaN, and take the
two zeros as equal; abs32 clears the sign bit; min32 and max32 choose by lt32 and gt32. -/
def Obligations.ComparisonsOrderTheValues : Prop :=
  (∀ a b : F32, magOf a < infMag → magOf b < infMag →
    (lt32 a b = true ↔ signedUnits a < signedUnits b) ∧ (gt32 a b = true ↔ signedUnits b < signedUnits a) ∧
    (ge32 a b = true ↔ signedUnits b ≤ signedUnits a)) ∧
  (∀ b : F32, isNaN b = false →
    (lt32 b 0x7F800000#32 = true ↔ b ≠ 0x7F800000#32) ∧ lt32 0x7F800000#32 b = false ∧
    (lt32 0xFF800000#32 b = true ↔ b ≠ 0xFF800000#32) ∧ lt32 b 0xFF800000#32 = false) ∧
  (∀ a b : F32, isNaN a = false → isNaN b = false → gt32 a b = lt32 b a ∧ ge32 a b = !lt32 a b) ∧
  (∀ a b : F32, isNaN a = true ∨ isNaN b = true → lt32 a b = false ∧ gt32 a b = false ∧ ge32 a b = false) ∧
  ge32 0x80000000#32 0x00000000#32 = true ∧ lt32 0x80000000#32 0x00000000#32 = false ∧
  ∀ a b : F32,
    signOf (abs32 a) = false ∧ (abs32 a).extractLsb' 0 31 = a.extractLsb' 0 31 ∧
    min32 a b = (if lt32 b a = true then b else a) ∧ max32 a b = (if gt32 b a = true then b else a)

/-- R21: an operation with a NaN operand, and one whose result has no value (∞ − ∞, 0 · ∞, 0 / 0, ∞ / ∞), gives the
canonical NaN and no operation another NaN; a NaN that a command writes is stored with its bits unchanged. -/
def Obligations.NanResultsAreCanonical : Prop :=
  (∀ a b : F32, isNaN a = true ∨ isNaN b = true →
    add32 a b = 0x7FC00000#32 ∧ sub32 a b = 0x7FC00000#32 ∧ mul32 a b = 0x7FC00000#32 ∧ div32 a b = 0x7FC00000#32) ∧
  (∀ a b : F32, isInf a = true → isInf b = true →
    (signOf a ≠ signOf b → add32 a b = 0x7FC00000#32) ∧ (signOf a = signOf b → sub32 a b = 0x7FC00000#32) ∧
    div32 a b = 0x7FC00000#32) ∧
  (∀ a b : F32, isInf a = true → magOf b = 0 → mul32 a b = 0x7FC00000#32 ∧ mul32 b a = 0x7FC00000#32) ∧
  (∀ a b : F32, magOf a = 0 → magOf b = 0 → div32 a b = 0x7FC00000#32) ∧
  (∀ a b : F32,
    (isNaN (add32 a b) = true → add32 a b = 0x7FC00000#32) ∧ (isNaN (sub32 a b) = true → sub32 a b = 0x7FC00000#32) ∧
    (isNaN (mul32 a b) = true → mul32 a b = 0x7FC00000#32) ∧ (isNaN (div32 a b) = true → div32 a b = 0x7FC00000#32)) ∧
  ∀ (s : State) (v : BitVec 8) (f : F32), s.port = .cmd → v.toNat < s.voices.length → isNaN f = true →
    ∃ t x y, exec (.oscSetFreq v f) s = .next t ∧ t.voices[v.toNat]? = some x ∧ x.freq = f ∧
      ∃ u, exec (.oscSetSr v f) s = .next u ∧ u.voices[v.toNat]? = some y ∧ y.sr = f

/-! ### Oscillator -/

/-- R170 to R173, R151: each OSC SET command writes its register, the first two PINC with it, and nothing else, halted or
not: PHASE and LAST keep their values, and PINC in OSC_SET_WAVE and OSC_SET_EN. -/
def Obligations.VoiceWritesComplete : Prop :=
  ∀ (s : State) (v : BitVec 8) (x : Voice) (f : F32) (w : Wave) (e : Bool),
    s.port = .cmd → s.voices[v.toNat]? = some x →
    exec (.oscSetFreq v f) s =
      .next (answered 0#32
        { s with voices := s.voices.set v.toNat { x with freq := f, pinc := div32 (mul32 f twoPiF) x.sr } }) ∧
    exec (.oscSetSr v f) s =
      .next (answered 0#32
        { s with voices := s.voices.set v.toNat { x with sr := f, pinc := div32 (mul32 x.freq twoPiF) f } }) ∧
    exec (.oscSetWave v w) s = .next (answered 0#32 { s with voices := s.voices.set v.toNat { x with wave := w } }) ∧
    exec (.oscSetEn v e) s = .next (answered 0#32 { s with voices := s.voices.set v.toNat { x with en := e } })

/-- R152: OSC_SET_FREQ then OSC_SET_SR, or the reverse, leaves one state, with PINC = div32(mul32(f, TWO_PI_F), sr). -/
def Obligations.FrequencyAndRateOrderIsIrrelevant : Prop :=
  ∀ (s : State) (v : BitVec 8) (f sr : F32), s.port = .cmd → v.toNat < s.voices.length →
    ∃ s1 s2 t x,
      exec (.oscSetFreq v f) s = .next s1 ∧ exec (.oscSetSr v sr) s1 = .next t ∧
      exec (.oscSetSr v sr) s = .next s2 ∧ exec (.oscSetFreq v f) s2 = .next t ∧
      t.voices[v.toNat]? = some x ∧ x.freq = f ∧ x.sr = sr ∧ x.pinc = div32 (mul32 f twoPiF) sr

/-- R175, R176, R162, R163, R38: in domain, OSC_TICK_BLEP answers the sample, advances PHASE, and writes LAST for a Triangle
voice only; OSC_TICK_NAIVE answers the naive sample and advances PHASE; neither changes anything else. The ticks of the
audio pipeline are the same (`tickBlep`). The samples are those of R155 to R159, R161 and R164 to R166, blep that of R160 with
its guard and its three branches in order, the phase advance that of R153 (cut after two subtractions, log entry 10), and
the constants those of R23.
That a NaN of SINE_FN leaves as 0x7FC00000 is log entry 4 (DEDUCED). -/
def Obligations.TicksComplete : Prop :=
  (∀ (s : State) (v : BitVec 8) (x : Voice),
    s.port = .cmd → s.voices[v.toNat]? = some x → s.halted = false → inOperatingDomain x →
    exec (.oscTickBlep v) s =
      .next (answered (canonical (blepSample x))
        { s with
          voices :=
            s.voices.set v.toNat
              { x with
                phase := nextPhase x.phase x.pinc
                last := if x.wave = .triangle then blepSample x else x.last } }) ∧
    exec (.oscTickNaive v) s =
      .next (answered (canonical (naiveSample x))
        { s with voices := s.voices.set v.toNat { x with phase := nextPhase x.phase x.pinc } })) ∧
  (∀ x : Voice, inOperatingDomain x →
    tickBlep x = some
      { sample := canonical (blepSample x)
        voice :=
          { x with
            phase := nextPhase x.phase x.pinc
            last := if x.wave = .triangle then blepSample x else x.last } } ∧
    tickNaive x = some
      { sample := canonical (naiveSample x), voice := { x with phase := nextPhase x.phase x.pinc } }) ∧
  (twoPiF = 0x40C90FDB#32 ∧ piF = 0x40490FDB#32) ∧
  (∀ y : F32, canonical y = if isNaN y = true then 0x7FC00000#32 else y) ∧
  (∀ phase pinc p q : F32, p = add32 phase pinc → q = sub32 p 0x40C90FDB#32 →
    nextPhase phase pinc =
      if ge32 p 0x40C90FDB#32 = true then (if ge32 q 0x40C90FDB#32 = true then sub32 q 0x40C90FDB#32 else q) else p) ∧
  (∀ t dt x y : F32, x = div32 t dt → y = div32 (sub32 t 0x3F800000#32) dt →
    blep t dt =
      if gt32 dt 0x00000000#32 = false then 0x00000000#32
      else if lt32 t dt = true then sub32 (sub32 (add32 x x) (mul32 x x)) 0x3F800000#32
      else if gt32 t (sub32 0x3F800000#32 dt) = true then add32 (add32 (add32 (mul32 y y) y) y) 0x3F800000#32
      else 0x00000000#32) ∧
  ∀ (x : Voice) (t dt h t2 saw sq0 sq : F32),
    t = div32 x.phase 0x40C90FDB#32 → dt = div32 x.pinc 0x40C90FDB#32 →
    h = add32 t 0x3F000000#32 → t2 = (if ge32 h 0x3F800000#32 = true then sub32 h 0x3F800000#32 else h) →
    saw = sub32 (mul32 0x40000000#32 t) 0x3F800000#32 →
    sq0 = (if lt32 x.phase 0x40490FDB#32 = true then 0x3F800000#32 else 0xBF800000#32) →
    sq = sub32 (add32 sq0 (blep t dt)) (blep t2 dt) →
    (x.wave = .sine → naiveSample x = Config.sineFn x.phase ∧ blepSample x = Config.sineFn x.phase) ∧
    (x.wave = .saw → naiveSample x = saw ∧ blepSample x = sub32 saw (blep t dt)) ∧
    (x.wave = .square → naiveSample x = sq0 ∧ blepSample x = sq) ∧
    (x.wave = .triangle →
      naiveSample x = mul32 0x40000000#32 (sub32 (abs32 saw) 0x3F000000#32) ∧
      blepSample x = add32 (mul32 x.pinc sq) (mul32 (sub32 0x3F800000#32 x.pinc) x.last))

/-- R174: while HALTED = 1 the two tick commands have no effect and answer 0. -/
def Obligations.HaltedTicksDoNothing : Prop :=
  ∀ (s : State) (v : BitVec 8), s.port = .cmd → v.toNat < s.voices.length → s.halted = true →
    exec (.oscTickBlep v) s = .next (answered 0#32 s) ∧ exec (.oscTickNaive v) s = .next (answered 0#32 s)

/-- R177, R306: a tick command faults exactly when it would tick a voice out of domain. -/
def Obligations.TickFaultsExactlyOutOfDomain : Prop :=
  ∀ (s : State) (v : BitVec 8),
    (exec (.oscTickBlep v) s = .fault .outOfDomain ↔
      s.port = .cmd ∧ s.halted = false ∧ ∃ x, s.voices[v.toNat]? = some x ∧ ¬inOperatingDomain x) ∧
    (exec (.oscTickNaive v) s = .fault .outOfDomain ↔
      s.port = .cmd ∧ s.halted = false ∧ ∃ x, s.voices[v.toNat]? = some x ∧ ¬inOperatingDomain x)

/-- R153, R154: for a voice in domain whose PHASE is not −0.0, the loop of the phase advance has ended after two
iterations, and PHASE is in [0, TWO_PI_F) again and not −0.0. -/
def Obligations.PhaseAdvanceStaysInTheCycle : Prop :=
  ∀ x : Voice, inOperatingDomain x → x.phase ≠ 0x80000000#32 →
    (∀ n, wrapPhase (2 + n) (add32 x.phase x.pinc) = nextPhase x.phase x.pinc) ∧
    ge32 (nextPhase x.phase x.pinc) zeroF = true ∧ lt32 (nextPhase x.phase x.pinc) twoPiF = true ∧
    nextPhase x.phase x.pinc ≠ 0x80000000#32

/-- R37, R154, R36, R151: every step, of whatever kind, keeps every PHASE in [0, TWO_PI_F), not −0.0, and every PINC the
increment of its FREQ and SR. -/
def Obligations.StepsKeepPhaseAndIncrement : Prop :=
  ∀ s t : State, (∀ x ∈ s.voices, phaseOk x ∧ pincOk x) → step s = .next t → ∀ x ∈ t.voices, phaseOk x ∧ pincOk x

/-- R167: with PINC = +0.0 or −0.0 every polyBLEP tick leaves PHASE as it is and gives the sample that the first gave; a
naive tick before or after any of them gives the naive sample of the voice at the start and changes nothing. -/
def Obligations.ZeroIncrementRepeatsTheSample : Prop :=
  ∀ (x : Voice) (k : Nat), phaseOk x → magOf x.pinc = 0 →
    (∃ a, tickBlep (afterTicks k x) = some a ∧ a.sample = sampleAt 0 x ∧ a.voice = afterTicks (k + 1) x ∧
      a.voice.phase = x.phase ∧ a.voice.pinc = x.pinc ∧ a.voice.wave = x.wave) ∧
    ∃ b, tickNaive (afterTicks k x) = some b ∧ b.sample = canonical (naiveSample x) ∧ b.voice = afterTicks k x

/-- R168: in domain, the naive Saw, Square and Triangle samples lie in [−1, 1], and so does the polyBLEP Saw sample for
0 < PINC < PI_F. -/
def Obligations.NaiveAndSawSamplesStayInTheUnitRange : Prop :=
  (∀ (x : Voice) (t : Ticked), x.wave ≠ .sine → tickNaive x = some t → inSignedUnit t.sample) ∧
  ∀ (x : Voice) (t : Ticked), x.wave = .saw → gt32 x.pinc zeroF = true → lt32 x.pinc piF = true →
    tickBlep x = some t → inSignedUnit t.sample

/-- R168, V23: the polyBLEP Square reaches 2.0 at the phase just below PI_F, so [−1.5, 1.5] does not bound it. -/
def Obligations.SquareTickReachesTwo : Prop :=
  ∃ (x : Voice) (t : Ticked), x.wave = .square ∧ x.phase = 0x40490FDA#32 ∧
    x.pinc = div32 (mul32 0x453B8000#32 twoPiF) 0x473B8000#32 ∧ inOperatingDomain x ∧
    tickBlep x = some t ∧ t.sample = 0x40000000#32

/-! ### Audio pipeline -/

/-- R202: while HALTED = 1, AUD_PERIOD answers 2 and changes no state. -/
def Obligations.HaltedPeriodDoesNothing : Prop :=
  ∀ (s : State) (r : Bool) (n : BitVec 16), s.port = .aud → s.halted = true →
    exec (.audPeriod r n) s = .next (answered 2#32 s)

/-- R203, R301: a period with READY = 0 counts an underrun mod 2^32, answers 1 and changes nothing else, whatever n is. -/
def Obligations.UnderrunOnlyCounts : Prop :=
  ∀ (s : State) (n : BitVec 16), s.port = .aud → s.halted = false →
    exec (.audPeriod false n) s = .next (answered 1#32 { s with underrunCnt := s.underrunCnt + 1#32 })

/-- R209: a period of 0 frames ticks nothing, writes nothing and submits an empty block. -/
def Obligations.EmptyPeriodSubmitsAnEmptyBlock : Prop :=
  ∀ s : State, s.port = .aud → s.halted = false →
    exec (.audPeriod true 0#16) s = .next
      { s with
        valid := true
        lastBank := s.wbank
        outLen := 0#16
        wbank := 1#1 - s.wbank
        blockCnt := s.blockCnt + 1#32
        out :=
          { resp := some { port := .aud, word := 0#32 }
            submit := some { bank := s.wbank, len := 0#16 }
            frame := none } }

/-- R205 to R207, R210, R211, R208 (RELEASE): a period that no capacity violation ends completes: every frame is the sum
over the enabled voices of their k-th successive ticks from the start, the voices have been ticked n times, the block of
min(n, C) frames is submitted, and nothing else changes. -/
def Obligations.ReadyPeriodSubmitsTheMixedBlock : Prop :=
  ∀ (s : State) (n : BitVec 16),
    s.port = .aud → s.halted = false → Memory.wf s.mem → enabledInDomain s →
    (n.toNat ≤ s.capacity ∨ s.build = .release) →
    ∃ t, exec (.audPeriod true n) s = .next t ∧
      (∀ k ch, k < min n.toNat s.capacity → bufWord t s.wbank k ch = mixAt k s.voices) ∧
      (∀ a, a < 4 * bufAddr s.capacity s.wbank 0 0#1 ∨
          4 * bufAddr s.capacity s.wbank 0 0#1 + 8 * min n.toNat s.capacity ≤ a → byteAt t a = byteAt s a) ∧
      t = { s with
            voices := voicesAfter n.toNat s.voices
            mem := t.mem
            valid := true
            lastBank := s.wbank
            outLen := BitVec.ofNat 16 (min n.toNat s.capacity)
            wbank := 1#1 - s.wbank
            blockCnt := s.blockCnt + 1#32
            out :=
              { resp := some { port := .aud, word := 0#32 }
                submit := some { bank := s.wbank, len := BitVec.ofNat 16 (min n.toNat s.capacity) }
                frame := none } }

/-- R208, R303, R310: in DEBUG a period of more than C frames halts the block after the ticks of frame C: the C frames
before are written, the voices have been ticked C + 1 times, RESP = 3, no block is submitted, nothing else changes. -/
def Obligations.CapacityViolationHaltsADebugBlock : Prop :=
  ∀ (s : State) (n : BitVec 16),
    s.port = .aud → s.halted = false → Memory.wf s.mem → enabledInDomain s →
    s.build = .debug → s.capacity < n.toNat →
    ∃ t, exec (.audPeriod true n) s = .next t ∧
      (∀ k ch, k < s.capacity → bufWord t s.wbank k ch = mixAt k s.voices) ∧
      (∀ a, a < 4 * bufAddr s.capacity s.wbank 0 0#1 ∨
          4 * bufAddr s.capacity s.wbank 0 0#1 + 8 * s.capacity ≤ a → byteAt t a = byteAt s a) ∧
      t = { s with
            voices := voicesAfter (s.capacity + 1) s.voices
            mem := t.mem
            halted := true
            haltCause := .capacityViolation
            out := { resp := some { port := .aud, word := 3#32 }, submit := none, frame := none } }

/-- R200, R177, U2: a period faults exactly when it would tick an enabled voice that is out of domain. -/
def Obligations.PeriodFaultsExactlyOutOfDomain : Prop :=
  ∀ (s : State) (r : Bool) (n : BitVec 16),
    exec (.audPeriod r n) s = .fault .outOfDomain ↔
      s.port = .aud ∧ s.halted = false ∧ r = true ∧ 0 < n.toNat ∧ ¬enabledInDomain s

/-- R215: a voice with EN = 0 is the same after an AUD_PERIOD as before it. -/
def Obligations.DisabledVoicesKeepTheirPhase : Prop :=
  ∀ (s t : State) (r : Bool) (n : BitVec 16) (v : Nat) (x : Voice),
    exec (.audPeriod r n) s = .next t → s.voices[v]? = some x → x.en = false → t.voices[v]? = some x

/-- R41, R207, R108, R61: an AUD_PERIOD, however it ends, leaves every byte of the other bank, and of the frames from
min(n, C) on, as it was; no other command writes the buffer. -/
def Obligations.PeriodsWriteOnlyTheirOwnFrames : Prop :=
  (∀ (s t : State) (r : Bool) (n : BitVec 16), exec (.audPeriod r n) s = .next t →
    ∀ a, a < 4 * bufAddr s.capacity s.wbank 0 0#1 ∨
        4 * bufAddr s.capacity s.wbank 0 0#1 + 8 * min n.toNat s.capacity ≤ a → byteAt t a = byteAt s a) ∧
  ∀ (i : Instr) (s t : State), (∀ r n, i ≠ .audPeriod r n) → exec i s = .next t → ∀ a, byteAt t a = byteAt s a

/-- R40: PHASE and LAST change only by ticks, and a tick or a period changes no WAVE, FREQ, SR, PINC or EN. -/
def Obligations.VoiceFieldsHaveOneOwner : Prop :=
  ∀ (i : Instr) (s t : State), exec i s = .next t →
    ((∀ r n, i ≠ .audPeriod r n) → (∀ v, i ≠ .oscTickBlep v) → (∀ v, i ≠ .oscTickNaive v) →
      t.voices.map Voice.phase = s.voices.map Voice.phase ∧ t.voices.map Voice.last = s.voices.map Voice.last) ∧
    (((∃ r n, i = .audPeriod r n) ∨ (∃ v, i = .oscTickBlep v) ∨ ∃ v, i = .oscTickNaive v) →
      t.voices.map Voice.wave = s.voices.map Voice.wave ∧ t.voices.map Voice.freq = s.voices.map Voice.freq ∧
      t.voices.map Voice.sr = s.voices.map Voice.sr ∧ t.voices.map Voice.pinc = s.voices.map Voice.pinc ∧
      t.voices.map Voice.en = s.voices.map Voice.en)

/-- R48, R311, R312: only reset ends the halt, and no command of a halted block ticks a voice, writes the buffer, counts
or submits. -/
def Obligations.OnlyResetEndsTheHalt : Prop :=
  (∀ s t : State, s.halted = true → (∀ rest, s.inputs ≠ .reset :: rest) → step s = .next t →
    t.halted = true ∧ t.haltCause = s.haltCause) ∧
  ∀ (i : Instr) (s t : State), s.halted = true → exec i s = .next t →
    t.halted = true ∧ t.haltCause = s.haltCause ∧ (∀ a, byteAt t a = byteAt s a) ∧
    t.voices.map Voice.phase = s.voices.map Voice.phase ∧ t.voices.map Voice.last = s.voices.map Voice.last ∧
    t.wbank = s.wbank ∧ t.valid = s.valid ∧ t.lastBank = s.lastBank ∧ t.outLen = s.outLen ∧
    t.blockCnt = s.blockCnt ∧ t.underrunCnt = s.underrunCnt ∧ t.out.submit = none

/-- R44, R45, R46: each counter moves only by its own command, by one, mod 2^32. -/
def Obligations.CountersMoveOnlyByTheirCommands : Prop :=
  ∀ (i : Instr) (s t : State), exec i s = .next t →
    (t.now = s.now ∨ ((∃ m, i = .ctlPoll m) ∧ t.now = s.now + 1#32)) ∧
    (t.underrunCnt = s.underrunCnt ∨ ((∃ n, i = .audPeriod false n) ∧ t.underrunCnt = s.underrunCnt + 1#32)) ∧
    (t.blockCnt = s.blockCnt ∨ ((∃ n, i = .audPeriod true n) ∧ t.blockCnt = s.blockCnt + 1#32))

/-- R108, R109, U6: the transfer collaborator reads a frame of the last submitted block, and nothing changes but the
frame put out; any other read is refused. -/
def Obligations.CollaboratorReadsTheSubmittedBlock : Prop :=
  ∀ (s : State) (b : BitVec 1) (k : BitVec 16) (rest : List Input),
    parametersOk s = true → s.inputs = .transferRead b k :: rest →
    (s.valid = true ∧ b = s.lastBank ∧ k.toNat < s.outLen.toNat →
      step s = .next { s with
        inputs := rest
        out :=
          { resp := none
            submit := none
            frame := some { left := bufWord s b k.toNat 0#1, right := bufWord s b k.toNat 1#1 } } }) ∧
    (¬(s.valid = true ∧ b = s.lastBank ∧ k.toNat < s.outLen.toNat) → step s = .refused .collaboratorDuty)

/-- R91, R41: every step keeps the memory canonical and inside the 4C words of the buffer space. -/
def Obligations.StepsKeepTheMemoryCanonical : Prop :=
  ∀ s t : State, memoryOk s → step s = .next t → memoryOk t

/-- R48, R49, R50, R108, R343: every step keeps the error record and the handoff consistent. -/
def Obligations.StepsKeepRecordAndHandoff : Prop :=
  ∀ s t : State, recordOk s → handoffOk s → step s = .next t → recordOk t ∧ handoffOk t

/-! ### Switches and indicators -/

/-- R230, R231, R232: a poll, halted or not, steps every switch with its own level bit and the same NOW, then every
indicator, counts NOW, answers exactly the switches that emitted an event, and changes nothing else. -/
def Obligations.PollCompletes : Prop :=
  ∀ (s : State) (m : BitVec 32), s.port = .cmd →
    ∃ (mask : BitVec 32) (t : State), exec (.ctlPoll m) s = .next t ∧
      t = answered mask { s with
            switches := s.switches.mapIdx fun i x => switchStep (m.getLsbD i) s.now x
            indicators := s.indicators.map indicatorStep
            now := s.now + 1#32 } ∧
      ∀ i, i < 32 → (mask.getLsbD i = true ↔ ∃ y, t.switches[i]? = some y ∧ y.event ≠ .none)

/-- R233 to R242: the debounce step, and the transition table of R235, row by row. -/
def Obligations.SwitchStepFollowsTheTransitionTable : Prop :=
  ∀ (raw : Bool) (now : BitVec 32) (x y : Switch) (accepted : Prop) (el : Nat),
    (accepted ↔ raw ≠ x.deb ∧ max x.dw.toNat 1 ≤ min (x.cnt.toNat + 1) 65535) →
    el = (now - x.pressT).toNat → y = switchStep raw now x →
    (y.level = raw ∧ y.dw = x.dw ∧ y.dcw = x.dcw ∧ y.ht = x.ht ∧ y.init = x.init) ∧
    (accepted → y.deb = raw ∧ y.cnt = 0#16) ∧
    (raw = x.deb → y.deb = x.deb ∧ y.cnt = 0#16) ∧
    (raw ≠ x.deb → ¬accepted → y.deb = x.deb ∧ y.cnt.toNat = min (x.cnt.toNat + 1) 65535) ∧
    (x.state = .idle → accepted → raw = true → y.state = .pressed ∧ y.pressT = now ∧ y.event = .none) ∧
    (x.state = .released → accepted → raw = true → el < x.dcw.toNat →
      y.state = .doubleClicked ∧ y.pressT = now ∧ y.event = .doubleClick) ∧
    (x.state = .released → accepted → raw = true → x.dcw.toNat ≤ el →
      y.state = .pressed ∧ y.pressT = now ∧ y.event = .click) ∧
    (x.state = .pressed → accepted → raw = false → el < x.dcw.toNat →
      y.state = .released ∧ y.pressT = x.pressT ∧ y.event = .none) ∧
    (x.state = .pressed → accepted → raw = false → x.dcw.toNat ≤ el →
      y.state = .idle ∧ y.pressT = x.pressT ∧ y.event = .none) ∧
    (x.state = .doubleClicked ∨ x.state = .held → accepted → raw = false →
      y.state = .idle ∧ y.pressT = x.pressT ∧ y.event = .none) ∧
    (x.state = .pressed ∨ x.state = .doubleClicked → ¬accepted → x.ht.toNat ≤ el →
      y.state = .held ∧ y.pressT = x.pressT ∧ y.event = .held) ∧
    (x.state = .released → ¬accepted → x.dcw.toNat ≤ el →
      y.state = .idle ∧ y.pressT = x.pressT ∧ y.event = .click) ∧
    (x.state = .idle ∨ x.state = .held ∨ (x.state = .released ∧ el < x.dcw.toNat) ∨
        ((x.state = .pressed ∨ x.state = .doubleClicked) ∧ el < x.ht.toNat) → ¬accepted →
      y.state = x.state ∧ y.pressT = x.pressT ∧ y.event = .none)

/-- R60: DEB agrees with STATE after reset, whatever the configuration, and every step, a poll among them, keeps it so. -/
def Obligations.StepsKeepTheSwitchInvariant : Prop :=
  (∀ c : StartUp, ∀ x ∈ (State.ofStartUp c).switches, switchOk x) ∧
  ∀ s t : State, (∀ x ∈ s.switches, switchOk x) → step s = .next t → ∀ x ∈ t.switches, switchOk x

/-- R234: a level change is accepted at the max(DW, 1)-th consecutive poll at which the raw level differs, and not before. -/
def Obligations.DebounceAcceptsAtTheWindow : Prop :=
  ∀ (s : State) (i : Nat) (x : Switch) (raw : Bool) (ms : List (BitVec 32)),
    s.port = .cmd → s.switches[i]? = some x → x.cnt = 0#16 → raw ≠ x.deb →
    (∀ m ∈ ms, m.getLsbD i = raw) → ms.length = max x.dw.toNat 1 →
    ∀ j, j < ms.length → ∃ t y, (pollStates ms s)[j]? = some t ∧ t.switches[i]? = some y ∧
      (j + 1 < ms.length → y.deb = x.deb ∧ y.cnt.toNat = j + 1) ∧
      (j + 1 = ms.length → y.deb = raw ∧ y.cnt = 0#16)

/-- R244, R245 (c): one continuous press that lasts at least HT polls past its accepted edge, and the release after it,
emit exactly one HELD and no CLICK or DOUBLE_CLICK; with HT = 0 it lasts at least one poll past the edge, the first at
which HELD can be emitted. -/
def Obligations.ContinuousPressEmitsOneHeld : Prop :=
  ∀ (s : State) (i : Nat) (x : Switch) (press release : List (BitVec 32)),
    s.port = .cmd → s.switches[i]? = some x → x.state = .idle → x.deb = false → x.cnt = 0#16 →
    (∀ m ∈ press, m.getLsbD i = true) → (∀ m ∈ release, m.getLsbD i = false) →
    max x.dw.toNat 1 + max x.ht.toNat 1 ≤ press.length →
    eventCount .held (eventsOf i (pollStates (press ++ release) s)) = 1 ∧
    eventCount .click (eventsOf i (pollStates (press ++ release) s)) = 0 ∧
    eventCount .doubleClick (eventsOf i (pollStates (press ++ release) s)) = 0

/-- R243: two presses without bounce, each held for the debounce window and shorter than HT, the second accepted less than
DCW polls after the first, emit exactly one DOUBLE_CLICK, no HELD and no CLICK. -/
def Obligations.TwoShortPressesEmitOneDoubleClick : Prop :=
  ∀ (s : State) (i : Nat) (x : Switch) (press1 gap press2 release : List (BitVec 32)),
    s.port = .cmd → s.switches[i]? = some x → x.state = .idle → x.deb = false → x.cnt = 0#16 →
    (∀ m ∈ press1 ++ press2, m.getLsbD i = true) → (∀ m ∈ gap ++ release, m.getLsbD i = false) →
    max x.dw.toNat 1 ≤ press1.length → max x.dw.toNat 1 ≤ gap.length → max x.dw.toNat 1 ≤ press2.length →
    press1.length < x.ht.toNat → press2.length < x.ht.toNat → press1.length + gap.length < x.dcw.toNat →
    eventCount .doubleClick (eventsOf i (pollStates (press1 ++ gap ++ press2 ++ release) s)) = 1 ∧
    eventCount .held (eventsOf i (pollStates (press1 ++ gap ++ press2 ++ release) s)) = 0 ∧
    eventCount .click (eventsOf i (pollStates (press1 ++ gap ++ press2 ++ release) s)) = 0

/-- R270, R271, R272: SW_SET_DW, SW_SET_DCW and SW_SET_HT write the threshold and nothing else. -/
def Obligations.ThresholdWritesComplete : Prop :=
  ∀ (s : State) (i : BitVec 8) (x : Switch) (n : BitVec 16), s.port = .cmd → s.switches[i.toNat]? = some x →
    exec (.swSetDw i n) s =
      .next (answered 0#32 { s with switches := s.switches.set i.toNat { x with dw := n } }) ∧
    exec (.swSetDcw i n) s =
      .next (answered 0#32 { s with switches := s.switches.set i.toNat { x with dcw := n } }) ∧
    exec (.swSetHt i n) s =
      .next (answered 0#32 { s with switches := s.switches.set i.toNat { x with ht := n } })

/-- R264, R265, R266: the indicator commands write the clamped target, the clamped step, or the blink period with BCNT = 0,
and nothing else. -/
def Obligations.IndicatorWritesComplete : Prop :=
  ∀ (s : State) (i : BitVec 8) (x : Indicator) (v : F32) (p : BitVec 16),
    s.port = .cmd → s.indicators[i.toNat]? = some x →
    exec (.indSetTarget i v) s =
      .next (answered 0#32 { s with indicators := s.indicators.set i.toNat { x with target := clamp01 v } }) ∧
    exec (.indSetStep i v) s =
      .next (answered 0#32 { s with indicators := s.indicators.set i.toNat { x with step := clamp01 v } }) ∧
    exec (.indSetBlink i p) s =
      .next (answered 0#32 { s with indicators := s.indicators.set i.toNat { x with blink := p, bcnt := 0#16 } })

/-- R263: clamp01, case by case, and that its result is in [0, 1], never a NaN and never −0.0. -/
def Obligations.ClampLandsInTheUnitInterval : Prop :=
  ∀ x : F32,
    (isNaN x = true ∨ magOf x = 0 ∨ lt32 x zeroF = true → clamp01 x = 0x00000000#32) ∧
    (gt32 x oneF = true → clamp01 x = 0x3F800000#32) ∧
    (gt32 x zeroF = true → ge32 oneF x = true → clamp01 x = x) ∧
    inUnit (clamp01 x) ∧ isNaN (clamp01 x) = false ∧ clamp01 x ≠ 0x80000000#32

/-- R69, R67: CUR, TARGET and STEP are in [0, 1] and BCNT below its bound after reset, whatever the configuration, and every
step keeps them so. -/
def Obligations.StepsKeepTheIndicatorInvariant : Prop :=
  (∀ c : StartUp, ∀ x ∈ (State.ofStartUp c).indicators, indicatorOk x ∧ blinkOk x) ∧
  ∀ s t : State, (∀ x ∈ s.indicators, indicatorOk x ∧ blinkOk x) → step s = .next t →
    ∀ x ∈ t.indicators, indicatorOk x ∧ blinkOk x

/-- R260, R267: a poll moves CUR by STEP toward TARGET and never past it, and leaves it where it equals TARGET. -/
def Obligations.BrightnessNeverOvershoots : Prop :=
  ∀ (s : State) (m : BitVec 32) (i : Nat) (x : Indicator), s.port = .cmd → s.indicators[i]? = some x → indicatorOk x →
    ∃ t y, exec (.ctlPoll m) s = .next t ∧ t.indicators[i]? = some y ∧
      (lt32 x.cur x.target = true →
        y.cur = min32 (add32 x.cur x.step) x.target ∧ ge32 y.cur x.cur = true ∧ ge32 x.target y.cur = true) ∧
      (gt32 x.cur x.target = true →
        y.cur = max32 (sub32 x.cur x.step) x.target ∧ ge32 x.cur y.cur = true ∧ ge32 y.cur x.target = true) ∧
      (lt32 x.cur x.target = false → gt32 x.cur x.target = false → y.cur = x.cur) ∧
      indBright y = y.cur ∧ y.target = x.target ∧ y.step = x.step

/-- R261: with BLINK = p > 0 the polls repeat with period p from any BCNT below p: counted from the start of the cycle, ON
for p − floor(p/2) polls, then off, BCNT counting; with BLINK = 0, ON is 1 and BCNT 0 after every poll. -/
def Obligations.BlinkFollowsItsSchedule : Prop :=
  ∀ (s : State) (i : Nat) (x : Indicator) (ms : List (BitVec 32)), s.port = .cmd → s.indicators[i]? = some x →
    ∀ j, j < ms.length → ∃ t y, (pollStates ms s)[j]? = some t ∧ t.indicators[i]? = some y ∧
      indOn y = y.on ∧
      (x.blink = 0#16 → y.on = true ∧ y.bcnt = 0#16) ∧
      (x.bcnt.toNat < x.blink.toNat →
        (y.on = true ↔ (x.bcnt.toNat + j) % x.blink.toNat < x.blink.toNat - x.blink.toNat / 2) ∧
        y.bcnt.toNat = (x.bcnt.toNat + j + 1) % x.blink.toNat)
end

