-- ==== Sys2Proof/Laws/Codec.lean ====
section
/-! SUPPORT. The fields of a command word built from fields (R121), the bytes of a word (R93), and the codes of the waveforms (R33). -/

namespace Sys2Proof

@[simp] theorem dataOf_mkCommand (data : BitVec 32) (op idx : BitVec 8) (imm : BitVec 16) :
    dataOf (mkCommand data op idx imm) = data := by
  apply BitVec.eq_of_getLsbD_eq
  intro i hi
  unfold dataOf mkCommand
  rw [BitVec.getLsbD_extractLsb', BitVec.getLsbD_append, BitVec.getLsbD_append, BitVec.getLsbD_append]
  simp only [hi, decide_true, Bool.true_and]
  rw [if_neg (by omega), if_neg (by omega), if_neg (by omega)]
  congr 1
  omega

@[simp] theorem opOf_mkCommand (data : BitVec 32) (op idx : BitVec 8) (imm : BitVec 16) :
    opOf (mkCommand data op idx imm) = op := by
  apply BitVec.eq_of_getLsbD_eq
  intro i hi
  unfold opOf mkCommand
  rw [BitVec.getLsbD_extractLsb', BitVec.getLsbD_append, BitVec.getLsbD_append, BitVec.getLsbD_append]
  simp only [hi, decide_true, Bool.true_and]
  rw [if_neg (by omega), if_neg (by omega), if_pos (by omega)]
  congr 1
  omega

@[simp] theorem idxOf_mkCommand (data : BitVec 32) (op idx : BitVec 8) (imm : BitVec 16) :
    idxOf (mkCommand data op idx imm) = idx := by
  apply BitVec.eq_of_getLsbD_eq
  intro i hi
  unfold idxOf mkCommand
  rw [BitVec.getLsbD_extractLsb', BitVec.getLsbD_append, BitVec.getLsbD_append, BitVec.getLsbD_append]
  simp only [hi, decide_true, Bool.true_and]
  rw [if_neg (by omega), if_pos (by omega)]
  congr 1
  omega

@[simp] theorem immOf_mkCommand (data : BitVec 32) (op idx : BitVec 8) (imm : BitVec 16) :
    immOf (mkCommand data op idx imm) = imm := by
  apply BitVec.eq_of_getLsbD_eq
  intro i hi
  unfold immOf mkCommand
  rw [BitVec.getLsbD_extractLsb', BitVec.getLsbD_append]
  simp only [hi, decide_true, Bool.true_and]
  rw [if_pos (by omega)]
  congr 1
  omega

/-- A word is its four fields (R120). -/
theorem mkCommand_fields (w : Command) : mkCommand (dataOf w) (opOf w) (idxOf w) (immOf w) = w := by
  apply BitVec.eq_of_getLsbD_eq
  intro i hi
  unfold mkCommand dataOf opOf idxOf immOf
  rw [BitVec.getLsbD_append, BitVec.getLsbD_append, BitVec.getLsbD_append]
  simp only [BitVec.getLsbD_extractLsb']
  split
  · simp_all
  · split
    · simp only [show i - 16 < 8 by omega, decide_true, Bool.true_and]; congr 1; omega
    · split
      · simp only [show i - 16 - 8 < 8 by omega, decide_true, Bool.true_and]; congr 1; omega
      · simp only [show i - 16 - 8 - 8 < 32 by omega, decide_true, Bool.true_and]; congr 1; omega

/-- Bit i of a word built from fields. -/
theorem getLsbD_mkCommand (data : BitVec 32) (op idx : BitVec 8) (imm : BitVec 16) (i : Nat) :
    (mkCommand data op idx imm).getLsbD i =
      if i < 16 then imm.getLsbD i
      else if i - 16 < 8 then idx.getLsbD (i - 16)
      else if i - 16 - 8 < 8 then op.getLsbD (i - 16 - 8)
      else data.getLsbD (i - 16 - 8 - 8) := by
  unfold mkCommand
  rw [BitVec.getLsbD_append, BitVec.getLsbD_append, BitVec.getLsbD_append]

@[simp] theorem length_wordBytes (w : Word) : (wordBytes w).length = 4 := rfl

/-- The bytes of a word are those of no other word (R93). -/
theorem wordBytes_inj {v w : Word} (h : wordBytes v = wordBytes w) : v = w := by
  unfold wordBytes at h
  simp only [List.cons.injEq, and_true] at h
  obtain ⟨h0, h1, h2, h3⟩ := h
  apply BitVec.eq_of_getLsbD_eq
  intro i hi
  have bit (k : Nat) (h : v.extractLsb' k 8 = w.extractLsb' k 8) (lo : k ≤ i) (up : i < k + 8) :
      v.getLsbD i = w.getLsbD i := by
    have e := congrArg (fun b => b.getLsbD (i - k)) h
    simpa [BitVec.getLsbD_extractLsb', show i - k < 8 by omega, show k + (i - k) = i by omega] using e
  rcases (by omega : i < 8 ∨ (8 ≤ i ∧ i < 16) ∨ (16 ≤ i ∧ i < 24) ∨ 24 ≤ i) with c | c | c | c
  · exact bit 0 h0 (by omega) (by omega)
  · exact bit 8 h1 (by omega) (by omega)
  · exact bit 16 h2 (by omega) (by omega)
  · exact bit 24 h3 (by omega) (by omega)

@[simp] theorem waveOfCode_waveCode (w : Wave) : waveOfCode (waveCode w) = w := by cases w <;> rfl

@[simp] theorem waveCode_waveOfCode (c : BitVec 2) : waveCode (waveOfCode c) = c := by revert c; decide

end Sys2Proof
end

