-- ==== Sys2Proof/Laws/Rounding.lean ====
section
/-! SUPPORT. The laws of rounding (R20): it is monotone, it gives a representable magnitude back, and so it never passes a
representable magnitude. Magnitudes are in units of 2^-149. -/

namespace Sys2Proof.Machine

/-! ### Rounding to a whole number -/

theorem div_le_roundDiv (num den : Nat) : num / den ≤ roundDiv num den := by
  unfold roundDiv
  dsimp only
  split
  · omega
  · split
    · omega
    · split <;> omega

theorem roundDiv_le_div_add_one (num den : Nat) : roundDiv num den ≤ num / den + 1 := by
  unfold roundDiv
  dsimp only
  split
  · omega
  · split
    · omega
    · split <;> omega

/-- A whole number rounds to itself. -/
theorem roundDiv_mul_right (q : Nat) {den : Nat} (h : 0 < den) : roundDiv (q * den) den = q := by
  unfold roundDiv
  simp [Nat.mul_div_cancel _ h, h]

/-- Rounding to a whole number is monotone. -/
theorem roundDiv_mono {a b : Nat} (den : Nat) (hab : a ≤ b) : roundDiv a den ≤ roundDiv b den := by
  rcases Nat.lt_or_ge (a / den) (b / den) with h | h
  · exact Nat.le_trans (roundDiv_le_div_add_one a den) (Nat.le_trans h (div_le_roundDiv b den))
  · have hq : a / den = b / den := Nat.le_antisymm (Nat.div_le_div_right hab) h
    have ha := Nat.div_add_mod a den
    have hb := Nat.div_add_mod b den
    rw [← hq] at hb
    have hr : a % den ≤ b % den := by omega
    unfold roundDiv
    dsimp only
    rw [← hq]
    split <;> split <;> (try split) <;> (try split) <;> (try split) <;> omega

/-- The rounded number is within half of the exact one. -/
theorem roundDiv_near (num : Nat) {den : Nat} (h : 0 < den) :
    2 * num ≤ 2 * (roundDiv num den * den) + den ∧ 2 * (roundDiv num den * den) ≤ 2 * num + den := by
  have hn := Nat.div_add_mod num den
  have hm := Nat.mod_lt num h
  have hc : den * (num / den) = num / den * den := Nat.mul_comm _ _
  unfold roundDiv
  dsimp only
  split
  · omega
  · split
    · rw [Nat.add_mul]; omega
    · split
      · omega
      · rw [Nat.add_mul]; omega

/-- A tie goes to the even number. -/
theorem roundDiv_tie {num den : Nat} (h : 0 < den)
    (ht : 2 * num = 2 * (roundDiv num den * den) + den ∨ 2 * (roundDiv num den * den) = 2 * num + den) :
    roundDiv num den % 2 = 0 := by
  have hn := Nat.div_add_mod num den
  have hm := Nat.mod_lt num h
  have hc : den * (num / den) = num / den * den := Nat.mul_comm _ _
  revert ht
  unfold roundDiv
  dsimp only
  split
  · intro ht; omega
  · split
    · rw [Nat.add_mul]; intro ht; omega
    · split
      · intro _; assumption
      · intro _; omega

/-! ### Rounding to a magnitude -/

theorem shiftFor_eq_zero {num den : Nat} (h : num / den < 2 ^ 24) : shiftFor num den = 0 := by
  unfold shiftFor
  rcases Nat.eq_zero_or_pos (num / den) with h0 | h0
  · rw [h0]; simp
  · have := (Nat.log2_lt (by omega)).2 h
    omega

/-- Above the lowest exponents, the shift leaves 24 bits of the whole part. -/
theorem shiftFor_spec {num den : Nat} (h : 2 ^ 24 ≤ num / den) :
    2 ^ (shiftFor num den + 23) ≤ num / den ∧ num / den < 2 ^ (shiftFor num den + 24) ∧ 0 < shiftFor num den := by
  have h0 : num / den ≠ 0 := by omega
  have h1 : 24 ≤ Nat.log2 (num / den) := (Nat.le_log2 h0).2 h
  have e1 : shiftFor num den + 23 = Nat.log2 (num / den) := by unfold shiftFor; omega
  have e2 : shiftFor num den + 24 = Nat.log2 (num / den) + 1 := by unfold shiftFor; omega
  rw [e1, e2]
  exact ⟨Nat.log2_self_le h0, Nat.lt_log2_self, by unfold shiftFor; omega⟩

theorem shiftFor_mono {a b : Nat} (den : Nat) (h : a ≤ b) : shiftFor a den ≤ shiftFor b den := by
  rcases Nat.lt_or_ge (a / den) (2 ^ 24) with ha | ha
  · rw [shiftFor_eq_zero ha]; omega
  · have hq : a / den ≤ b / den := Nat.div_le_div_right h
    have hb : 2 ^ 24 ≤ b / den := Nat.le_trans ha hq
    have sa := shiftFor_spec ha
    have sb := shiftFor_spec hb
    have hlt : 2 ^ (shiftFor a den + 23) < 2 ^ (shiftFor b den + 24) :=
      Nat.lt_of_le_of_lt (Nat.le_trans sa.1 hq) sb.2.1
    have := (Nat.pow_lt_pow_iff_right (by omega : 1 < 2)).1 hlt
    omega

/-- The rounded significand has at most 24 bits, or is 2^24. -/
theorem significand_le (num den : Nat) : roundDiv num (den * 2 ^ shiftFor num den) ≤ 2 ^ 24 := by
  have h1 := roundDiv_le_div_add_one num (den * 2 ^ shiftFor num den)
  rw [← Nat.div_div_eq_div_mul] at h1
  have h2 : num / den / 2 ^ shiftFor num den < 2 ^ 24 := by
    rcases Nat.lt_or_ge (num / den) (2 ^ 24) with h | h
    · rw [shiftFor_eq_zero h]; simpa using h
    · rw [Nat.div_lt_iff_lt_mul (Nat.two_pow_pos _), ← Nat.pow_add, Nat.add_comm]
      exact (shiftFor_spec h).2.1
  omega

/-- Above the lowest exponents the rounded significand has 24 bits. -/
theorem le_significand {num den : Nat} (h : 0 < shiftFor num den) :
    2 ^ 23 ≤ roundDiv num (den * 2 ^ shiftFor num den) := by
  have hq : 2 ^ 24 ≤ num / den := by
    by_contra hlt
    rw [shiftFor_eq_zero (by omega)] at h
    omega
  refine Nat.le_trans ?_ (div_le_roundDiv _ _)
  rw [← Nat.div_div_eq_div_mul, Nat.le_div_iff_mul_le (Nat.two_pow_pos _), ← Nat.pow_add, Nat.add_comm]
  exact (shiftFor_spec hq).1

theorem roundMag_le_infMag (num den : Nat) : roundMag num den ≤ infMag := by
  unfold roundMag
  dsimp only
  split <;> omega

/-- The pattern before the limit of infinity. -/
theorem roundMag_eq_min (num den : Nat) :
    roundMag num den =
      min (shiftFor num den * 2 ^ 23 + roundDiv num (den * 2 ^ shiftFor num den)) infMag := by
  unfold roundMag
  dsimp only
  split <;> omega

/-- Rounding is monotone. -/
theorem roundMag_mono {a b : Nat} (den : Nat) (h : a ≤ b) : roundMag a den ≤ roundMag b den := by
  have key : shiftFor a den * 2 ^ 23 + roundDiv a (den * 2 ^ shiftFor a den) ≤
      shiftFor b den * 2 ^ 23 + roundDiv b (den * 2 ^ shiftFor b den) := by
    rcases Nat.lt_or_ge (shiftFor a den) (shiftFor b den) with hs | hs
    · have h1 := significand_le a den
      have h2 := le_significand (num := b) (den := den) (by omega)
      have h3 : (shiftFor a den + 1) * 2 ^ 23 ≤ shiftFor b den * 2 ^ 23 := Nat.mul_le_mul_right _ hs
      omega
    · have he : shiftFor a den = shiftFor b den := Nat.le_antisymm (shiftFor_mono den h) hs
      rw [he]
      have := roundDiv_mono (den * 2 ^ shiftFor b den) h
      omega
  rw [roundMag_eq_min, roundMag_eq_min]
  omega

/-- The magnitude of a significand at an exponent. -/
theorem unitsOfMag_shift (sh q : Nat) (hq : q ≤ 2 ^ 24) (h : sh = 0 ∨ 2 ^ 23 ≤ q) :
    unitsOfMag (sh * 2 ^ 23 + q) = q * 2 ^ sh := by
  unfold unitsOfMag
  rcases Nat.lt_or_ge q (2 ^ 23) with h1 | h1
  · have hs : sh = 0 := by omega
    subst hs
    rw [if_pos (by omega)]
    simp
    omega
  · rcases Nat.lt_or_ge q (2 ^ 24) with h2 | h2
    · have hd : (sh * 2 ^ 23 + q) / 2 ^ 23 = sh + 1 := by omega
      have hm : (sh * 2 ^ 23 + q) % 2 ^ 23 = q - 2 ^ 23 := by omega
      rw [hd, hm, if_neg (by omega), show 2 ^ 23 + (q - 2 ^ 23) = q by omega, Nat.add_sub_cancel]
    · have hq' : q = 2 ^ 24 := by omega
      have hd : (sh * 2 ^ 23 + q) / 2 ^ 23 = sh + 2 := by omega
      have hm : (sh * 2 ^ 23 + q) % 2 ^ 23 = 0 := by omega
      rw [hd, hm, if_neg (by omega), show sh + 2 - 1 = 1 + sh by omega, Nat.pow_add, hq', ← Nat.mul_assoc]
      rfl

/-- Every finite magnitude is a significand at an exponent. -/
theorem exists_shift (m : Nat) :
    ∃ sh q, m = sh * 2 ^ 23 + q ∧ q < 2 ^ 24 ∧ (sh = 0 ∨ 2 ^ 23 ≤ q) := by
  rcases Nat.lt_or_ge m (2 ^ 24) with h | h
  · exact ⟨0, m, by omega, h, .inl rfl⟩
  · exact ⟨m / 2 ^ 23 - 1, m % 2 ^ 23 + 2 ^ 23, by omega, by omega, .inr (by omega)⟩

/-- A representable magnitude rounds to itself. -/
theorem roundMag_units {m den : Nat} (hm : m < infMag) (hd : 0 < den) : roundMag (unitsOfMag m * den) den = m := by
  obtain ⟨sh, q, rfl, hq, hs⟩ := exists_shift m
  have hu := unitsOfMag_shift sh q (by omega) hs
  have hsh : shiftFor (q * 2 ^ sh * den) den = sh := by
    rcases hs with rfl | hs
    · exact shiftFor_eq_zero (by rw [Nat.mul_div_cancel _ hd]; simpa using hq)
    · unfold shiftFor
      rw [Nat.mul_div_cancel _ hd]
      have hlog : Nat.log2 (q * 2 ^ sh) = sh + 23 := by
        have hq0 : q * 2 ^ sh ≠ 0 := Nat.mul_ne_zero (by omega) (Nat.two_pow_pos _).ne'
        apply Nat.le_antisymm
        · have : q * 2 ^ sh < 2 ^ (sh + 24) := by
            rw [Nat.pow_add, Nat.mul_comm (2 ^ sh)]
            exact Nat.mul_lt_mul_of_pos_right hq (Nat.two_pow_pos _)
          have := (Nat.log2_lt hq0).2 this
          omega
        · rw [Nat.le_log2 hq0, Nat.pow_add, Nat.mul_comm (2 ^ sh)]
          exact Nat.mul_le_mul_right _ hs
      omega
  rw [hu, roundMag_eq_min, hsh, show q * 2 ^ sh * den = q * (den * 2 ^ sh) by
    rw [Nat.mul_assoc, Nat.mul_comm (2 ^ sh)], roundDiv_mul_right _ (Nat.mul_pos hd (Nat.two_pow_pos _))]
  omega

/-- Rounding does not pass a representable magnitude from below. -/
theorem roundMag_le_of_le {num den m : Nat} (hm : m < infMag) (hd : 0 < den) (h : num ≤ unitsOfMag m * den) :
    roundMag num den ≤ m :=
  Nat.le_trans (roundMag_mono den h) (Nat.le_of_eq (roundMag_units hm hd))

/-- Rounding does not pass a representable magnitude from above. -/
theorem le_roundMag_of_le {num den m : Nat} (hm : m < infMag) (hd : 0 < den) (h : unitsOfMag m * den ≤ num) :
    m ≤ roundMag num den :=
  Nat.le_trans (Nat.le_of_eq (roundMag_units hm hd).symm) (roundMag_mono den h)

/-- Magnitudes are ordered as their patterns are. -/
theorem unitsOfMag_lt {m m' : Nat} (hm' : m' < infMag) (h : m < m') : unitsOfMag m < unitsOfMag m' := by
  by_contra hle
  have h1 := roundMag_le_of_le (num := unitsOfMag m' * 1) (den := 1) (m := m) (by omega) (by omega) (by omega)
  rw [roundMag_units hm' (by omega)] at h1
  omega

/-- Magnitudes are ordered as their patterns are. -/
theorem unitsOfMag_le {m m' : Nat} (hm' : m' < infMag) (h : m ≤ m') : unitsOfMag m ≤ unitsOfMag m' := by
  rcases Nat.lt_or_ge m m' with h1 | h1
  · exact Nat.le_of_lt (unitsOfMag_lt hm' h1)
  · rw [Nat.le_antisymm h h1]

@[simp] theorem unitsOfMag_zero : unitsOfMag 0 = 0 := by decide

@[simp] theorem roundMag_zero (den : Nat) : roundMag 0 den = 0 := by
  simp [roundMag, shiftFor, roundDiv, infMag, Nat.log2_zero]

end Sys2Proof.Machine
end

