-- ==== Sys2Proof/Laws/Float.lean ====
section
/-! SUPPORT. What the binary32 operations of R20 to R22 answer, in terms of sign and magnitude; the provers cite these
instead of unfolding the operations. -/

namespace Sys2Proof.Machine

/-! ### Sign and magnitude -/

theorem magOf_lt (x : F32) : magOf x < 2 ^ 31 := Nat.mod_lt _ (by omega)

theorem signOf_eq (x : F32) : signOf x = decide (2 ^ 31 ≤ x.toNat) := by
  unfold signOf
  rw [BitVec.getLsbD, Nat.testBit_eq_decide_div_mod_eq]
  have := x.isLt
  congr 1
  simp only [eq_iff_iff]
  omega

theorem toNat_packF (neg : Bool) {m : Nat} (h : m < 2 ^ 31) :
    (packF neg m).toNat = (if neg then 2 ^ 31 else 0) + m := by
  unfold packF
  rw [BitVec.toNat_append, Nat.shiftLeft_eq, BitVec.toNat_ofNat, Nat.mod_eq_of_lt h, Nat.mul_comm,
    ← Nat.two_pow_add_eq_or_of_lt h]
  cases neg <;> rfl

@[simp] theorem signOf_packF (neg : Bool) {m : Nat} (h : m < 2 ^ 31) : signOf (packF neg m) = neg := by
  rw [signOf_eq, toNat_packF neg h]
  cases neg
  · simpa using h
  · simp

@[simp] theorem magOf_packF (neg : Bool) {m : Nat} (h : m < 2 ^ 31) : magOf (packF neg m) = m := by
  unfold magOf
  rw [toNat_packF neg h]
  cases neg <;> simp <;> omega

/-- A pattern is its sign and its magnitude. -/
theorem packF_signOf_magOf (x : F32) : packF (signOf x) (magOf x) = x := by
  apply BitVec.eq_of_toNat_eq
  rw [toNat_packF _ (magOf_lt x), signOf_eq]
  have := x.isLt
  unfold magOf
  simp only [decide_eq_true_eq]
  split <;> omega

/-- Two patterns with one sign and one magnitude are equal. -/
theorem f32_ext {x y : F32} (hs : signOf x = signOf y) (hm : magOf x = magOf y) : x = y := by
  rw [← packF_signOf_magOf x, ← packF_signOf_magOf y, hs, hm]

theorem infMag_lt : infMag < 2 ^ 31 := by decide

theorem roundMag_lt (num den : Nat) : roundMag num den < 2 ^ 31 :=
  Nat.lt_of_le_of_lt (roundMag_le_infMag num den) infMag_lt

@[simp] theorem signOf_packF_roundMag (neg : Bool) (num den : Nat) : signOf (packF neg (roundMag num den)) = neg :=
  signOf_packF neg (roundMag_lt num den)

@[simp] theorem magOf_packF_roundMag (neg : Bool) (num den : Nat) :
    magOf (packF neg (roundMag num den)) = roundMag num den :=
  magOf_packF neg (roundMag_lt num den)

theorem isNaN_eq_false {x : F32} (h : magOf x ≤ infMag) : isNaN x = false := by
  simp only [isNaN, decide_eq_false_iff_not]
  omega

theorem isInf_eq_false {x : F32} (h : magOf x < infMag) : isInf x = false := by
  simp only [isInf, decide_eq_false_iff_not]
  omega

@[simp] theorem magOf_negF (x : F32) : magOf (negF x) = magOf x := magOf_packF _ (magOf_lt x)
@[simp] theorem signOf_negF (x : F32) : signOf (negF x) = !signOf x := signOf_packF _ (magOf_lt x)
@[simp] theorem magOf_abs32 (x : F32) : magOf (abs32 x) = magOf x := magOf_packF _ (magOf_lt x)
@[simp] theorem signOf_abs32 (x : F32) : signOf (abs32 x) = false := signOf_packF _ (magOf_lt x)
@[simp] theorem isNaN_negF (x : F32) : isNaN (negF x) = isNaN x := by simp [isNaN]
@[simp] theorem isInf_negF (x : F32) : isInf (negF x) = isInf x := by simp [isInf]
@[simp] theorem unitsOf_negF (x : F32) : unitsOf (negF x) = unitsOf x := by simp [unitsOf]
@[simp] theorem signedUnits_negF (x : F32) : signedUnits (negF x) = -signedUnits x := by
  unfold signedUnits
  rw [signOf_negF, unitsOf_negF]
  cases signOf x <;> simp

/-! ### Results of the operations -/

/-- The sum of two finite values. -/
theorem add32_finite {a b : F32} (ha : magOf a < infMag) (hb : magOf b < infMag) :
    add32 a b = packSum (signOf a && signOf b) (signedUnits a + signedUnits b) := by
  simp [add32, isNaN_eq_false (Nat.le_of_lt ha), isNaN_eq_false (Nat.le_of_lt hb), isInf_eq_false ha,
    isInf_eq_false hb]

theorem packSum_ofNat (n : Nat) : packSum false (n : Int) = packF false (roundMag n 1) := by
  unfold packSum
  rcases Nat.eq_zero_or_pos n with h | h
  · subst h
    simp
  · rw [if_neg (by omega), decide_eq_false (by omega), Int.natAbs_natCast]

/-- The sum of two finite values that are not negative. -/
theorem add32_nonneg {a b : F32} (sa : signOf a = false) (sb : signOf b = false) (ha : magOf a < infMag)
    (hb : magOf b < infMag) : add32 a b = packF false (roundMag (unitsOf a + unitsOf b) 1) := by
  rw [add32_finite ha hb, ← packSum_ofNat]
  simp [signedUnits, sa, sb]

/-- The difference of two finite values that are not negative, the second no greater. -/
theorem sub32_of_le {a b : F32} (sa : signOf a = false) (sb : signOf b = false) (ha : magOf a < infMag)
    (h : magOf b ≤ magOf a) : sub32 a b = packF false (roundMag (unitsOf a - unitsOf b) 1) := by
  have hu : unitsOf b ≤ unitsOf a := unitsOfMag_le ha h
  unfold sub32
  rw [add32_finite ha (by simp; omega), ← packSum_ofNat]
  rw [signedUnits_negF, signOf_negF]
  simp only [sa, sb, signedUnits, Bool.false_eq_true, if_false]
  rw [show (unitsOf a : Int) + -(unitsOf b : Int) = ((unitsOf a - unitsOf b : Nat) : Int) by omega]
  rfl

/-- The difference of two finite values that are not negative, the second greater. -/
theorem sub32_of_lt {a b : F32} (sa : signOf a = false) (sb : signOf b = false) (hb : magOf b < infMag)
    (h : magOf a < magOf b) : sub32 a b = packF true (roundMag (unitsOf b - unitsOf a) 1) := by
  have hu : unitsOf a < unitsOf b := unitsOfMag_lt hb h
  unfold sub32
  rw [add32_finite (by omega) (by simp; omega)]
  rw [signedUnits_negF]
  simp only [sa, sb, signedUnits, packSum]
  have h1 : ¬((unitsOf a : Int) + -(unitsOf b : Int) = 0) := by omega
  have h2 : ((unitsOf a : Int) + -(unitsOf b : Int)) < 0 := by omega
  have h3 : ((unitsOf a : Int) + -(unitsOf b : Int)).natAbs = unitsOf b - unitsOf a := by omega
  simp [h1, h2, h3]

/-- The product of two finite values. -/
theorem mul32_finite {a b : F32} (ha : magOf a < infMag) (hb : magOf b < infMag) :
    mul32 a b = packF (signOf a != signOf b) (roundMag (unitsOf a * unitsOf b) (2 ^ 149)) := by
  simp [mul32, isNaN_eq_false (Nat.le_of_lt ha), isNaN_eq_false (Nat.le_of_lt hb), isInf_eq_false ha,
    isInf_eq_false hb]

/-- The quotient of two finite values, the divisor not zero. -/
theorem div32_finite {a b : F32} (ha : magOf a < infMag) (hb : magOf b < infMag) (h0 : magOf b ≠ 0) :
    div32 a b = packF (signOf a != signOf b) (roundMag (unitsOf a * 2 ^ 149) (unitsOf b)) := by
  simp [div32, isNaN_eq_false (Nat.le_of_lt ha), isNaN_eq_false (Nat.le_of_lt hb), isInf_eq_false ha,
    isInf_eq_false hb, h0]

theorem canonicalNaN_isNaN : isNaN canonicalNaN = true := by decide

theorem magOf_packSum_le (neg : Bool) (z : Int) : magOf (packSum neg z) ≤ infMag := by
  unfold packSum
  split
  · simp
  · simp [roundMag_le_infMag]

/-- A sum of finite values is never a NaN. -/
theorem isNaN_add32_finite {a b : F32} (ha : magOf a < infMag) (hb : magOf b < infMag) :
    isNaN (add32 a b) = false := by
  rw [add32_finite ha hb]
  exact isNaN_eq_false (magOf_packSum_le _ _)

@[simp] theorem canonical_of_not_isNaN {x : F32} (h : isNaN x = false) : canonical x = x := by
  simp [canonical, h]

/-- The canonical form is never another NaN. -/
theorem canonical_isNaN (x : F32) (h : isNaN (canonical x) = true) : canonical x = canonicalNaN := by
  unfold canonical at *
  split <;> simp_all

/-! ### Comparisons -/

theorem orderOf_nonneg {x : F32} (h : signOf x = false) : orderOf x = magOf x := by simp [orderOf, h]

/-- Among values that are not negative, lt32 compares magnitudes. -/
theorem lt32_nonneg {a b : F32} (sa : signOf a = false) (sb : signOf b = false) (ha : magOf a ≤ infMag)
    (hb : magOf b ≤ infMag) : lt32 a b = decide (magOf a < magOf b) := by
  simp [lt32, ordered, isNaN_eq_false ha, isNaN_eq_false hb, orderOf_nonneg sa, orderOf_nonneg sb]

/-- Among values that are not negative, gt32 compares magnitudes. -/
theorem gt32_nonneg {a b : F32} (sa : signOf a = false) (sb : signOf b = false) (ha : magOf a ≤ infMag)
    (hb : magOf b ≤ infMag) : gt32 a b = decide (magOf b < magOf a) := by
  simp [gt32, ordered, isNaN_eq_false ha, isNaN_eq_false hb, orderOf_nonneg sa, orderOf_nonneg sb]

/-- Among values that are not negative, ge32 compares magnitudes. -/
theorem ge32_nonneg {a b : F32} (sa : signOf a = false) (sb : signOf b = false) (ha : magOf a ≤ infMag)
    (hb : magOf b ≤ infMag) : ge32 a b = decide (magOf b ≤ magOf a) := by
  simp [ge32, ordered, isNaN_eq_false ha, isNaN_eq_false hb, orderOf_nonneg sa, orderOf_nonneg sb]

/-- What being at least +0.0 says: not a NaN, and not negative or −0.0. -/
theorem ge32_zero_iff (x : F32) :
    ge32 x zeroF = true ↔ magOf x ≤ infMag ∧ (signOf x = false ∨ magOf x = 0) := by
  have hz : isNaN zeroF = false := by decide
  have ho : orderOf zeroF = 0 := by decide
  unfold ge32 ordered
  rw [hz, ho]
  cases hs : signOf x <;> simp [isNaN, orderOf, hs]

/-- What lying in [0, m] says, for a bound that is not negative. -/
theorem between_zero_iff {bound : F32} (hb : signOf bound = false) (hm : magOf bound < infMag) (x : F32) :
    (ge32 x zeroF = true ∧ lt32 x bound = true) ↔
      (signOf x = false ∧ magOf x < magOf bound) ∨ (signOf x = true ∧ magOf x = 0 ∧ 0 < magOf bound) := by
  rw [ge32_zero_iff]
  have hn : isNaN bound = false := isNaN_eq_false (by omega)
  unfold lt32 ordered
  rw [hn, orderOf_nonneg hb]
  cases hs : signOf x <;> simp [isNaN, orderOf, hs] <;> omega

end Sys2Proof.Machine
end

