-- ==== Sys2Proof/Laws/Memory.lean ====
section
/-! SUPPORT. The laws of memory: a read after a write, what a write leaves alone, and that every write keeps the canonical
form. -/

namespace Sys2Proof.Machine

/-! ### Bytes -/

/-- A byte below every listed address reads as an unlisted one. -/
theorem memReadByte_of_lt_all {m : List Host.Cell} {x : Nat} (h : ∀ c ∈ m, x < c.1) :
    memReadByte m x = unlistedByte := by
  induction m with
  | nil => rfl
  | cons c m ih =>
    obtain ⟨a, v⟩ := c
    have ha : x < a := h (a, v) (by simp)
    have hne : a ≠ x := by omega
    simp only [memReadByte, hne, if_false]
    exact ih fun c hc => h c (by simp [hc])

/-- Writing a byte leaves every other byte alone. -/
theorem memReadByte_memWriteByte_ne (m : List Host.Cell) {x y : Nat} (v : Byte) (h : y ≠ x) :
    memReadByte (memWriteByte m x v) y = memReadByte m y := by
  induction m with
  | nil =>
    unfold memWriteByte
    split <;> simp [memReadByte, Ne.symm h]
  | cons c m ih =>
    obtain ⟨a, u⟩ := c
    unfold memWriteByte
    split
    · simp only [memReadByte, ih]
    · split
      · rename_i hax
        subst hax
        split <;> simp [memReadByte, Ne.symm h]
      · split <;> simp [memReadByte, Ne.symm h]

/-- In a canonical memory, a byte written is the byte read. -/
theorem memReadByte_memWriteByte_eq {m : List Host.Cell} (hm : Memory.wf m) (x : Nat) (v : Byte) :
    memReadByte (memWriteByte m x v) x = v := by
  induction m with
  | nil =>
    unfold memWriteByte
    split <;> simp_all [memReadByte]
  | cons c m ih =>
    obtain ⟨a, u⟩ := c
    obtain ⟨hp, hne⟩ := hm
    rw [List.pairwise_cons] at hp
    have htail : Memory.wf m := ⟨hp.2, fun c hc => hne c (by simp [hc])⟩
    unfold memWriteByte
    split
    · rename_i hax
      have hne' : a ≠ x := by omega
      simp only [memReadByte, hne', if_false]
      exact ih htail
    · split
      · rename_i hax
        subst hax
        split
        · rename_i hv
          rw [hv]
          exact memReadByte_of_lt_all fun c hc => hp.1 c hc
        · simp [memReadByte]
      · rename_i h1 h2
        split
        · rename_i hv
          rw [hv]
          refine memReadByte_of_lt_all fun c hc => ?_
          rcases List.mem_cons.1 hc with rfl | hc
          · show x < a
            omega
          · exact Nat.lt_of_le_of_lt (by show x ≤ a; omega) (hp.1 c hc)
        · simp [memReadByte]

/-- What a written memory lists: the byte written, or what was listed before. -/
theorem mem_of_mem_memWriteByte {m : List Host.Cell} {x : Nat} {v : Byte} {c : Host.Cell}
    (h : c ∈ memWriteByte m x v) : c ∈ m ∨ (c = (x, v) ∧ v ≠ unlistedByte) := by
  induction m with
  | nil =>
    unfold memWriteByte at h
    split at h <;> simp_all
  | cons d m ih =>
    obtain ⟨a, u⟩ := d
    unfold memWriteByte at h
    split at h
    · rcases List.mem_cons.1 h with rfl | h
      · simp
      · rcases ih h with h | h
        · simp [h]
        · exact .inr h
    · split at h
      · split at h
        · simp [h]
        · rcases List.mem_cons.1 h with rfl | h
          · exact .inr ⟨rfl, ‹_›⟩
          · simp [h]
      · split at h
        · exact .inl h
        · rcases List.mem_cons.1 h with rfl | h
          · exact .inr ⟨rfl, ‹_›⟩
          · exact .inl h

/-- Every byte write keeps the canonical form. -/
theorem memWriteByte_wf {m : List Host.Cell} (hm : Memory.wf m) (x : Nat) (v : Byte) :
    Memory.wf (memWriteByte m x v) := by
  refine ⟨?_, fun c hc => ?_⟩
  · induction m with
    | nil =>
      unfold memWriteByte
      split <;> simp
    | cons d m ih =>
      obtain ⟨a, u⟩ := d
      obtain ⟨hp, hne⟩ := hm
      have hp' := List.pairwise_cons.1 hp
      have htail : Memory.wf m := ⟨hp'.2, fun c hc => hne c (by simp [hc])⟩
      unfold memWriteByte
      split
      · refine List.pairwise_cons.2 ⟨fun c hc => ?_, ih htail⟩
        rcases mem_of_mem_memWriteByte hc with hc | ⟨rfl, -⟩
        · exact hp'.1 c hc
        · assumption
      · split
        · rename_i hax
          subst hax
          split
          · exact hp'.2
          · exact List.pairwise_cons.2 ⟨fun c hc => hp'.1 c hc, hp'.2⟩
        · split
          · exact hp
          · refine List.pairwise_cons.2 ⟨fun c hc => ?_, hp⟩
            rcases List.mem_cons.1 hc with rfl | hc
            · show x < a
              omega
            · exact Nat.lt_of_le_of_lt (by show x ≤ a; omega) (hp'.1 c hc)
  · rcases mem_of_mem_memWriteByte hc with hc | ⟨rfl, hv⟩
    · exact hm.2 c hc
    · exact hv

/-! ### Words -/

/-- Writing a word leaves every byte outside its four alone. -/
theorem memReadByte_memWriteWord_ne (m : List Host.Cell) {w a : Nat} (v : Word) (h : a < 4 * w ∨ 4 * w + 4 ≤ a) :
    memReadByte (memWriteWord m w v) a = memReadByte m a := by
  unfold memWriteWord
  rw [memReadByte_memWriteByte_ne _ _ (by omega), memReadByte_memWriteByte_ne _ _ (by omega),
    memReadByte_memWriteByte_ne _ _ (by omega), memReadByte_memWriteByte_ne _ _ (by omega)]

/-- Writing a word leaves every other word alone. -/
theorem memReadWord_memWriteWord_ne (m : List Host.Cell) {w w' : Nat} (v : Word) (h : w' ≠ w) :
    memReadWord (memWriteWord m w v) w' = memReadWord m w' := by
  unfold memReadWord
  rw [memReadByte_memWriteWord_ne _ _ (by omega), memReadByte_memWriteWord_ne _ _ (by omega),
    memReadByte_memWriteWord_ne _ _ (by omega), memReadByte_memWriteWord_ne _ _ (by omega)]

/-- Every word write keeps the canonical form. -/
theorem memWriteWord_wf {m : List Host.Cell} (hm : Memory.wf m) (w : Nat) (v : Word) :
    Memory.wf (memWriteWord m w v) :=
  memWriteByte_wf (memWriteByte_wf (memWriteByte_wf (memWriteByte_wf hm _ _) _ _) _ _) _ _

/-- The four bytes of a word, put together again, are the word (R93). -/
theorem word_of_bytes (v : Word) :
    v.extractLsb' 24 8 ++ v.extractLsb' 16 8 ++ v.extractLsb' 8 8 ++ v.extractLsb' 0 8 = v := by
  apply BitVec.eq_of_getLsbD_eq
  intro i hi
  simp only [BitVec.getLsbD_append, BitVec.getLsbD_extractLsb']
  split
  · simp_all
  · split
    · rw [show 8 + (i - 8) = i by omega]; simp_all
    · split
      · rw [show 16 + (i - 8 - 8) = i by omega]; simp_all
      · rw [show 24 + (i - 8 - 8 - 8) = i by omega]
        simp only [Bool.and_eq_right_iff_imp, decide_eq_true_eq]
        omega

/-- In a canonical memory, a word written is the word read. -/
theorem memReadWord_memWriteWord_eq {m : List Host.Cell} (hm : Memory.wf m) (w : Nat) (v : Word) :
    memReadWord (memWriteWord m w v) w = v := by
  have h0 := memWriteByte_wf hm (4 * w) (v.extractLsb' 0 8)
  have h1 := memWriteByte_wf h0 (4 * w + 1) (v.extractLsb' 8 8)
  have h2 := memWriteByte_wf h1 (4 * w + 2) (v.extractLsb' 16 8)
  unfold memReadWord memWriteWord
  rw [memReadByte_memWriteByte_eq h2,
    memReadByte_memWriteByte_ne _ _ (by omega), memReadByte_memWriteByte_eq h1,
    memReadByte_memWriteByte_ne _ _ (by omega), memReadByte_memWriteByte_ne _ _ (by omega),
    memReadByte_memWriteByte_eq h0,
    memReadByte_memWriteByte_ne _ _ (by omega), memReadByte_memWriteByte_ne _ _ (by omega),
    memReadByte_memWriteByte_ne _ _ (by omega), memReadByte_memWriteByte_eq hm]
  exact word_of_bytes v

/-- The addresses that a memory lists after a word write lie below a bound that holds the word. -/
theorem memWriteWord_below {m : List Host.Cell} {w n : Nat} {v : Word} (hm : ∀ c ∈ m, c.1 < n) (hw : 4 * w + 4 ≤ n) :
    ∀ c ∈ memWriteWord m w v, c.1 < n := by
  intro c hc
  unfold memWriteWord at hc
  rcases mem_of_mem_memWriteByte hc with hc | ⟨rfl, -⟩
  · rcases mem_of_mem_memWriteByte hc with hc | ⟨rfl, -⟩
    · rcases mem_of_mem_memWriteByte hc with hc | ⟨rfl, -⟩
      · rcases mem_of_mem_memWriteByte hc with hc | ⟨rfl, -⟩
        · exact hm c hc
        · show 4 * w < n
          omega
      · show 4 * w + 1 < n
        omega
    · show 4 * w + 2 < n
      omega
  · show 4 * w + 3 < n
    omega

/-! ### OUT_BUF -/

/-- A frame of a bank lies inside the buffer space of 4C words (R91). -/
theorem bufAddr_lt {capacity k : Nat} (b ch : BitVec 1) (h : k < capacity) :
    bufAddr capacity b k ch < 4 * capacity := by
  have hb : b.toNat < 2 := b.isLt
  have hc : ch.toNat < 2 := ch.isLt
  have hb' : b.toNat = 0 ∨ b.toNat = 1 := by omega
  unfold bufAddr
  rcases hb' with hb' | hb' <;> rw [hb'] <;> omega

/-- Two different samples of the buffer have different word addresses (R91). -/
theorem bufAddr_inj {capacity k k' : Nat} {b b' ch ch' : BitVec 1} (hk : k < capacity) (hk' : k' < capacity)
    (h : bufAddr capacity b k ch = bufAddr capacity b' k' ch') : b = b' ∧ k = k' ∧ ch = ch' := by
  have h1 : b.toNat < 2 := b.isLt
  have h2 : b'.toNat < 2 := b'.isLt
  have h3 : ch.toNat < 2 := ch.isLt
  have h4 : ch'.toNat < 2 := ch'.isLt
  unfold bufAddr at h
  have hb : b.toNat = b'.toNat := by
    have hb1 : b.toNat = 0 ∨ b.toNat = 1 := by omega
    have hb2 : b'.toNat = 0 ∨ b'.toNat = 1 := by omega
    rcases hb1 with hb1 | hb1 <;> rcases hb2 with hb2 | hb2 <;> rw [hb1, hb2] at h ⊢ <;> omega
  rw [hb] at h
  exact ⟨BitVec.eq_of_toNat_eq hb, by omega, BitVec.eq_of_toNat_eq (by omega)⟩

/-- Every frame write keeps the canonical form. -/
theorem writeFrame_wf {s : State} (h : Memory.wf s.mem) (b : BitVec 1) (k : Nat) (l r : F32) :
    Memory.wf (writeFrame b k l r s).mem :=
  memWriteWord_wf (memWriteWord_wf h _ _) _ _

/-- Both channels of a frame written are what a read of the frame gives (R207). -/
theorem bufWord_writeFrame_eq {s : State} (h : Memory.wf s.mem) (b : BitVec 1) (k : Nat) (l r : F32) :
    bufWord (writeFrame b k l r s) b k 0#1 = l ∧ bufWord (writeFrame b k l r s) b k 1#1 = r := by
  unfold bufWord writeFrame
  refine ⟨?_, memReadWord_memWriteWord_eq (memWriteWord_wf h _ _) _ _⟩
  show memReadWord (memWriteWord _ (bufAddr s.capacity b k 1#1) r) (bufAddr s.capacity b k 0#1) = l
  rw [memReadWord_memWriteWord_ne _ _ (by simp [bufAddr])]
  exact memReadWord_memWriteWord_eq h _ _

/-- A frame write leaves every other frame alone. -/
theorem bufWord_writeFrame_ne {s : State} {b b' : BitVec 1} {k k' : Nat} (hk : k < s.capacity) (hk' : k' < s.capacity)
    (h : b' ≠ b ∨ k' ≠ k) (ch : BitVec 1) (l r : F32) :
    bufWord (writeFrame b k l r s) b' k' ch = bufWord s b' k' ch := by
  have key : ∀ c : BitVec 1, bufAddr s.capacity b' k' ch ≠ bufAddr s.capacity b k c := by
    intro c e
    obtain ⟨e1, e2, -⟩ := bufAddr_inj hk' hk e
    rcases h with h | h
    · exact h e1
    · exact h e2
  unfold bufWord writeFrame
  show memReadWord (memWriteWord (memWriteWord _ _ _) _ _) (bufAddr s.capacity b' k' ch) = _
  rw [memReadWord_memWriteWord_ne _ _ (key _), memReadWord_memWriteWord_ne _ _ (key _)]

/-- A frame write leaves every byte outside the frame's eight alone. -/
theorem byteAt_writeFrame_ne {s : State} {a : Nat} (b : BitVec 1) (k : Nat) (l r : F32)
    (h : a < 4 * bufAddr s.capacity b k 0#1 ∨ 4 * bufAddr s.capacity b k 0#1 + 8 ≤ a) :
    byteAt (writeFrame b k l r s) a = byteAt s a := by
  have e : bufAddr s.capacity b k 1#1 = bufAddr s.capacity b k 0#1 + 1 := by simp [bufAddr]
  unfold byteAt writeFrame
  show memReadByte (memWriteWord (memWriteWord _ _ _) _ _) a = _
  rw [memReadByte_memWriteWord_ne _ _ (by omega), memReadByte_memWriteWord_ne _ _ (by omega)]

/-- The addresses listed stay inside the buffer space (R91). -/
theorem writeFrame_below {s : State} {k : Nat} (h : ∀ c ∈ s.mem, c.1 < 16 * s.capacity) (hk : k < s.capacity)
    (b : BitVec 1) (l r : F32) : ∀ c ∈ (writeFrame b k l r s).mem, c.1 < 16 * s.capacity := by
  have h0 := bufAddr_lt b 0#1 hk
  have h1 := bufAddr_lt b 1#1 hk
  exact memWriteWord_below (memWriteWord_below h (by omega)) (by omega)

end Sys2Proof.Machine
end

