-- ==== Sys2Proof/Laws/State.lean ====
section
/-! SUPPORT. One lemma for each field of State and each named update of it: what the field is after the update. No later
proof unfolds a record update. -/

namespace Sys2Proof.Machine

/-! ### setVoice -/

@[simp] theorem setVoice_capacity (s : State) (v : BitVec 8) (x : Voice) :
    (setVoice s v x).capacity = s.capacity := rfl
@[simp] theorem setVoice_build (s : State) (v : BitVec 8) (x : Voice) : (setVoice s v x).build = s.build := rfl
@[simp] theorem setVoice_voices (s : State) (v : BitVec 8) (x : Voice) :
    (setVoice s v x).voices = s.voices.set v.toNat x := rfl
@[simp] theorem setVoice_switches (s : State) (v : BitVec 8) (x : Voice) :
    (setVoice s v x).switches = s.switches := rfl
@[simp] theorem setVoice_indicators (s : State) (v : BitVec 8) (x : Voice) :
    (setVoice s v x).indicators = s.indicators := rfl
@[simp] theorem setVoice_mem (s : State) (v : BitVec 8) (x : Voice) : (setVoice s v x).mem = s.mem := rfl
@[simp] theorem setVoice_halted (s : State) (v : BitVec 8) (x : Voice) : (setVoice s v x).halted = s.halted := rfl
@[simp] theorem setVoice_ill (s : State) (v : BitVec 8) (x : Voice) : (setVoice s v x).ill = s.ill := rfl
@[simp] theorem setVoice_illCause (s : State) (v : BitVec 8) (x : Voice) :
    (setVoice s v x).illCause = s.illCause := rfl
@[simp] theorem setVoice_haltCause (s : State) (v : BitVec 8) (x : Voice) :
    (setVoice s v x).haltCause = s.haltCause := rfl
@[simp] theorem setVoice_wbank (s : State) (v : BitVec 8) (x : Voice) : (setVoice s v x).wbank = s.wbank := rfl
@[simp] theorem setVoice_underrunCnt (s : State) (v : BitVec 8) (x : Voice) :
    (setVoice s v x).underrunCnt = s.underrunCnt := rfl
@[simp] theorem setVoice_blockCnt (s : State) (v : BitVec 8) (x : Voice) :
    (setVoice s v x).blockCnt = s.blockCnt := rfl
@[simp] theorem setVoice_now (s : State) (v : BitVec 8) (x : Voice) : (setVoice s v x).now = s.now := rfl
@[simp] theorem setVoice_outLen (s : State) (v : BitVec 8) (x : Voice) : (setVoice s v x).outLen = s.outLen := rfl
@[simp] theorem setVoice_lastBank (s : State) (v : BitVec 8) (x : Voice) :
    (setVoice s v x).lastBank = s.lastBank := rfl
@[simp] theorem setVoice_valid (s : State) (v : BitVec 8) (x : Voice) : (setVoice s v x).valid = s.valid := rfl
@[simp] theorem setVoice_port (s : State) (v : BitVec 8) (x : Voice) : (setVoice s v x).port = s.port := rfl
@[simp] theorem setVoice_inputs (s : State) (v : BitVec 8) (x : Voice) : (setVoice s v x).inputs = s.inputs := rfl
@[simp] theorem setVoice_out (s : State) (v : BitVec 8) (x : Voice) : (setVoice s v x).out = s.out := rfl

/-! ### setSwitch -/

@[simp] theorem setSwitch_capacity (s : State) (i : BitVec 8) (x : Switch) :
    (setSwitch s i x).capacity = s.capacity := rfl
@[simp] theorem setSwitch_build (s : State) (i : BitVec 8) (x : Switch) : (setSwitch s i x).build = s.build := rfl
@[simp] theorem setSwitch_voices (s : State) (i : BitVec 8) (x : Switch) : (setSwitch s i x).voices = s.voices := rfl
@[simp] theorem setSwitch_switches (s : State) (i : BitVec 8) (x : Switch) :
    (setSwitch s i x).switches = s.switches.set i.toNat x := rfl
@[simp] theorem setSwitch_indicators (s : State) (i : BitVec 8) (x : Switch) :
    (setSwitch s i x).indicators = s.indicators := rfl
@[simp] theorem setSwitch_mem (s : State) (i : BitVec 8) (x : Switch) : (setSwitch s i x).mem = s.mem := rfl
@[simp] theorem setSwitch_halted (s : State) (i : BitVec 8) (x : Switch) : (setSwitch s i x).halted = s.halted := rfl
@[simp] theorem setSwitch_ill (s : State) (i : BitVec 8) (x : Switch) : (setSwitch s i x).ill = s.ill := rfl
@[simp] theorem setSwitch_illCause (s : State) (i : BitVec 8) (x : Switch) :
    (setSwitch s i x).illCause = s.illCause := rfl
@[simp] theorem setSwitch_haltCause (s : State) (i : BitVec 8) (x : Switch) :
    (setSwitch s i x).haltCause = s.haltCause := rfl
@[simp] theorem setSwitch_wbank (s : State) (i : BitVec 8) (x : Switch) : (setSwitch s i x).wbank = s.wbank := rfl
@[simp] theorem setSwitch_underrunCnt (s : State) (i : BitVec 8) (x : Switch) :
    (setSwitch s i x).underrunCnt = s.underrunCnt := rfl
@[simp] theorem setSwitch_blockCnt (s : State) (i : BitVec 8) (x : Switch) :
    (setSwitch s i x).blockCnt = s.blockCnt := rfl
@[simp] theorem setSwitch_now (s : State) (i : BitVec 8) (x : Switch) : (setSwitch s i x).now = s.now := rfl
@[simp] theorem setSwitch_outLen (s : State) (i : BitVec 8) (x : Switch) : (setSwitch s i x).outLen = s.outLen := rfl
@[simp] theorem setSwitch_lastBank (s : State) (i : BitVec 8) (x : Switch) :
    (setSwitch s i x).lastBank = s.lastBank := rfl
@[simp] theorem setSwitch_valid (s : State) (i : BitVec 8) (x : Switch) : (setSwitch s i x).valid = s.valid := rfl
@[simp] theorem setSwitch_port (s : State) (i : BitVec 8) (x : Switch) : (setSwitch s i x).port = s.port := rfl
@[simp] theorem setSwitch_inputs (s : State) (i : BitVec 8) (x : Switch) : (setSwitch s i x).inputs = s.inputs := rfl
@[simp] theorem setSwitch_out (s : State) (i : BitVec 8) (x : Switch) : (setSwitch s i x).out = s.out := rfl

/-! ### setIndicator -/

@[simp] theorem setIndicator_capacity (s : State) (i : BitVec 8) (x : Indicator) :
    (setIndicator s i x).capacity = s.capacity := rfl
@[simp] theorem setIndicator_build (s : State) (i : BitVec 8) (x : Indicator) :
    (setIndicator s i x).build = s.build := rfl
@[simp] theorem setIndicator_voices (s : State) (i : BitVec 8) (x : Indicator) :
    (setIndicator s i x).voices = s.voices := rfl
@[simp] theorem setIndicator_switches (s : State) (i : BitVec 8) (x : Indicator) :
    (setIndicator s i x).switches = s.switches := rfl
@[simp] theorem setIndicator_indicators (s : State) (i : BitVec 8) (x : Indicator) :
    (setIndicator s i x).indicators = s.indicators.set i.toNat x := rfl
@[simp] theorem setIndicator_mem (s : State) (i : BitVec 8) (x : Indicator) : (setIndicator s i x).mem = s.mem := rfl
@[simp] theorem setIndicator_halted (s : State) (i : BitVec 8) (x : Indicator) :
    (setIndicator s i x).halted = s.halted := rfl
@[simp] theorem setIndicator_ill (s : State) (i : BitVec 8) (x : Indicator) : (setIndicator s i x).ill = s.ill := rfl
@[simp] theorem setIndicator_illCause (s : State) (i : BitVec 8) (x : Indicator) :
    (setIndicator s i x).illCause = s.illCause := rfl
@[simp] theorem setIndicator_haltCause (s : State) (i : BitVec 8) (x : Indicator) :
    (setIndicator s i x).haltCause = s.haltCause := rfl
@[simp] theorem setIndicator_wbank (s : State) (i : BitVec 8) (x : Indicator) :
    (setIndicator s i x).wbank = s.wbank := rfl
@[simp] theorem setIndicator_underrunCnt (s : State) (i : BitVec 8) (x : Indicator) :
    (setIndicator s i x).underrunCnt = s.underrunCnt := rfl
@[simp] theorem setIndicator_blockCnt (s : State) (i : BitVec 8) (x : Indicator) :
    (setIndicator s i x).blockCnt = s.blockCnt := rfl
@[simp] theorem setIndicator_now (s : State) (i : BitVec 8) (x : Indicator) : (setIndicator s i x).now = s.now := rfl
@[simp] theorem setIndicator_outLen (s : State) (i : BitVec 8) (x : Indicator) :
    (setIndicator s i x).outLen = s.outLen := rfl
@[simp] theorem setIndicator_lastBank (s : State) (i : BitVec 8) (x : Indicator) :
    (setIndicator s i x).lastBank = s.lastBank := rfl
@[simp] theorem setIndicator_valid (s : State) (i : BitVec 8) (x : Indicator) :
    (setIndicator s i x).valid = s.valid := rfl
@[simp] theorem setIndicator_port (s : State) (i : BitVec 8) (x : Indicator) :
    (setIndicator s i x).port = s.port := rfl
@[simp] theorem setIndicator_inputs (s : State) (i : BitVec 8) (x : Indicator) :
    (setIndicator s i x).inputs = s.inputs := rfl
@[simp] theorem setIndicator_out (s : State) (i : BitVec 8) (x : Indicator) : (setIndicator s i x).out = s.out := rfl

/-! ### reply -/

@[simp] theorem reply_capacity (w : Word) (s : State) : (reply w s).capacity = s.capacity := rfl
@[simp] theorem reply_build (w : Word) (s : State) : (reply w s).build = s.build := rfl
@[simp] theorem reply_voices (w : Word) (s : State) : (reply w s).voices = s.voices := rfl
@[simp] theorem reply_switches (w : Word) (s : State) : (reply w s).switches = s.switches := rfl
@[simp] theorem reply_indicators (w : Word) (s : State) : (reply w s).indicators = s.indicators := rfl
@[simp] theorem reply_mem (w : Word) (s : State) : (reply w s).mem = s.mem := rfl
@[simp] theorem reply_halted (w : Word) (s : State) : (reply w s).halted = s.halted := rfl
@[simp] theorem reply_ill (w : Word) (s : State) : (reply w s).ill = s.ill := rfl
@[simp] theorem reply_illCause (w : Word) (s : State) : (reply w s).illCause = s.illCause := rfl
@[simp] theorem reply_haltCause (w : Word) (s : State) : (reply w s).haltCause = s.haltCause := rfl
@[simp] theorem reply_wbank (w : Word) (s : State) : (reply w s).wbank = s.wbank := rfl
@[simp] theorem reply_underrunCnt (w : Word) (s : State) : (reply w s).underrunCnt = s.underrunCnt := rfl
@[simp] theorem reply_blockCnt (w : Word) (s : State) : (reply w s).blockCnt = s.blockCnt := rfl
@[simp] theorem reply_now (w : Word) (s : State) : (reply w s).now = s.now := rfl
@[simp] theorem reply_outLen (w : Word) (s : State) : (reply w s).outLen = s.outLen := rfl
@[simp] theorem reply_lastBank (w : Word) (s : State) : (reply w s).lastBank = s.lastBank := rfl
@[simp] theorem reply_valid (w : Word) (s : State) : (reply w s).valid = s.valid := rfl
@[simp] theorem reply_port (w : Word) (s : State) : (reply w s).port = s.port := rfl
@[simp] theorem reply_inputs (w : Word) (s : State) : (reply w s).inputs = s.inputs := rfl
@[simp] theorem reply_out (w : Word) (s : State) :
    (reply w s).out = { resp := some { port := s.port, word := w }, submit := none, frame := none } := rfl

/-! ### submitBlock -/

@[simp] theorem submitBlock_capacity (b : BitVec 1) (m : Nat) (s : State) :
    (submitBlock b m s).capacity = s.capacity := rfl
@[simp] theorem submitBlock_build (b : BitVec 1) (m : Nat) (s : State) : (submitBlock b m s).build = s.build := rfl
@[simp] theorem submitBlock_voices (b : BitVec 1) (m : Nat) (s : State) : (submitBlock b m s).voices = s.voices := rfl
@[simp] theorem submitBlock_switches (b : BitVec 1) (m : Nat) (s : State) :
    (submitBlock b m s).switches = s.switches := rfl
@[simp] theorem submitBlock_indicators (b : BitVec 1) (m : Nat) (s : State) :
    (submitBlock b m s).indicators = s.indicators := rfl
@[simp] theorem submitBlock_mem (b : BitVec 1) (m : Nat) (s : State) : (submitBlock b m s).mem = s.mem := rfl
@[simp] theorem submitBlock_halted (b : BitVec 1) (m : Nat) (s : State) : (submitBlock b m s).halted = s.halted := rfl
@[simp] theorem submitBlock_ill (b : BitVec 1) (m : Nat) (s : State) : (submitBlock b m s).ill = s.ill := rfl
@[simp] theorem submitBlock_illCause (b : BitVec 1) (m : Nat) (s : State) :
    (submitBlock b m s).illCause = s.illCause := rfl
@[simp] theorem submitBlock_haltCause (b : BitVec 1) (m : Nat) (s : State) :
    (submitBlock b m s).haltCause = s.haltCause := rfl
@[simp] theorem submitBlock_wbank (b : BitVec 1) (m : Nat) (s : State) : (submitBlock b m s).wbank = 1#1 - b := rfl
@[simp] theorem submitBlock_underrunCnt (b : BitVec 1) (m : Nat) (s : State) :
    (submitBlock b m s).underrunCnt = s.underrunCnt := rfl
@[simp] theorem submitBlock_blockCnt (b : BitVec 1) (m : Nat) (s : State) :
    (submitBlock b m s).blockCnt = s.blockCnt + 1#32 := rfl
@[simp] theorem submitBlock_now (b : BitVec 1) (m : Nat) (s : State) : (submitBlock b m s).now = s.now := rfl
@[simp] theorem submitBlock_outLen (b : BitVec 1) (m : Nat) (s : State) :
    (submitBlock b m s).outLen = BitVec.ofNat 16 m := rfl
@[simp] theorem submitBlock_lastBank (b : BitVec 1) (m : Nat) (s : State) : (submitBlock b m s).lastBank = b := rfl
@[simp] theorem submitBlock_valid (b : BitVec 1) (m : Nat) (s : State) : (submitBlock b m s).valid = true := rfl
@[simp] theorem submitBlock_port (b : BitVec 1) (m : Nat) (s : State) : (submitBlock b m s).port = s.port := rfl
@[simp] theorem submitBlock_inputs (b : BitVec 1) (m : Nat) (s : State) : (submitBlock b m s).inputs = s.inputs := rfl
@[simp] theorem submitBlock_out (b : BitVec 1) (m : Nat) (s : State) :
    (submitBlock b m s).out =
      { resp := some { port := s.port, word := 0#32 }
        submit := some { bank := b, len := BitVec.ofNat 16 m }
        frame := none } := rfl

/-! ### enterHalt -/

@[simp] theorem enterHalt_capacity (s : State) : (enterHalt s).capacity = s.capacity := rfl
@[simp] theorem enterHalt_build (s : State) : (enterHalt s).build = s.build := rfl
@[simp] theorem enterHalt_voices (s : State) : (enterHalt s).voices = s.voices := rfl
@[simp] theorem enterHalt_switches (s : State) : (enterHalt s).switches = s.switches := rfl
@[simp] theorem enterHalt_indicators (s : State) : (enterHalt s).indicators = s.indicators := rfl
@[simp] theorem enterHalt_mem (s : State) : (enterHalt s).mem = s.mem := rfl
@[simp] theorem enterHalt_halted (s : State) : (enterHalt s).halted = true := rfl
@[simp] theorem enterHalt_ill (s : State) : (enterHalt s).ill = s.ill := rfl
@[simp] theorem enterHalt_illCause (s : State) : (enterHalt s).illCause = s.illCause := rfl
@[simp] theorem enterHalt_haltCause (s : State) : (enterHalt s).haltCause = HaltCause.capacityViolation := rfl
@[simp] theorem enterHalt_wbank (s : State) : (enterHalt s).wbank = s.wbank := rfl
@[simp] theorem enterHalt_underrunCnt (s : State) : (enterHalt s).underrunCnt = s.underrunCnt := rfl
@[simp] theorem enterHalt_blockCnt (s : State) : (enterHalt s).blockCnt = s.blockCnt := rfl
@[simp] theorem enterHalt_now (s : State) : (enterHalt s).now = s.now := rfl
@[simp] theorem enterHalt_outLen (s : State) : (enterHalt s).outLen = s.outLen := rfl
@[simp] theorem enterHalt_lastBank (s : State) : (enterHalt s).lastBank = s.lastBank := rfl
@[simp] theorem enterHalt_valid (s : State) : (enterHalt s).valid = s.valid := rfl
@[simp] theorem enterHalt_port (s : State) : (enterHalt s).port = s.port := rfl
@[simp] theorem enterHalt_inputs (s : State) : (enterHalt s).inputs = s.inputs := rfl
@[simp] theorem enterHalt_out (s : State) : (enterHalt s).out = s.out := rfl

/-! ### clearIllegal -/

@[simp] theorem clearIllegal_capacity (s : State) : (clearIllegal s).capacity = s.capacity := rfl
@[simp] theorem clearIllegal_build (s : State) : (clearIllegal s).build = s.build := rfl
@[simp] theorem clearIllegal_voices (s : State) : (clearIllegal s).voices = s.voices := rfl
@[simp] theorem clearIllegal_switches (s : State) : (clearIllegal s).switches = s.switches := rfl
@[simp] theorem clearIllegal_indicators (s : State) : (clearIllegal s).indicators = s.indicators := rfl
@[simp] theorem clearIllegal_mem (s : State) : (clearIllegal s).mem = s.mem := rfl
@[simp] theorem clearIllegal_halted (s : State) : (clearIllegal s).halted = s.halted := rfl
@[simp] theorem clearIllegal_ill (s : State) : (clearIllegal s).ill = false := rfl
@[simp] theorem clearIllegal_illCause (s : State) : (clearIllegal s).illCause = IllCause.none := rfl
@[simp] theorem clearIllegal_haltCause (s : State) : (clearIllegal s).haltCause = s.haltCause := rfl
@[simp] theorem clearIllegal_wbank (s : State) : (clearIllegal s).wbank = s.wbank := rfl
@[simp] theorem clearIllegal_underrunCnt (s : State) : (clearIllegal s).underrunCnt = s.underrunCnt := rfl
@[simp] theorem clearIllegal_blockCnt (s : State) : (clearIllegal s).blockCnt = s.blockCnt := rfl
@[simp] theorem clearIllegal_now (s : State) : (clearIllegal s).now = s.now := rfl
@[simp] theorem clearIllegal_outLen (s : State) : (clearIllegal s).outLen = s.outLen := rfl
@[simp] theorem clearIllegal_lastBank (s : State) : (clearIllegal s).lastBank = s.lastBank := rfl
@[simp] theorem clearIllegal_valid (s : State) : (clearIllegal s).valid = s.valid := rfl
@[simp] theorem clearIllegal_port (s : State) : (clearIllegal s).port = s.port := rfl
@[simp] theorem clearIllegal_inputs (s : State) : (clearIllegal s).inputs = s.inputs := rfl
@[simp] theorem clearIllegal_out (s : State) : (clearIllegal s).out = s.out := rfl

/-! ### writeFrame -/

@[simp] theorem writeFrame_capacity (b : BitVec 1) (k : Nat) (l r : F32) (s : State) :
    (writeFrame b k l r s).capacity = s.capacity := rfl
@[simp] theorem writeFrame_build (b : BitVec 1) (k : Nat) (l r : F32) (s : State) :
    (writeFrame b k l r s).build = s.build := rfl
@[simp] theorem writeFrame_voices (b : BitVec 1) (k : Nat) (l r : F32) (s : State) :
    (writeFrame b k l r s).voices = s.voices := rfl
@[simp] theorem writeFrame_switches (b : BitVec 1) (k : Nat) (l r : F32) (s : State) :
    (writeFrame b k l r s).switches = s.switches := rfl
@[simp] theorem writeFrame_indicators (b : BitVec 1) (k : Nat) (l r : F32) (s : State) :
    (writeFrame b k l r s).indicators = s.indicators := rfl
@[simp] theorem writeFrame_mem (b : BitVec 1) (k : Nat) (l r : F32) (s : State) :
    (writeFrame b k l r s).mem = memWriteWord (memWriteWord s.mem (bufAddr s.capacity b k 0#1) l) (bufAddr s.capacity b k 1#1) r := rfl
@[simp] theorem writeFrame_halted (b : BitVec 1) (k : Nat) (l r : F32) (s : State) :
    (writeFrame b k l r s).halted = s.halted := rfl
@[simp] theorem writeFrame_ill (b : BitVec 1) (k : Nat) (l r : F32) (s : State) :
    (writeFrame b k l r s).ill = s.ill := rfl
@[simp] theorem writeFrame_illCause (b : BitVec 1) (k : Nat) (l r : F32) (s : State) :
    (writeFrame b k l r s).illCause = s.illCause := rfl
@[simp] theorem writeFrame_haltCause (b : BitVec 1) (k : Nat) (l r : F32) (s : State) :
    (writeFrame b k l r s).haltCause = s.haltCause := rfl
@[simp] theorem writeFrame_wbank (b : BitVec 1) (k : Nat) (l r : F32) (s : State) :
    (writeFrame b k l r s).wbank = s.wbank := rfl
@[simp] theorem writeFrame_underrunCnt (b : BitVec 1) (k : Nat) (l r : F32) (s : State) :
    (writeFrame b k l r s).underrunCnt = s.underrunCnt := rfl
@[simp] theorem writeFrame_blockCnt (b : BitVec 1) (k : Nat) (l r : F32) (s : State) :
    (writeFrame b k l r s).blockCnt = s.blockCnt := rfl
@[simp] theorem writeFrame_now (b : BitVec 1) (k : Nat) (l r : F32) (s : State) :
    (writeFrame b k l r s).now = s.now := rfl
@[simp] theorem writeFrame_outLen (b : BitVec 1) (k : Nat) (l r : F32) (s : State) :
    (writeFrame b k l r s).outLen = s.outLen := rfl
@[simp] theorem writeFrame_lastBank (b : BitVec 1) (k : Nat) (l r : F32) (s : State) :
    (writeFrame b k l r s).lastBank = s.lastBank := rfl
@[simp] theorem writeFrame_valid (b : BitVec 1) (k : Nat) (l r : F32) (s : State) :
    (writeFrame b k l r s).valid = s.valid := rfl
@[simp] theorem writeFrame_port (b : BitVec 1) (k : Nat) (l r : F32) (s : State) :
    (writeFrame b k l r s).port = s.port := rfl
@[simp] theorem writeFrame_inputs (b : BitVec 1) (k : Nat) (l r : F32) (s : State) :
    (writeFrame b k l r s).inputs = s.inputs := rfl
@[simp] theorem writeFrame_out (b : BitVec 1) (k : Nat) (l r : F32) (s : State) :
    (writeFrame b k l r s).out = s.out := rfl

/-! ### recordIllegal -/

@[simp] theorem recordIllegal_capacity (c : IllCause) (s : State) : (recordIllegal c s).capacity = s.capacity := by
  unfold recordIllegal; split <;> rfl
@[simp] theorem recordIllegal_build (c : IllCause) (s : State) : (recordIllegal c s).build = s.build := by
  unfold recordIllegal; split <;> rfl
@[simp] theorem recordIllegal_voices (c : IllCause) (s : State) : (recordIllegal c s).voices = s.voices := by
  unfold recordIllegal; split <;> rfl
@[simp] theorem recordIllegal_switches (c : IllCause) (s : State) : (recordIllegal c s).switches = s.switches := by
  unfold recordIllegal; split <;> rfl
@[simp] theorem recordIllegal_indicators (c : IllCause) (s : State) : (recordIllegal c s).indicators = s.indicators := by
  unfold recordIllegal; split <;> rfl
@[simp] theorem recordIllegal_mem (c : IllCause) (s : State) : (recordIllegal c s).mem = s.mem := by
  unfold recordIllegal; split <;> rfl
@[simp] theorem recordIllegal_halted (c : IllCause) (s : State) : (recordIllegal c s).halted = s.halted := by
  unfold recordIllegal; split <;> rfl
@[simp] theorem recordIllegal_ill (c : IllCause) (s : State) : (recordIllegal c s).ill = true := by
  unfold recordIllegal; split <;> simp_all
@[simp] theorem recordIllegal_illCause (c : IllCause) (s : State) :
    (recordIllegal c s).illCause = if s.ill then s.illCause else c := by
  unfold recordIllegal; split <;> rfl
@[simp] theorem recordIllegal_haltCause (c : IllCause) (s : State) : (recordIllegal c s).haltCause = s.haltCause := by
  unfold recordIllegal; split <;> rfl
@[simp] theorem recordIllegal_wbank (c : IllCause) (s : State) : (recordIllegal c s).wbank = s.wbank := by
  unfold recordIllegal; split <;> rfl
@[simp] theorem recordIllegal_underrunCnt (c : IllCause) (s : State) : (recordIllegal c s).underrunCnt = s.underrunCnt := by
  unfold recordIllegal; split <;> rfl
@[simp] theorem recordIllegal_blockCnt (c : IllCause) (s : State) : (recordIllegal c s).blockCnt = s.blockCnt := by
  unfold recordIllegal; split <;> rfl
@[simp] theorem recordIllegal_now (c : IllCause) (s : State) : (recordIllegal c s).now = s.now := by
  unfold recordIllegal; split <;> rfl
@[simp] theorem recordIllegal_outLen (c : IllCause) (s : State) : (recordIllegal c s).outLen = s.outLen := by
  unfold recordIllegal; split <;> rfl
@[simp] theorem recordIllegal_lastBank (c : IllCause) (s : State) : (recordIllegal c s).lastBank = s.lastBank := by
  unfold recordIllegal; split <;> rfl
@[simp] theorem recordIllegal_valid (c : IllCause) (s : State) : (recordIllegal c s).valid = s.valid := by
  unfold recordIllegal; split <;> rfl
@[simp] theorem recordIllegal_port (c : IllCause) (s : State) : (recordIllegal c s).port = s.port := by
  unfold recordIllegal; split <;> rfl
@[simp] theorem recordIllegal_inputs (c : IllCause) (s : State) : (recordIllegal c s).inputs = s.inputs := by
  unfold recordIllegal; split <;> rfl
@[simp] theorem recordIllegal_out (c : IllCause) (s : State) : (recordIllegal c s).out = s.out := by
  unfold recordIllegal; split <;> rfl

/-- The record keeps the first illegal command (R305): with ILL set already, nothing changes. -/
theorem recordIllegal_of_ill {c : IllCause} {s : State} (h : s.ill = true) : recordIllegal c s = s := by
  simp [recordIllegal, h]

/-- Raising an illegal command records it and answers 0 (R305). -/
theorem raiseCondition_illegal (c : IllCause) (s : State) :
    raiseCondition (.illegalCommand c) s = reply 0#32 (recordIllegal c s) := rfl

/-- Raising an underrun counts it and answers 1 (R301). -/
theorem raiseCondition_underrun (s : State) :
    raiseCondition .hardwareUnderrun s = reply 1#32 { s with underrunCnt := s.underrunCnt + 1#32 } := rfl

/-- A capacity violation in DEBUG enters the halt and answers 3 (R303). -/
theorem raiseCondition_capacity_debug {s : State} (h : s.build = .debug) :
    raiseCondition .capacityViolation s = reply 3#32 (enterHalt s) := by
  simp [raiseCondition, h]

/-- A capacity violation in RELEASE has no effect (R208). -/
theorem raiseCondition_capacity_release {s : State} (h : s.build = .release) :
    raiseCondition .capacityViolation s = s := by
  simp [raiseCondition, h]

end Sys2Proof.Machine
end

