-- ==== Sys2Proof/Laws/Ops.lean ====
section
/-! SUPPORT. For each shared operation of the meanings, everything it can do: what it answers under each of its conditions,
and, if it answers a next state, which one. The provers cite these instead of unfolding the operations. -/

namespace Sys2Proof.Machine

/-- What a command answers. -/
abbrev Answer := Host.Outcome State Fault Refusal

/-- What an illegal command leaves, as one state (R305). -/
theorem raiseCondition_illegal_eq (c : IllCause) (s : State) :
    raiseCondition (.illegalCommand c) s =
      { s with
        ill := true
        illCause := if s.ill then s.illCause else c
        out := { resp := some { port := s.port, word := 0#32 }, submit := none, frame := none } } := by
  rw [raiseCondition_illegal]
  unfold recordIllegal reply
  cases h : s.ill
  · rfl
  · cases s; cases h; rfl

/-! ### Port and operand checks -/

theorem onPort_of_eq {p : Port} {s : State} (k : Answer) (h : s.port = p) : onPort p s k = k := if_pos h

theorem onPort_of_ne {p : Port} {s : State} (k : Answer) (h : s.port ≠ p) :
    onPort p s k = .next (raiseCondition (.illegalCommand .wrongPort) s) := if_neg h

/-- The port check lets the command run, or records WRONG_PORT (R134). -/
theorem onPort_next {p : Port} {s t : State} {k : Answer} (h : onPort p s k = .next t) :
    (s.port = p ∧ k = .next t) ∨ (s.port ≠ p ∧ t = raiseCondition (.illegalCommand .wrongPort) s) := by
  by_cases hp : s.port = p
  · exact .inl ⟨hp, by rwa [onPort_of_eq k hp] at h⟩
  · rw [onPort_of_ne k hp] at h
    exact .inr ⟨hp, (Host.Outcome.next.inj h).symm⟩

theorem withVoice_some {v : BitVec 8} {s : State} {x : Voice} (k : Voice → Answer) (h : s.voices[v.toNat]? = some x) :
    withVoice v s k = k x := by
  unfold withVoice; rw [h]

theorem withVoice_none {v : BitVec 8} {s : State} (k : Voice → Answer) (h : s.voices[v.toNat]? = none) :
    withVoice v s k = .next (raiseCondition (.illegalCommand .indexRange) s) := by
  unfold withVoice; rw [h]

/-- The index check finds the voice, or records INDEX_RANGE (R136 a). -/
theorem withVoice_next {v : BitVec 8} {s t : State} {k : Voice → Answer} (h : withVoice v s k = .next t) :
    (∃ x, s.voices[v.toNat]? = some x ∧ k x = .next t) ∨
    (s.voices[v.toNat]? = none ∧ t = raiseCondition (.illegalCommand .indexRange) s) := by
  cases hx : s.voices[v.toNat]? with
  | some x => exact .inl ⟨x, rfl, by rwa [withVoice_some k hx] at h⟩
  | none => exact .inr ⟨rfl, by rw [withVoice_none k hx] at h; exact (Host.Outcome.next.inj h).symm⟩

theorem withSwitch_some {i : BitVec 8} {s : State} {x : Switch} (k : Switch → Answer)
    (h : s.switches[i.toNat]? = some x) : withSwitch i s k = k x := by
  unfold withSwitch; rw [h]

theorem withSwitch_none {i : BitVec 8} {s : State} (k : Switch → Answer) (h : s.switches[i.toNat]? = none) :
    withSwitch i s k = .next (raiseCondition (.illegalCommand .indexRange) s) := by
  unfold withSwitch; rw [h]

/-- The index check finds the switch, or records INDEX_RANGE (R136 b). -/
theorem withSwitch_next {i : BitVec 8} {s t : State} {k : Switch → Answer} (h : withSwitch i s k = .next t) :
    (∃ x, s.switches[i.toNat]? = some x ∧ k x = .next t) ∨
    (s.switches[i.toNat]? = none ∧ t = raiseCondition (.illegalCommand .indexRange) s) := by
  cases hx : s.switches[i.toNat]? with
  | some x => exact .inl ⟨x, rfl, by rwa [withSwitch_some k hx] at h⟩
  | none => exact .inr ⟨rfl, by rw [withSwitch_none k hx] at h; exact (Host.Outcome.next.inj h).symm⟩

theorem withIndicator_some {i : BitVec 8} {s : State} {x : Indicator} (k : Indicator → Answer)
    (h : s.indicators[i.toNat]? = some x) : withIndicator i s k = k x := by
  unfold withIndicator; rw [h]

theorem withIndicator_none {i : BitVec 8} {s : State} (k : Indicator → Answer) (h : s.indicators[i.toNat]? = none) :
    withIndicator i s k = .next (raiseCondition (.illegalCommand .indexRange) s) := by
  unfold withIndicator; rw [h]

/-- The index check finds the indicator, or records INDEX_RANGE (R136 c). -/
theorem withIndicator_next {i : BitVec 8} {s t : State} {k : Indicator → Answer} (h : withIndicator i s k = .next t) :
    (∃ x, s.indicators[i.toNat]? = some x ∧ k x = .next t) ∨
    (s.indicators[i.toNat]? = none ∧ t = raiseCondition (.illegalCommand .indexRange) s) := by
  cases hx : s.indicators[i.toNat]? with
  | some x => exact .inl ⟨x, rfl, by rwa [withIndicator_some k hx] at h⟩
  | none => exact .inr ⟨rfl, by rw [withIndicator_none k hx] at h; exact (Host.Outcome.next.inj h).symm⟩

/-- A register read answers the register, or records INDEX_RANGE (R136 d); it always answers. -/
theorem replyRegister_next {r : Option Word} {s t : State} (h : replyRegister r s = .next t) :
    (∃ w, r = some w ∧ t = reply w s) ∨ (r = none ∧ t = raiseCondition (.illegalCommand .indexRange) s) := by
  cases r with
  | some w => exact .inl ⟨w, rfl, (Host.Outcome.next.inj h).symm⟩
  | none => exact .inr ⟨rfl, (Host.Outcome.next.inj h).symm⟩

/-! ### Ticks -/

/-- A polyBLEP tick needs the domain of R150 and nothing else. -/
theorem tickBlep_isSome_iff (x : Voice) : (tickBlep x).isSome = inDomain x := by
  unfold tickBlep; cases inDomain x <;> rfl

/-- A naive tick needs the domain of R150 and nothing else. -/
theorem tickNaive_isSome_iff (x : Voice) : (tickNaive x).isSome = inDomain x := by
  unfold tickNaive; cases inDomain x <;> rfl

theorem tickBlep_of_inDomain {x : Voice} (h : inDomain x = true) :
    tickBlep x =
      some { sample := canonical (blepSample x), voice := advance { x with last := lastAfterBlep x } } := if_pos h

theorem tickNaive_of_inDomain {x : Voice} (h : inDomain x = true) :
    tickNaive x = some { sample := canonical (naiveSample x), voice := advance x } := if_pos h

/-- A tick command answers with no effect while halted (R174), answers the sample with the voice replaced, or records
INDEX_RANGE. -/
theorem tickCommand_next {tick : Voice → Option Ticked} {v : BitVec 8} {s t : State}
    (h : tickCommand tick v s = .next t) :
    (∃ x, s.voices[v.toNat]? = some x ∧ s.halted = true ∧ t = reply 0#32 s) ∨
    (∃ x y, s.voices[v.toNat]? = some x ∧ s.halted = false ∧ tick x = some y ∧
      t = reply y.sample (setVoice s v y.voice)) ∨
    (s.voices[v.toNat]? = none ∧ t = raiseCondition (.illegalCommand .indexRange) s) := by
  rcases withVoice_next h with ⟨x, hx, hk⟩ | ⟨hx, ht⟩
  · cases hh : s.halted with
    | true =>
      simp only [hh, if_true] at hk
      exact .inl ⟨x, hx, rfl, (Host.Outcome.next.inj hk).symm⟩
    | false =>
      simp only [hh, Bool.false_eq_true, if_false] at hk
      cases hy : tick x with
      | none => simp [hy] at hk
      | some y =>
        simp only [hy] at hk
        exact .inr (.inl ⟨x, y, hx, rfl, hy, (Host.Outcome.next.inj hk).symm⟩)
  · exact .inr (.inr ⟨hx, ht⟩)

/-! ### Frames -/

/-- A frame gives a sum exactly if every enabled voice is in domain (R177). -/
theorem synthFrame_isSome_iff (xs : List Voice) (acc : F32) :
    (synthFrame xs acc).isSome = true ↔ ∀ x ∈ xs, x.en = true → inDomain x = true := by
  induction xs generalizing acc with
  | nil => simp [synthFrame]
  | cons x rest ih =>
    unfold synthFrame
    cases he : x.en with
    | false =>
      simp only [Bool.false_eq_true, if_false]
      have h := ih acc
      cases hs : synthFrame rest acc with
      | none => simp only [hs, Option.isSome_none, Bool.false_eq_true, false_iff] at h; simpa [he] using h
      | some p => simp only [hs, Option.isSome_some, true_iff] at h; simpa [he] using h
    | true =>
      simp only [if_true]
      cases hd : inDomain x with
      | false =>
        simp [tickBlep, hd, he]
      | true =>
        simp only [tickBlep_of_inDomain hd]
        have h := ih (add32 acc (canonical (blepSample x)))
        cases hs : synthFrame rest (add32 acc (canonical (blepSample x))) with
        | none => simp only [hs, Option.isSome_none, Bool.false_eq_true, false_iff] at h; simpa [hd, he] using h
        | some p => simp only [hs, Option.isSome_some, true_iff] at h; simpa [hd, he] using h

/-- One more frame of the frame loop, by its outcome (R205 to R208). -/
theorem renderFrames_succ {b : BitVec 1} {todo k : Nat} {s : State} {acc : F32} {xs : List Voice}
    (h : synthFrame s.voices zeroF = some (acc, xs)) :
    renderFrames b (todo + 1) k s =
      if k < s.capacity then renderFrames b todo (k + 1) (writeFrame b k acc acc { s with voices := xs })
      else
        match s.build with
        | .debug => .halted (raiseCondition .capacityViolation { s with voices := xs })
        | .release => renderFrames b todo (k + 1) { s with voices := xs } := by
  rw [renderFrames, h]
  by_cases hk : k < s.capacity
  · simp only [hk, if_true]
  · simp only [hk, if_false]
    cases hb : s.build with
    | debug => rfl
    | release => simp only [raiseCondition]

/-- A frame with an enabled voice out of domain ends the loop in the fault (R177, U2). -/
theorem renderFrames_succ_none {b : BitVec 1} {todo k : Nat} {s : State} (h : synthFrame s.voices zeroF = none) :
    renderFrames b (todo + 1) k s = .outOfDomain := by
  rw [renderFrames, h]

/-- What AUD_PERIOD answers: with no effect while halted, an underrun, a submission, a halt, or WRONG_PORT (R200). -/
theorem execAudPeriod_next {r : Bool} {n : BitVec 16} {s t : State} (h : execAudPeriod r n s = .next t) :
    (s.port = .aud ∧ s.halted = true ∧ t = reply 2#32 s) ∨
    (s.port = .aud ∧ s.halted = false ∧ r = false ∧ t = raiseCondition .hardwareUnderrun s) ∨
    (s.port = .aud ∧ s.halted = false ∧ r = true ∧ ∃ u, renderFrames s.wbank n.toNat 0 s = .complete u ∧
      t = submitBlock s.wbank (min n.toNat s.capacity) u) ∨
    (s.port = .aud ∧ s.halted = false ∧ r = true ∧ renderFrames s.wbank n.toNat 0 s = .halted t) ∨
    (s.port ≠ .aud ∧ t = raiseCondition (.illegalCommand .wrongPort) s) := by
  rcases onPort_next h with ⟨hp, hk⟩ | ⟨hp, ht⟩
  · cases hh : s.halted with
    | true =>
      simp only [hh, if_true] at hk
      exact .inl ⟨hp, rfl, (Host.Outcome.next.inj hk).symm⟩
    | false =>
      cases hr : r with
      | false =>
        simp only [hh, hr, Bool.false_eq_true, if_false, Bool.not_false, if_true] at hk
        exact .inr (.inl ⟨hp, rfl, rfl, (Host.Outcome.next.inj hk).symm⟩)
      | true =>
        simp only [hh, hr, Bool.false_eq_true, if_false, Bool.not_true] at hk
        cases hf : renderFrames s.wbank n.toNat 0 s with
        | complete u =>
          simp only [hf] at hk
          exact .inr (.inr (.inl ⟨hp, rfl, rfl, u, rfl, (Host.Outcome.next.inj hk).symm⟩))
        | halted u =>
          simp only [hf] at hk
          cases Host.Outcome.next.inj hk
          exact .inr (.inr (.inr (.inl ⟨hp, rfl, rfl, rfl⟩)))
        | outOfDomain => simp [hf] at hk
  · exact .inr (.inr (.inr (.inr ⟨hp, ht⟩)))

end Sys2Proof.Machine
end

