-- ==== Sys2Proof/Laws/PerInstr.lean ====
section
/-! SUPPORT. The families of statements that are made once for each constructor of Instr. -/

namespace Sys2Proof.Laws

/-- The OP field of an encoded command is its opcode of R131. -/
def EncodedOpcode.Statement (i : Instr) : Prop := opOf (encode i) = opcode i

namespace EncodedOpcode

theorem nop : Statement .nop := opOf_mkCommand ..
theorem sysClrErr : Statement .sysClrErr := opOf_mkCommand ..
theorem oscSetFreq (voice : BitVec 8) (value : F32) : Statement (.oscSetFreq voice value) := opOf_mkCommand ..
theorem oscSetSr (voice : BitVec 8) (value : F32) : Statement (.oscSetSr voice value) := opOf_mkCommand ..
theorem oscSetWave (voice : BitVec 8) (wave : Wave) : Statement (.oscSetWave voice wave) := opOf_mkCommand ..
theorem oscSetEn (voice : BitVec 8) (en : Bool) : Statement (.oscSetEn voice en) := opOf_mkCommand ..
theorem oscTickBlep (voice : BitVec 8) : Statement (.oscTickBlep voice) := opOf_mkCommand ..
theorem oscTickNaive (voice : BitVec 8) : Statement (.oscTickNaive voice) := opOf_mkCommand ..
theorem audPeriod (ready : Bool) (n : BitVec 16) : Statement (.audPeriod ready n) := opOf_mkCommand ..
theorem ctlPoll (levels : BitVec 32) : Statement (.ctlPoll levels) := opOf_mkCommand ..
theorem swSetDw (switch : BitVec 8) (value : BitVec 16) : Statement (.swSetDw switch value) := opOf_mkCommand ..
theorem swSetDcw (switch : BitVec 8) (value : BitVec 16) : Statement (.swSetDcw switch value) := opOf_mkCommand ..
theorem swSetHt (switch : BitVec 8) (value : BitVec 16) : Statement (.swSetHt switch value) := opOf_mkCommand ..
theorem indSetTarget (indicator : BitVec 8) (value : F32) : Statement (.indSetTarget indicator value) := opOf_mkCommand ..
theorem indSetStep (indicator : BitVec 8) (value : F32) : Statement (.indSetStep indicator value) := opOf_mkCommand ..
theorem indSetBlink (indicator : BitVec 8) (value : BitVec 16) : Statement (.indSetBlink indicator value) := opOf_mkCommand ..
theorem rdSys (reg : BitVec 16) : Statement (.rdSys reg) := opOf_mkCommand ..
theorem rdOsc (voice : BitVec 8) (reg : BitVec 16) : Statement (.rdOsc voice reg) := opOf_mkCommand ..
theorem rdSw (switch : BitVec 8) (reg : BitVec 16) : Statement (.rdSw switch reg) := opOf_mkCommand ..
theorem rdInd (indicator : BitVec 8) (reg : BitVec 16) : Statement (.rdInd indicator reg) := opOf_mkCommand ..
theorem rdBuf (bank ch : BitVec 1) (frame : BitVec 16) : Statement (.rdBuf bank ch frame) := opOf_mkCommand ..

end EncodedOpcode

end Sys2Proof.Laws
end

