-- ==== Sys2Proof/Tests/Slice0.lean ====
section
/-! SUPPORT. Small tests: the WellFormed smoke, the decoding of one word of every command, one or two effects of each command
with the values that the spec gives (its examples and spec/95_test_vectors.md), and, for every obligation with
hypotheses, a state and operands that meet them. -/

open Sys2Proof Sys2Proof.Machine

namespace Sys2Proof.Tests

/-! ### WellFormed smoke: one ill-formed term for each check, the least value that the check refuses -/

theorem test_wf_sw_set_dw : (Instr.swSetDw 32#8 0#16).wellFormed = false := by decide
theorem test_wf_sw_set_dcw : (Instr.swSetDcw 32#8 0#16).wellFormed = false := by decide
theorem test_wf_sw_set_ht : (Instr.swSetHt 32#8 0#16).wellFormed = false := by decide
theorem test_wf_ind_set_target : (Instr.indSetTarget 16#8 0#32).wellFormed = false := by decide
theorem test_wf_ind_set_step : (Instr.indSetStep 16#8 0#32).wellFormed = false := by decide
theorem test_wf_ind_set_blink : (Instr.indSetBlink 16#8 0#16).wellFormed = false := by decide
theorem test_wf_rd_sys : (Instr.rdSys 7#16).wellFormed = false := by decide
theorem test_wf_rd_osc : (Instr.rdOsc 0#8 7#16).wellFormed = false := by decide
theorem test_wf_rd_sw_index : (Instr.rdSw 32#8 0#16).wellFormed = false := by decide
theorem test_wf_rd_sw_register : (Instr.rdSw 0#8 9#16).wellFormed = false := by decide
theorem test_wf_rd_ind_index : (Instr.rdInd 16#8 0#16).wellFormed = false := by decide
theorem test_wf_rd_ind_register : (Instr.rdInd 0#8 6#16).wellFormed = false := by decide
theorem test_wf_rd_buf : (Instr.rdBuf 0#1 0#1 65535#16).wellFormed = false := by decide
theorem test_wf_accepts_largest :
    (Instr.swSetDw 31#8 65535#16).wellFormed = true ∧ (Instr.indSetStep 15#8 0#32).wellFormed = true ∧
    (Instr.rdSw 31#8 8#16).wellFormed = true ∧ (Instr.rdInd 15#8 5#16).wellFormed = true ∧
    (Instr.rdOsc 255#8 6#16).wellFormed = true ∧ (Instr.rdBuf 1#1 1#1 65534#16).wellFormed = true := by decide

/-! ### Decoding: the words of the examples of the rules R170 to R288 -/

theorem test_decode_nop : decode 0x0000000000000000#64 = .ok .nop := by decide
theorem test_decode_sys_clr_err : decode 0x0000000001000000#64 = .ok .sysClrErr := by decide
theorem test_decode_osc_set_freq : decode 0x43DC000010000000#64 = .ok (.oscSetFreq 0#8 0x43DC0000#32) := by decide
theorem test_decode_osc_set_sr : decode 0x472C440011000000#64 = .ok (.oscSetSr 0#8 0x472C4400#32) := by decide
theorem test_decode_osc_set_wave : decode 0x0000000012010003#64 = .ok (.oscSetWave 1#8 .triangle) := by decide
theorem test_decode_osc_set_en : decode 0x0000000013010001#64 = .ok (.oscSetEn 1#8 true) := by decide
theorem test_decode_osc_tick_blep : decode 0x0000000014000000#64 = .ok (.oscTickBlep 0#8) := by decide
theorem test_decode_osc_tick_naive : decode 0x0000000015000000#64 = .ok (.oscTickNaive 0#8) := by decide
theorem test_decode_aud_period : decode 0x0000000020010002#64 = .ok (.audPeriod true 2#16) := by decide
theorem test_decode_ctl_poll : decode 0x0000000130000000#64 = .ok (.ctlPoll 1#32) := by decide
theorem test_decode_sw_set_dw : decode 0x0000000031000003#64 = .ok (.swSetDw 0#8 3#16) := by decide
theorem test_decode_sw_set_dcw : decode 0x000000003200000A#64 = .ok (.swSetDcw 0#8 10#16) := by decide
theorem test_decode_sw_set_ht : decode 0x0000000033000014#64 = .ok (.swSetHt 0#8 20#16) := by decide
theorem test_decode_ind_set_target : decode 0x3E80000040000000#64 = .ok (.indSetTarget 0#8 0x3E800000#32) := by decide
theorem test_decode_ind_set_step : decode 0x3DCCCCCD41000000#64 = .ok (.indSetStep 0#8 0x3DCCCCCD#32) := by decide
theorem test_decode_ind_set_blink : decode 0x0000000042000003#64 = .ok (.indSetBlink 0#8 3#16) := by decide
theorem test_decode_rd_sys : decode 0x0000000070000001#64 = .ok (.rdSys 1#16) := by decide
theorem test_decode_rd_osc : decode 0x0000000071000003#64 = .ok (.rdOsc 0#8 3#16) := by decide
theorem test_decode_rd_sw : decode 0x0000000072000005#64 = .ok (.rdSw 0#8 5#16) := by decide
theorem test_decode_rd_ind : decode 0x0000000073000001#64 = .ok (.rdInd 0#8 1#16) := by decide
theorem test_decode_rd_buf : decode 0x0000000074010001#64 = .ok (.rdBuf 0#1 1#1 1#16) := by decide
theorem test_decode_rd_buf_other_bank : decode 0x0000000074020001#64 = .ok (.rdBuf 1#1 0#1 1#16) := by decide
/-- The first and the last OP value of two unassigned ranges of R133. -/
theorem test_decode_unassigned :
    decode 0x0000000002000000#64 = .error .unassignedOpcode ∧ decode 0x00000000FF000000#64 = .error .unassignedOpcode ∧
    decode 0x0000000016000000#64 = .error .unassignedOpcode ∧ decode 0x0000000075000000#64 = .error .unassignedOpcode := by
  decide
/-- The sub-fields of R135, each with its lowest reserved bit set. -/
theorem test_decode_reserved :
    decode 0x0000000012000004#64 = .error .reservedField ∧ decode 0x0000000013000002#64 = .error .reservedField ∧
    decode 0x0000000020020000#64 = .error .reservedField ∧ decode 0x0000000070010000#64 = .error .reservedField ∧
    decode 0x0000000074040000#64 = .error .reservedField ∧ decode 0x0000000100000000#64 = .error .reservedField := by
  decide
/-- R93: bits 7:0 first. -/
theorem test_decode_bytes :
    decodeBytes [0x01#8, 0x00#8, 0x00#8, 0x13#8, 0x00#8, 0x00#8, 0x00#8, 0x00#8, 0xAA#8] =
      .ok (.oscSetEn 0#8 true, [0xAA#8]) ∧
    decodeBytes [0x01#8, 0x00#8, 0x00#8, 0x13#8] = .error .truncated := by decide
/-- R93: the DATA field and the response word, bits 7:0 first. -/
theorem test_word_bytes :
    wordBytes 0x43DC0000#32 = [0x00#8, 0x00#8, 0xDC#8, 0x43#8] ∧
    responseBytes { port := .cmd, word := 0x80000001#32 } = [0x01#8, 0x00#8, 0x00#8, 0x80#8] ∧
    takeWord [0x00#8, 0x00#8, 0xDC#8, 0x43#8, 0xAA#8] = some (0x43DC0000#32, [0xAA#8]) ∧
    takeWord [0x00#8, 0x00#8, 0xDC#8] = none ∧
    frameBytes { left := 0x00000001#32, right := 0x02000000#32 } =
      [0x01#8, 0x00#8, 0x00#8, 0x00#8, 0x00#8, 0x00#8, 0x00#8, 0x02#8] := by decide
theorem test_table_word :
    decodeTableWord 64 0x0000000020010002 = some (.audPeriod true 2#16) ∧ decodeTableWord 64 0x0000000002000000 = none := by
  decide
theorem test_fetch_word :
    (State.reset.withFetchWord 64 0x20010002).inputs = [.command .aud 0x0000000020010002#64] ∧
    (State.reset.withFetchWord 64 0x70000000).inputs = [.command .cmd 0x0000000070000000#64] := by decide

/-! ### Small states and what one command does to them -/

/-- One Saw voice at 440 Hz and SR 48000, one switch with DW = 1, DCW = 6, HT = 10 (the example of R230), one indicator
with TARGET 0.25 and STEP 0.1 (the example of R265), C = 2, DEBUG. -/
def smallStartUp : StartUp where
  voices := [ { wave := .saw, freq := 0x43DC0000#32, sr := 0x473B8000#32, en := true } ]
  switches := [ { dw := 1#16, dcw := 6#16, ht := 10#16 } ]
  indicators := [ { target := 0x3E800000#32, step := 0x3DCCCCCD#32, blink := 3#16 } ]
  capacity := 2
  build := .debug

/-- The small block after reset. -/
def small : State := State.ofStartUp smallStartUp

/-- The small block, about to run a command of the AUD port. -/
def smallAud : State := { small with port := .aud }

/-- The small block with one command waiting. -/
def waiting (p : Port) (w : Command) : State := { small with inputs := [.command p w] }

/-- Whether an outcome is a next state. -/
def isNext (o : Host.Outcome State Fault Refusal) : Bool :=
  match o with
  | .next _ => true
  | .fault _ => false
  | .refused _ => false

theorem exists_of_isNext {o : Host.Outcome State Fault Refusal} (h : isNext o = true) : ∃ t, o = .next t := by
  cases o with
  | next t => exact ⟨t, rfl⟩
  | fault _ => cases h
  | refused _ => cases h

/-- The state after a command on a port, if there is one. -/
def after (p : Port) (w : Command) (s : State) : Option State :=
  match runCommand p w s with
  | .next t => some t
  | .fault _ => none
  | .refused _ => none

/-- RESP of a command on a port. -/
def respOf (p : Port) (w : Command) (s : State) : Option Word :=
  ((after p w s).bind fun t => t.out.resp).map Response.word

/-- A field of voice 0 after a command on CMD. -/
def voice0 {α : Type} (f : Voice → α) (w : Command) (s : State) : Option α :=
  ((after .cmd w s).bind fun t => t.voices[0]?).map f

/-- A field of switch 0 after a command on CMD. -/
def switch0 {α : Type} (f : Switch → α) (w : Command) (s : State) : Option α :=
  ((after .cmd w s).bind fun t => t.switches[0]?).map f

/-- A field of indicator 0 after a command on CMD. -/
def indicator0 {α : Type} (f : Indicator → α) (w : Command) (s : State) : Option α :=
  ((after .cmd w s).bind fun t => t.indicators[0]?).map f

/-- R280: NOP answers 0 on both ports. -/
theorem test_nop : respOf .cmd 0#64 small = some 0#32 ∧ respOf .aud 0#64 small = some 0#32 := by decide
/-- The example of R281: after `rd.sys 9` STATUS reads 0x32, after `sys.clr_err` it reads 0. -/
theorem test_sys_clr_err :
    (after .cmd 0x0000000070000009#64 small).map statusWord = some 0x00000032#32 ∧
    ((after .cmd 0x0000000070000009#64 small).bind (after .cmd 0x0000000001000000#64)).map statusWord =
      some 0x00000000#32 := by decide
/-- The PINC of 880 Hz at 48000, V11 and P1 of spec/95_test_vectors.md. -/
theorem test_osc_set_freq : voice0 Voice.pinc 0x445C000010000000#64 small = some 0x3DEBE9A5#32 := by decide +kernel
/-- The example of R171. -/
theorem test_osc_set_sr : voice0 Voice.pinc 0x472C440011000000#64 small = some 0x3D80634A#32 := by decide +kernel
/-- R171: SR = 0 puts PINC at infinity, and the next tick faults. -/
theorem test_osc_set_sr_zero :
    voice0 Voice.pinc 0x0000000011000000#64 small = some 0x7F800000#32 ∧
    (after .cmd 0x0000000011000000#64 small).bind (after .cmd 0x0000000014000000#64) = none := by decide +kernel
theorem test_osc_set_wave : voice0 Voice.wave 0x0000000012000002#64 small = some .square := by decide +kernel
theorem test_osc_set_en : voice0 Voice.en 0x0000000013000000#64 small = some false := by decide +kernel
/-- V13: the first two polyBLEP Saw samples, and the example of R175. -/
theorem test_osc_tick_blep :
    respOf .cmd 0x0000000014000000#64 small = some 0x00000000#32 ∧
    ((after .cmd 0x0000000014000000#64 small).bind (respOf .cmd 0x0000000014000000#64)) = some 0xBF7B4E82#32 := by
  decide +kernel
/-- The example of R176. -/
theorem test_osc_tick_naive :
    respOf .cmd 0x0000000015000000#64 small = some 0xBF800000#32 ∧
    voice0 Voice.phase 0x0000000015000000#64 small = some 0x3D6BE9A5#32 := by decide +kernel
/-- A period of C frames: V13 gives the second frame. -/
theorem test_aud_period :
    ((after .aud 0x0000000020010002#64 small).map fun t => (bufWord t 0#1 0 0#1, bufWord t 0#1 1 1#1, outinfoWord t)) =
      some (0x00000000#32, 0xBF7B4E82#32, 0x80000002#32) := by decide +kernel
/-- R208: one frame too many halts a DEBUG block, RESP = 3, STATUS = 0x101. -/
theorem test_aud_period_capacity :
    respOf .aud 0x0000000020010003#64 small = some 3#32 ∧
    (after .aud 0x0000000020010003#64 small).map statusWord = some 0x00000101#32 := by decide +kernel
/-- The example of R230. -/
theorem test_ctl_poll :
    switch0 (fun x => (x.deb, x.state, x.pressT, x.event)) 0x0000000130000000#64 small =
      some (true, .pressed, 0#32, .none) ∧
    (after .cmd 0x0000000130000000#64 small).map State.now = some 1#32 := by decide +kernel
/-- The first poll of the example of R265, and of the example of R266. -/
theorem test_ctl_poll_indicator :
    indicator0 (fun x => (x.cur, x.on, x.bcnt)) 0x0000000030000000#64 small = some (0x3DCCCCCD#32, true, 1#16) := by
  decide +kernel
theorem test_sw_set_dw : switch0 Switch.dw 0x0000000031000003#64 small = some 3#16 := by decide +kernel
theorem test_sw_set_dcw : switch0 Switch.dcw 0x000000003200000A#64 small = some 10#16 := by decide +kernel
theorem test_sw_set_ht : switch0 Switch.ht 0x0000000033000014#64 small = some 20#16 := by decide +kernel
/-- The example of R264: 2.0 is clamped to 1.0. -/
theorem test_ind_set_target : indicator0 Indicator.target 0x4000000040000000#64 small = some 0x3F800000#32 := by
  decide +kernel
/-- R263: a NaN step is clamped to +0.0. -/
theorem test_ind_set_step : indicator0 Indicator.step 0x7FC0000041000000#64 small = some 0x00000000#32 := by
  decide +kernel
theorem test_ind_set_blink : indicator0 Indicator.blink 0x0000000042000007#64 small = some 7#16 := by decide +kernel
/-- CAPS and BLKCAP of one voice, one switch, one indicator, C = 2, DEBUG (R51, R52). -/
theorem test_rd_sys :
    respOf .cmd 0x0000000070000000#64 small = some 0x80000000#32 ∧
    respOf .cmd 0x0000000070000001#64 small = some 0x00000002#32 := by decide +kernel
/-- The example of R285. -/
theorem test_rd_osc : respOf .cmd 0x0000000071000003#64 small = some 0x3D6BE9A5#32 := by decide +kernel
theorem test_rd_sw : respOf .cmd 0x0000000072000008#64 small = some 10#32 := by decide +kernel
theorem test_rd_ind : respOf .cmd 0x0000000073000001#64 small = some 0x3E800000#32 := by decide +kernel
theorem test_rd_buf :
    (after .aud 0x0000000020010002#64 small).bind (respOf .cmd 0x0000000074010001#64) = some 0xBF7B4E82#32 := by
  decide +kernel
/-- R132: a word that is on the wrong port and has a reserved bit set records WRONG_PORT (V40). -/
theorem test_check_order :
    (after .aud 0x0000000012000004#64 small).map statusWord = some 0x00000042#32 ∧
    (after .cmd 0x0000000012050004#64 small).map statusWord = some 0x00000022#32 := by decide +kernel
theorem test_reset_memory : Memory.wf State.reset.mem := by decide
/-- The example of R284 with the standard configuration. -/
theorem test_reset_caps : capsWord State.reset = 0x80000001#32 ∧ blkcapWord State.reset = 4#32 := by decide +kernel

/-! ### Numbers: rounding, overflow, subnormals, signed zeros (R20 to R22) -/

/-- 1 + 2^-24 is a tie and goes to the even 1.0; 1 + 3·2^-24 goes to the even 1 + 2^-22. -/
theorem test_add_ties_to_even :
    add32 0x3F800000#32 0x33800000#32 = 0x3F800000#32 ∧ add32 0x3F800001#32 0x33800000#32 = 0x3F800002#32 := by
  decide +kernel
/-- Overflow gives the infinity, subnormals are kept, and a sum of opposite values is +0.0. -/
theorem test_add_edges :
    add32 0x7F7FFFFF#32 0x7F7FFFFF#32 = 0x7F800000#32 ∧ mul32 0x00000001#32 0x3F800000#32 = 0x00000001#32 ∧
    sub32 0x3F800000#32 0x3F800000#32 = 0x00000000#32 ∧ add32 0x80000000#32 0x80000000#32 = 0x80000000#32 := by
  decide +kernel
/-- The products and quotients that have no value are the canonical NaN (R21). -/
theorem test_invalid_operations :
    mul32 0x7F800000#32 0x00000000#32 = 0x7FC00000#32 ∧ div32 0x00000000#32 0x80000000#32 = 0x7FC00000#32 ∧
    sub32 0x7F800000#32 0x7F800000#32 = 0x7FC00000#32 ∧ div32 0xBF800000#32 0x00000000#32 = 0xFF800000#32 := by
  decide +kernel
/-- The intermediate product of the example of R170. -/
theorem test_mul_example : mul32 0x43DC0000#32 0x40C90FDB#32 = 0x452CC9A0#32 := by decide +kernel

/-! ### Witnesses: for every obligation with hypotheses, a state and operands that meet them -/

/-- The small block after a capacity violation. -/
def smallHalted : State := { small with halted := true, haltCause := .capacityViolation }

/-- The voice of the small block with another phase, increment and waveform. -/
def voiceWith (w : Wave) (phase pinc : F32) : Voice :=
  { voiceAtReset { wave := w, freq := 0x43DC0000#32, sr := 0x473B8000#32, en := true } with
    phase := phase
    pinc := pinc }

/-- The switch of the small block with other run-time fields. -/
def switchWith (deb : Bool) (state : ClickState) (cnt : BitVec 16) (pressT : BitVec 32) : Switch :=
  { switchAtReset { dw := 2#16, dcw := 6#16, ht := 10#16 } with
    deb := deb
    state := state
    cnt := cnt
    pressT := pressT }

/-- The condition under which R234 accepts a change. -/
abbrev acceptedChange (raw : Bool) (x : Switch) : Prop :=
  raw ≠ x.deb ∧ max x.dw.toNat 1 ≤ min (x.cnt.toNat + 1) 65535

theorem witness_EncodeInvertsDecode : decode 0x0000000074030002#64 = .ok (.rdBuf 1#1 1#1 2#16) := by decide

theorem witness_UnassignedOpcodesAreIllegal :
    (parametersOk (waiting .cmd 0x02000000#64) = true ∧ opOf 0x02000000#64 ∉ assignedOps) ∧
    parametersOk (waiting .aud 0xFF000000#64) = true ∧ opOf 0xFF000000#64 ∉ assignedOps := by decide

theorem witness_DecodeChecksRunInOrder :
    opOf 0x02000000#64 ∉ assignedOps ∧
    (opOf 0x12000004#64 ∈ assignedOps ∧ onWrongPort (opOf 0x12000004#64) .aud) ∧
    (opOf 0x12050004#64 ∈ assignedOps ∧ ¬onWrongPort (opOf 0x12050004#64) .cmd ∧ ¬reservedFieldsZero 0x12050004#64) ∧
    (opOf 0x12010003#64 ∈ assignedOps ∧ ¬onWrongPort (opOf 0x12010003#64) .cmd ∧ reservedFieldsZero 0x12010003#64 ∧
      decode 0x12010003#64 = .ok (.oscSetWave 1#8 .triangle) ∧ ¬operandsInRange small (.oscSetWave 1#8 .triangle)) ∧
    (opOf 0x12000003#64 ∈ assignedOps ∧ ¬onWrongPort (opOf 0x12000003#64) .cmd ∧ reservedFieldsZero 0x12000003#64 ∧
      decode 0x12000003#64 = .ok (.oscSetWave 0#8 .triangle) ∧ operandsInRange small (.oscSetWave 0#8 .triangle)) := by
  refine ⟨by decide, ⟨by decide, by unfold onWrongPort; decide⟩, ⟨by decide, by unfold onWrongPort; decide, ?_⟩,
    ⟨by decide, by unfold onWrongPort; decide, ?_, by decide, by unfold operandsInRange; decide⟩,
    ⟨by decide, by unfold onWrongPort; decide, ?_, by decide, by unfold operandsInRange; decide⟩⟩
  · show ¬(dataOf 0x12050004#64 = 0#32 ∧ (opOf 0x12050004#64 = 0x12#8 → (immOf 0x12050004#64).toNat < 4) ∧
      (opOf 0x12050004#64 = 0x13#8 → (immOf 0x12050004#64).toNat < 2))
    decide
  · show dataOf 0x12010003#64 = 0#32 ∧ (opOf 0x12010003#64 = 0x12#8 → (immOf 0x12010003#64).toNat < 4) ∧
      (opOf 0x12010003#64 = 0x13#8 → (immOf 0x12010003#64).toNat < 2)
    decide
  · show dataOf 0x12000003#64 = 0#32 ∧ (opOf 0x12000003#64 = 0x12#8 → (immOf 0x12000003#64).toNat < 4) ∧
      (opOf 0x12000003#64 = 0x13#8 → (immOf 0x12000003#64).toNat < 2)
    decide

theorem witness_CommandsOnTheWrongPortAreIllegal :
    (parametersOk (waiting .cmd 0x20010002#64) = true ∧
      (waiting .cmd 0x20010002#64).inputs = .command .cmd 0x20010002#64 :: [] ∧ opOf 0x20010002#64 ∈ assignedOps ∧
      onWrongPort (opOf 0x20010002#64) .cmd) ∧ small.port = .cmd ∧ smallAud.port = .aud ∧ Instr.ctlPoll 0#32 ≠ .nop ∧
    ∀ r n, Instr.ctlPoll 0#32 ≠ .audPeriod r n := by
  refine ⟨⟨by decide, rfl, by decide, by unfold onWrongPort; decide⟩, rfl, rfl, by decide, fun r n h => by cases h⟩

/-- Every kind of range at the least value out of it. -/
theorem witness_OutOfRangeOperandsAreIllegal :
    ¬onWrongPort (opcode (.oscTickBlep 1#8)) small.port ∧ ¬operandsInRange small (.oscTickBlep 1#8) ∧
    ¬operandsInRange small (.swSetDw 1#8 0#16) ∧ ¬operandsInRange small (.indSetBlink 1#8 0#16) ∧
    ¬operandsInRange small (.rdSys 7#16) ∧ ¬operandsInRange small (.rdOsc 0#8 7#16) ∧
    ¬operandsInRange small (.rdSw 0#8 9#16) ∧ ¬operandsInRange small (.rdInd 0#8 6#16) ∧
    ¬operandsInRange small (.rdBuf 0#1 0#1 2#16) ∧
    smallAud.port = .aud ∧ ∃ t, exec (.audPeriod true 65535#16) { smallAud with halted := true } = .next t := by
  unfold onWrongPort operandsInRange
  exact ⟨by decide, by decide, by decide, by decide, by decide, by decide, by decide, by decide, by decide, rfl,
    exists_of_isNext (by decide)⟩

theorem witness_InputsRunOneAtATime :
    (∃ t, step (waiting .aud 0x20010002#64) = .next t) ∧ parametersOk small = true ∧ small.inputs = [] :=
  ⟨exists_of_isNext (by decide +kernel), by decide⟩

theorem witness_StepRunsTheDecodedCommand :
    parametersOk (waiting .aud 0x20010002#64) = true ∧
    (waiting .aud 0x20010002#64).inputs = .command .aud 0x20010002#64 :: [] ∧
    decode 0x20010002#64 = .ok (.audPeriod true 2#16) := ⟨by decide, rfl, by decide⟩

/-- A SET command, a read, and an illegal read, each answering a next state. -/
theorem witness_SetAndReadCommandsAreIdempotent :
    (∃ t, exec (.indSetBlink 0#8 5#16) small = .next t) ∧ (∃ t, exec (.rdSys 2#16) small = .next t) ∧
    ∃ t, exec (.rdSys 7#16) small = .next t :=
  ⟨exists_of_isNext (by decide +kernel), exists_of_isNext (by decide +kernel), exists_of_isNext (by decide +kernel)⟩

theorem witness_ResetSetsEveryRegister :
    parametersOk { smallHalted with inputs := [.reset] } = true ∧
    ({ smallHalted with inputs := [.reset] } : State).inputs = .reset :: [] := ⟨by decide, rfl⟩

theorem witness_NopAndClearErrorComplete : small.port = .cmd := rfl

/-- The last frame of the bank. -/
theorem witness_SystemAndBufferReadsAnswer : small.port = .cmd ∧ (1#16).toNat < small.capacity := by decide

theorem witness_UnitReadsAnswer :
    small.port = .cmd ∧ (∃ x, small.voices[(0#8).toNat]? = some x) ∧ (∃ x, small.switches[(0#8).toNat]? = some x) ∧
    ∃ x, small.indicators[(0#8).toNat]? = some x := ⟨rfl, ⟨_, rfl⟩, ⟨_, rfl⟩, ⟨_, rfl⟩⟩

theorem witness_CapsAndBlkcapReportTheParameters :
    parametersOk small = true ∧ ∃ t, step { smallHalted with inputs := [.reset] } = .next t :=
  ⟨by decide, exists_of_isNext (by decide +kernel)⟩

/-- 2^24 + 1 units lie in the middle of two magnitudes; the greatest finite value, both zeros, a subnormal and the two
infinities meet the premises of the four operations. -/
theorem witness_RoundingIsToNearestEven :
    (roundMag (2 ^ 24 + 1) 1 < infMag ∧ roundMag (2 ^ 24 + 1) 1 + 1 < infMag ∧
      distance (2 ^ 24 + 1) (unitsOfMag (roundMag (2 ^ 24 + 1) 1) * 1) =
        distance (2 ^ 24 + 1) (unitsOfMag (roundMag (2 ^ 24 + 1) 1 + 1) * 1)) ∧
    (magOf 0x7F7FFFFF#32 < infMag ∧ magOf 0x80000001#32 < infMag ∧
      signedUnits 0x7F7FFFFF#32 + signedUnits 0x80000001#32 ≠ 0 ∧ magOf 0x80000001#32 ≠ 0) ∧
    (signedUnits 0x80000000#32 - signedUnits 0x00000000#32 = 0 ∧ signOf 0x80000000#32 = true ∧
      signOf 0x00000000#32 = false ∧ magOf 0x80000000#32 = 0) ∧
    (isInf 0xFF800000#32 = true ∧ isInf 0x7F800000#32 = true ∧ signOf 0xFF800000#32 ≠ signOf 0x7F800000#32 ∧
      isNaN 0x80000001#32 = false) := by decide +kernel

theorem witness_ComparisonsOrderTheValues :
    (magOf 0xBF800000#32 < infMag ∧ magOf 0x00000001#32 < infMag) ∧ isNaN 0x7F800001#32 = true ∧
    isNaN 0x7F800000#32 = false ∧ isNaN 0xFF7FFFFF#32 = false := by decide

theorem witness_NanResultsAreCanonical :
    (isInf 0x7F800000#32 = true ∧ isInf 0xFF800000#32 = true ∧ signOf 0x7F800000#32 ≠ signOf 0xFF800000#32 ∧
      magOf 0x80000000#32 = 0) ∧
    isNaN (add32 0x7F800000#32 0xFF800000#32) = true ∧ isNaN (sub32 0x7F800000#32 0x7F800000#32) = true ∧
    isNaN (mul32 0x00000000#32 0xFF800000#32) = true ∧ isNaN (div32 0x00000000#32 0x00000000#32) = true ∧
    small.port = .cmd ∧ (0#8).toNat < small.voices.length ∧ isNaN 0xFF800001#32 = true := by decide +kernel

theorem witness_VoiceWritesComplete : small.port = .cmd ∧ ∃ x, small.voices[(0#8).toNat]? = some x := ⟨rfl, _, rfl⟩

theorem witness_FrequencyAndRateOrderIsIrrelevant : small.port = .cmd ∧ (0#8).toNat < small.voices.length := by decide

/-- The voice after reset, the last phase of the cycle with the greatest increment in domain, and every branch of the
correction and of the falling edge. -/
theorem witness_TicksComplete :
    ((small.port = .cmd ∧ small.halted = false ∧
      ∃ x, small.voices[(0#8).toNat]? = some x ∧ inOperatingDomain x) ∧
    inOperatingDomain (voiceWith .saw 0x40C90FDA#32 0x40C90FDA#32)) ∧
    gt32 0x80000000#32 0x00000000#32 = false ∧
    (gt32 0x3C160000#32 0x00000000#32 = true ∧ lt32 0x3C15FFFF#32 0x3C160000#32 = true ∧
      lt32 0x3C160000#32 0x3C160000#32 = false ∧
      gt32 0x3F7FFFFF#32 (sub32 0x3F800000#32 0x3C160000#32) = true ∧
      gt32 0x3F000000#32 (sub32 0x3F800000#32 0x3C160000#32) = false) ∧
    ge32 (add32 0x3EFFFFFF#32 0x3F000000#32) 0x3F800000#32 = true ∧
    ge32 (add32 0x3EFFFFFD#32 0x3F000000#32) 0x3F800000#32 = false := by
  refine ⟨⟨⟨rfl, rfl, _, rfl, ?_⟩, ?_⟩, by decide +kernel⟩ <;> unfold inOperatingDomain <;> decide +kernel

theorem witness_HaltedTicksDoNothing :
    smallHalted.port = .cmd ∧ (0#8).toNat < smallHalted.voices.length ∧ smallHalted.halted = true := by decide

/-- The sum of this phase and increment needs one subtraction. -/
theorem witness_PhaseAdvanceStaysInTheCycle :
    inOperatingDomain (voiceWith .saw 0x40C90FDA#32 0x40C90FDA#32) ∧
    (voiceWith .saw 0x40C90FDA#32 0x40C90FDA#32).phase ≠ 0x80000000#32 := by
  unfold inOperatingDomain; decide +kernel

theorem witness_StepsKeepPhaseAndIncrement :
    (∀ x ∈ (waiting .aud 0x20010002#64).voices, phaseOk x ∧ pincOk x) ∧
    ∃ t, step (waiting .aud 0x20010002#64) = .next t := by
  refine ⟨?_, exists_of_isNext (by decide +kernel)⟩
  unfold phaseOk pincOk; decide +kernel

theorem witness_ZeroIncrementRepeatsTheSample :
    (phaseOk (voiceWith .triangle 0x40490FDB#32 0x00000000#32) ∧
      magOf (voiceWith .triangle 0x40490FDB#32 0x00000000#32).pinc = 0) ∧
    phaseOk (voiceWith .saw 0x00000000#32 0x80000000#32) ∧
    magOf (voiceWith .saw 0x00000000#32 0x80000000#32).pinc = 0 := by
  unfold phaseOk; decide +kernel

/-- For the polyBLEP Saw: the least and the greatest increment that the rule takes. -/
theorem witness_NaiveAndSawSamplesStayInTheUnitRange :
    ((voiceWith .triangle 0x40C90FDA#32 0x3D6BE9A5#32).wave ≠ .sine ∧
      ∃ t, tickNaive (voiceWith .triangle 0x40C90FDA#32 0x3D6BE9A5#32) = some t) ∧
    (gt32 (voiceWith .saw 0x00000000#32 0x00000001#32).pinc zeroF = true ∧
      ∃ t, tickBlep (voiceWith .saw 0x00000000#32 0x00000001#32) = some t) ∧
    lt32 (voiceWith .saw 0x40C90FDA#32 0x40490FDA#32).pinc piF = true ∧
      ∃ t, tickBlep (voiceWith .saw 0x40C90FDA#32 0x40490FDA#32) = some t :=
  ⟨⟨by decide, Option.isSome_iff_exists.mp (by decide +kernel)⟩,
    ⟨by decide, Option.isSome_iff_exists.mp (by decide +kernel)⟩,
    by decide, Option.isSome_iff_exists.mp (by decide +kernel)⟩

theorem witness_HaltedPeriodDoesNothing :
    ({ smallHalted with port := .aud } : State).port = .aud ∧
    ({ smallHalted with port := .aud } : State).halted = true := ⟨rfl, rfl⟩

theorem witness_UnderrunOnlyCounts : smallAud.port = .aud ∧ smallAud.halted = false := ⟨rfl, rfl⟩

theorem witness_EmptyPeriodSubmitsAnEmptyBlock : smallAud.port = .aud ∧ smallAud.halted = false := ⟨rfl, rfl⟩

/-- n = C in DEBUG, and n = C + 1 in RELEASE. -/
theorem witness_ReadyPeriodSubmitsTheMixedBlock :
    (smallAud.port = .aud ∧ smallAud.halted = false ∧ Memory.wf smallAud.mem ∧ enabledInDomain smallAud ∧
      (2#16).toNat ≤ smallAud.capacity) ∧
    enabledInDomain { smallAud with build := .release } ∧
    ({ smallAud with build := .release } : State).build = .release := by
  unfold enabledInDomain inOperatingDomain
  refine ⟨⟨rfl, rfl, by decide, by decide +kernel, by decide⟩, by decide +kernel, rfl⟩

/-- n = C + 1. -/
theorem witness_CapacityViolationHaltsADebugBlock :
    smallAud.port = .aud ∧ smallAud.halted = false ∧ Memory.wf smallAud.mem ∧ enabledInDomain smallAud ∧
    smallAud.build = .debug ∧ smallAud.capacity < (3#16).toNat := by
  unfold enabledInDomain inOperatingDomain
  refine ⟨rfl, rfl, by decide, by decide +kernel, rfl, by decide⟩

/-- The small block with its voice disabled, about to run a command of the AUD port. -/
def smallQuiet : State := { smallAud with voices := smallAud.voices.map fun x => { x with en := false } }

theorem witness_DisabledVoicesKeepTheirPhase :
    (∃ t, exec (.audPeriod true 2#16) smallQuiet = .next t) ∧ ∃ x, smallQuiet.voices[0]? = some x ∧ x.en = false :=
  ⟨exists_of_isNext (by decide +kernel), _, rfl, rfl⟩

/-- The byte after the frame written, in the same bank, and a command that writes no buffer. -/
theorem witness_PeriodsWriteOnlyTheirOwnFrames :
    ((∃ t, exec (.audPeriod true 1#16) smallAud = .next t) ∧
      4 * bufAddr smallAud.capacity smallAud.wbank 0 0#1 + 8 * min (1#16).toNat smallAud.capacity ≤ 8) ∧
    (∀ r n, Instr.ctlPoll 1#32 ≠ .audPeriod r n) ∧ ∃ t, exec (.ctlPoll 1#32) small = .next t :=
  ⟨⟨exists_of_isNext (by decide +kernel), by decide⟩, fun r n h => (by cases h), exists_of_isNext (by decide +kernel)⟩

theorem witness_VoiceFieldsHaveOneOwner :
    (∃ t, exec (.oscSetFreq 0#8 0#32) small = .next t) ∧ (∃ t, exec (.oscTickBlep 0#8) small = .next t) ∧
    ∃ t, exec (.audPeriod true 3#16) smallAud = .next t :=
  ⟨exists_of_isNext (by decide +kernel), exists_of_isNext (by decide +kernel), exists_of_isNext (by decide +kernel)⟩

theorem witness_OnlyResetEndsTheHalt :
    (smallHalted.halted = true ∧ (∀ rest, smallHalted.inputs ≠ .reset :: rest) ∧ ∃ t, step smallHalted = .next t) ∧
    ∃ t, exec .sysClrErr smallHalted = .next t :=
  ⟨⟨rfl, fun rest h => (by cases h), exists_of_isNext (by decide +kernel)⟩, exists_of_isNext (by decide +kernel)⟩

theorem witness_CountersMoveOnlyByTheirCommands :
    (∃ t, exec (.ctlPoll 0#32) small = .next t) ∧ (∃ t, exec (.audPeriod false 0#16) smallAud = .next t) ∧
    ∃ t, exec (.audPeriod true 0#16) smallAud = .next t :=
  ⟨exists_of_isNext (by decide +kernel), exists_of_isNext (by decide +kernel), exists_of_isNext (by decide +kernel)⟩

/-- After a block of two frames in bank 0: the last frame may be read, the one after it and the other bank may not. -/
theorem witness_CollaboratorReadsTheSubmittedBlock :
    ((after .aud 0x20010002#64 small).map fun t => (t.valid, t.lastBank, t.outLen)) = some (true, 0#1, 2#16) ∧
    parametersOk { small with inputs := [.transferRead 0#1 0#16] } = true ∧ small.valid = false := by decide +kernel

theorem witness_StepsKeepTheMemoryCanonical :
    memoryOk (waiting .aud 0x20010002#64) ∧ ∃ t, step (waiting .aud 0x20010002#64) = .next t := by
  refine ⟨?_, exists_of_isNext (by decide +kernel)⟩
  unfold memoryOk; decide

theorem witness_StepsKeepRecordAndHandoff :
    recordOk (waiting .aud 0x20010003#64) ∧ handoffOk (waiting .aud 0x20010003#64) ∧
    ∃ t, step (waiting .aud 0x20010003#64) = .next t := by
  refine ⟨?_, ?_, exists_of_isNext (by decide +kernel)⟩
  · unfold recordOk; decide
  · unfold handoffOk; decide

theorem witness_PollCompletes : small.port = .cmd := rfl

/-- One switch for each clause, with DCW = 6 and HT = 10 met or missed by one poll. -/
theorem witness_SwitchStepFollowsTheTransitionTable :
    acceptedChange true (switchWith false .idle 1#16 0#32) ∧
    ¬acceptedChange true (switchWith false .idle 0#16 0#32) ∧ true ≠ (switchWith false .idle 0#16 0#32).deb ∧
    acceptedChange true (switchWith false .released 1#16 3#32) ∧ (8#32 - 3#32).toNat < (6#16).toNat ∧
    (6#16).toNat ≤ (9#32 - 3#32).toNat ∧
    acceptedChange false (switchWith true .pressed 1#16 3#32) ∧
    acceptedChange false (switchWith true .held 1#16 3#32) ∧
    ¬acceptedChange true (switchWith true .doubleClicked 0#16 0xFFFFFFFF#32) ∧
    (10#16).toNat ≤ (9#32 - 0xFFFFFFFF#32).toNat ∧ (8#32 - 0xFFFFFFFF#32).toNat < (10#16).toNat ∧
    ¬acceptedChange false (switchWith false .released 0#16 3#32) := by decide

theorem witness_StepsKeepTheSwitchInvariant :
    (∀ x ∈ (waiting .cmd 0x130000000#64).switches, switchOk x) ∧
    ∃ t, step (waiting .cmd 0x130000000#64) = .next t := by
  refine ⟨?_, exists_of_isNext (by decide +kernel)⟩
  unfold switchOk; decide +kernel

/-- A window of one poll, and the second poll of a window of two. -/
theorem witness_DebounceAcceptsAtTheWindow :
    (small.port = .cmd ∧ ∃ x, small.switches[0]? = some x ∧ x.cnt = 0#16 ∧ true ≠ x.deb ∧
      (∀ m ∈ [1#32], m.getLsbD 0 = true) ∧ [1#32].length = max x.dw.toNat 1) ∧
    [1#32, 1#32].length = max (switchWith false .idle 0#16 0#32).dw.toNat 1 :=
  ⟨⟨rfl, _, rfl, by decide, by decide, by simp, by decide⟩, by decide⟩

/-- The shortest press that must emit HELD: DW = 1 and HT = 10. -/
theorem witness_ContinuousPressEmitsOneHeld :
    small.port = .cmd ∧ ∃ x, small.switches[0]? = some x ∧ x.state = .idle ∧ x.deb = false ∧ x.cnt = 0#16 ∧
      (∀ m ∈ List.replicate 11 1#32, m.getLsbD 0 = true) ∧ (∀ m ∈ [0#32], m.getLsbD 0 = false) ∧
      max x.dw.toNat 1 + max x.ht.toNat 1 ≤ (List.replicate 11 1#32).length :=
  ⟨rfl, _, rfl, by decide, by decide, by decide, fun m hm => by rw [List.eq_of_mem_replicate hm]; decide,
    by simp, by decide⟩

/-- The shortest presses and gap with DW = 1, DCW = 6 and HT = 10, and the longest gap. -/
theorem witness_TwoShortPressesEmitOneDoubleClick :
    small.port = .cmd ∧ ∃ x, small.switches[0]? = some x ∧ x.state = .idle ∧ x.deb = false ∧ x.cnt = 0#16 ∧
      (∀ m ∈ [1#32] ++ [1#32], m.getLsbD 0 = true) ∧ (∀ m ∈ [0#32] ++ [0#32], m.getLsbD 0 = false) ∧
      max x.dw.toNat 1 ≤ [1#32].length ∧ max x.dw.toNat 1 ≤ [0#32].length ∧ [1#32].length < x.ht.toNat ∧
      [1#32].length + [0#32].length < x.dcw.toNat ∧ [1#32].length + [0#32, 0#32, 0#32, 0#32].length < x.dcw.toNat :=
  ⟨rfl, _, rfl, by decide, by decide, by decide, by simp, by simp, by decide, by decide, by decide, by decide, by decide⟩

theorem witness_ThresholdWritesComplete : small.port = .cmd ∧ ∃ x, small.switches[(0#8).toNat]? = some x :=
  ⟨rfl, _, rfl⟩

theorem witness_IndicatorWritesComplete : small.port = .cmd ∧ ∃ x, small.indicators[(0#8).toNat]? = some x :=
  ⟨rfl, _, rfl⟩

theorem witness_ClampLandsInTheUnitInterval :
    (isNaN 0xFFC00000#32 = true ∧ magOf 0x80000000#32 = 0 ∧ lt32 0x80000001#32 zeroF = true) ∧
    (gt32 0x3F800001#32 oneF = true ∧ gt32 0x7F800000#32 oneF = true) ∧
    (gt32 0x00000001#32 zeroF = true ∧ ge32 oneF 0x00000001#32 = true) ∧ ge32 oneF 0x3F800000#32 = true := by decide

theorem witness_StepsKeepTheIndicatorInvariant :
    (∀ x ∈ (waiting .cmd 0x130000000#64).indicators, indicatorOk x ∧ blinkOk x) ∧
    ∃ t, step (waiting .cmd 0x130000000#64) = .next t := by
  refine ⟨?_, exists_of_isNext (by decide +kernel)⟩
  unfold indicatorOk inUnit blinkOk; decide +kernel

/-- An indicator below, above and at its target. -/
theorem witness_BrightnessNeverOvershoots :
    (small.port = .cmd ∧ ∃ x, small.indicators[0]? = some x ∧ indicatorOk x ∧ lt32 x.cur x.target = true) ∧
    (indicatorOk { indicatorAtReset { target := 0#32, step := 0x3F800000#32, blink := 0#16 } with cur := 1#32 } ∧
      gt32 0x00000001#32 0x00000000#32 = true) ∧
    lt32 0x80000000#32 0x00000000#32 = false ∧ gt32 0x80000000#32 0x00000000#32 = false := by
  unfold indicatorOk inUnit
  exact ⟨⟨rfl, _, rfl, by decide +kernel, by decide +kernel⟩, by decide +kernel, by decide, by decide⟩

/-- BLINK = 3 with BCNT = 0 and with BCNT = 2, and BLINK = 0. -/
theorem witness_BlinkFollowsItsSchedule :
    (small.port = .cmd ∧ 6 < (List.replicate 7 0#32).length ∧
      ∃ x, small.indicators[0]? = some x ∧ x.bcnt.toNat < x.blink.toNat ∧
        (2#16).toNat < ({ x with bcnt := 2#16 } : Indicator).blink.toNat) ∧
    (indicatorAtReset { target := 0#32, step := 0#32, blink := 0#16 }).blink = 0#16 :=
  ⟨⟨rfl, by decide, _, rfl, by decide, by decide⟩, rfl⟩

end Sys2Proof.Tests
end

section
/-! Correct rounding (R20): the pattern that `roundMag` gives is a nearest one, the even one of two equally near, and the
infinity exactly from 2^128 − 2^103 up. -/

namespace Sys2Proof.Machine

/-! ### The pattern of a rounding that does not overflow -/

/-- The significand that `roundMag` rounds to (24 bits, or 2^24). -/
def significand (num den : Nat) : Nat := roundDiv num (den * 2 ^ shiftFor num den)

theorem roundMag_eq_min_significand (num den : Nat) :
    roundMag num den = min (shiftFor num den * 2 ^ 23 + significand num den) infMag :=
  roundMag_eq_min num den

/-- Below the infinity the pattern is a significand at an exponent. -/
theorem roundMag_eq_significand {num den : Nat} (h : roundMag num den < infMag) :
    roundMag num den = shiftFor num den * 2 ^ 23 + significand num den := by
  have hmin := roundMag_eq_min_significand num den
  omega

/-- Above the lowest exponent the significand has 24 bits. -/
theorem shiftFor_eq_zero_or_le_significand (num den : Nat) :
    shiftFor num den = 0 ∨ 2 ^ 23 ≤ significand num den :=
  (Nat.eq_zero_or_pos _).imp_right le_significand

/-- The magnitude of the rounded pattern. -/
theorem unitsOfMag_roundMag {num den : Nat} (h : roundMag num den < infMag) :
    unitsOfMag (roundMag num den) = significand num den * 2 ^ shiftFor num den := by
  rw [roundMag_eq_significand h]
  exact unitsOfMag_shift _ _ (significand_le num den) (shiftFor_eq_zero_or_le_significand num den)

/-- The exact magnitude reaches the lowest one of its exponent. -/
theorem binade_start_le {num den : Nat} (h : 0 < shiftFor num den) :
    2 ^ 23 * (den * 2 ^ shiftFor num den) ≤ num := by
  have hq : 2 ^ 24 ≤ num / den := by
    by_contra hlt
    exact h.ne' (shiftFor_eq_zero (by omega))
  have hspec := (shiftFor_spec hq).1
  calc 2 ^ 23 * (den * 2 ^ shiftFor num den)
      = 2 ^ (shiftFor num den + 23) * den := by ring
    _ ≤ num / den * den := Nat.mul_le_mul_right _ hspec
    _ ≤ num := Nat.div_mul_le_self num den

/-- The exact magnitude is below the lowest one of the next exponent. -/
theorem lt_binade_end (num : Nat) {den : Nat} (hden : 0 < den) :
    num < 2 ^ 24 * (den * 2 ^ shiftFor num den) := by
  have hq : num / den < 2 ^ (shiftFor num den + 24) := by
    rcases Nat.lt_or_ge (num / den) (2 ^ 24) with h | h
    · rwa [shiftFor_eq_zero h]
    · exact (shiftFor_spec h).2.1
  calc num < 2 ^ (shiftFor num den + 24) * den := (Nat.div_lt_iff_lt_mul hden).1 hq
    _ = 2 ^ 24 * (den * 2 ^ shiftFor num den) := by ring

/-! ### Neighbours of a significand at an exponent -/

/-- The next magnitude above is at least one unit of the last place away. -/
theorem add_ulp_le_unitsOfMag {sh q m : Nat} (hq : q ≤ 2 ^ 24) (hs : sh = 0 ∨ 2 ^ 23 ≤ q) (hm : m < infMag)
    (h : sh * 2 ^ 23 + q < m) : q * 2 ^ sh + 2 ^ sh ≤ unitsOfMag m := by
  rw [← Nat.succ_mul]
  rcases Nat.lt_or_ge q (2 ^ 24) with hlt | hge
  · rw [← unitsOfMag_shift sh (q + 1) hlt (by omega)]
    exact unitsOfMag_le hm (by omega)
  · -- the significand 2^24 is 2^23 at the next exponent, where the unit doubles
    calc (q + 1) * 2 ^ sh ≤ (2 ^ 23 + 1) * 2 * 2 ^ sh := Nat.mul_le_mul_right _ (by omega)
      _ = (2 ^ 23 + 1) * 2 ^ (sh + 1) := by ring
      _ = unitsOfMag ((sh + 1) * 2 ^ 23 + (2 ^ 23 + 1)) := (unitsOfMag_shift _ _ (by omega) (by omega)).symm
      _ ≤ unitsOfMag m := unitsOfMag_le hm (by omega)

/-- The next magnitude below is at least one unit of the last place away, but for the first significand of an exponent. -/
theorem unitsOfMag_add_ulp_le {sh q m : Nat} (hq : q ≤ 2 ^ 24) (hs : sh = 0 ∨ 2 ^ 23 < q)
    (hfin : sh * 2 ^ 23 + q < infMag) (h : m < sh * 2 ^ 23 + q) : unitsOfMag m + 2 ^ sh ≤ q * 2 ^ sh := by
  have hpos : 0 < q := by omega
  have hpred : unitsOfMag m ≤ (q - 1) * 2 ^ sh := by
    rw [← unitsOfMag_shift sh (q - 1) (by omega) (by omega)]
    exact unitsOfMag_le (by omega) (by omega)
  calc unitsOfMag m + 2 ^ sh ≤ (q - 1) * 2 ^ sh + 2 ^ sh := Nat.add_le_add_right hpred _
    _ = q * 2 ^ sh := by rw [← Nat.succ_mul, Nat.succ_eq_add_one, Nat.sub_add_cancel hpos]

/-- A finite magnitude other than the rounded one is a unit of the last place away from it, or it lies below the rounded
one and that is not above the exact magnitude. -/
theorem roundMag_neighbour {num den m : Nat} (hr : roundMag num den < infMag) (hm : m < infMag)
    (hne : m ≠ roundMag num den) :
    unitsOfMag (roundMag num den) + 2 ^ shiftFor num den ≤ unitsOfMag m ∨
    unitsOfMag m + 2 ^ shiftFor num den ≤ unitsOfMag (roundMag num den) ∨
    (unitsOfMag m < unitsOfMag (roundMag num den) ∧ unitsOfMag (roundMag num den) * den ≤ num) := by
  have hpat := roundMag_eq_significand hr
  have hq : significand num den ≤ 2 ^ 24 := significand_le num den
  have hsig := shiftFor_eq_zero_or_le_significand num den
  rw [unitsOfMag_roundMag hr]
  rcases Nat.lt_or_ge (roundMag num den) m with habove | hle
  · exact .inl (add_ulp_le_unitsOfMag hq hsig hm (hpat ▸ habove))
  have hbelow : m < roundMag num den := by omega
  by_cases hfirst : shiftFor num den = 0 ∨ 2 ^ 23 < significand num den
  · exact .inr (.inl (unitsOfMag_add_ulp_le hq hfirst (hpat ▸ hr) (hpat ▸ hbelow)))
  · have hlt := unitsOfMag_lt hr hbelow
    rw [unitsOfMag_roundMag hr] at hlt
    have hstart := binade_start_le (num := num) (den := den) (by omega)
    have hmin : significand num den = 2 ^ 23 := by omega
    refine .inr (.inr ⟨hlt, ?_⟩)
    rwa [hmin, Nat.mul_assoc, Nat.mul_comm (2 ^ shiftFor num den)]

/-! ### Nearest, ties to even -/

theorem unitsOfMag_roundMag_mul {num den : Nat} (hr : roundMag num den < infMag) :
    unitsOfMag (roundMag num den) * den = significand num den * (den * 2 ^ shiftFor num den) := by
  rw [unitsOfMag_roundMag hr]; ring

/-- The rounded magnitude is within half a unit of the last place of the exact one. -/
theorem roundMag_near {num den : Nat} (hden : 0 < den) (hr : roundMag num den < infMag) :
    2 * num ≤ 2 * (unitsOfMag (roundMag num den) * den) + den * 2 ^ shiftFor num den ∧
    2 * (unitsOfMag (roundMag num den) * den) ≤ 2 * num + den * 2 ^ shiftFor num den := by
  rw [unitsOfMag_roundMag_mul hr]
  exact roundDiv_near num (Nat.mul_pos hden (Nat.two_pow_pos _))

/-- Half a unit of the last place away from the exact magnitude, the rounded pattern is even. -/
theorem roundMag_tie {num den : Nat} (hden : 0 < den) (hr : roundMag num den < infMag)
    (h : 2 * num = 2 * (unitsOfMag (roundMag num den) * den) + den * 2 ^ shiftFor num den ∨
      2 * (unitsOfMag (roundMag num den) * den) = 2 * num + den * 2 ^ shiftFor num den) :
    roundMag num den % 2 = 0 := by
  rw [unitsOfMag_roundMag_mul hr] at h
  have heven : significand num den % 2 = 0 := roundDiv_tie (Nat.mul_pos hden (Nat.two_pow_pos _)) h
  rw [roundMag_eq_significand hr]
  omega

/-- No finite magnitude is nearer than the rounded one, and one that is equally near leaves the even pattern. -/
theorem roundMag_nearest {num den m : Nat} (hden : 0 < den) (hr : roundMag num den < infMag) (hm : m < infMag) :
    distance num (unitsOfMag (roundMag num den) * den) ≤ distance num (unitsOfMag m * den) ∧
    (m ≠ roundMag num den →
      distance num (unitsOfMag (roundMag num den) * den) = distance num (unitsOfMag m * den) →
      roundMag num den % 2 = 0) := by
  rcases eq_or_ne m (roundMag num den) with rfl | hne
  · exact ⟨Nat.le_refl _, fun h => absurd rfl h⟩
  have hnear := roundMag_near hden hr
  have htie := roundMag_tie hden hr
  unfold distance
  rcases roundMag_neighbour hr hm hne with habove | hbelow | ⟨hlt, hreach⟩
  · have hgap := Nat.mul_le_mul_right den habove
    rw [Nat.add_mul, Nat.mul_comm (2 ^ _)] at hgap
    exact ⟨by omega, fun _ heq => htie (by omega)⟩
  · have hgap := Nat.mul_le_mul_right den hbelow
    rw [Nat.add_mul, Nat.mul_comm (2 ^ _)] at hgap
    exact ⟨by omega, fun _ heq => htie (by omega)⟩
  · have hgap := Nat.mul_lt_mul_of_pos_right hlt hden
    exact ⟨by omega, fun _ heq => by omega⟩

/-! ### The limit of the infinity -/

/-- The limit in units of the half place at the greatest exponent. -/
theorem overflow_limit : 2 ^ 277 - 2 ^ 252 = (2 ^ 25 - 1) * 2 ^ 252 := by
  rw [show 277 = 25 + 252 from rfl, Nat.pow_add, Nat.sub_mul, Nat.one_mul]

/-- At the greatest exponent the significand carries exactly from half a unit below 2^24 up: 2^24 − 1 is odd, so the tie
carries. -/
theorem roundDiv_carries_iff {num half : Nat} (h : 0 < half) (hlt : roundDiv num (2 * half) ≤ 2 ^ 24) :
    roundDiv num (2 * half) = 2 ^ 24 ↔ (2 ^ 25 - 1) * half ≤ num := by
  have hnear := roundDiv_near num (den := 2 * half) (by omega)
  have htie := roundDiv_tie (num := num) (den := 2 * half) (by omega)
  constructor
  · intro he
    rw [he] at hnear
    omega
  · intro hle
    by_contra hne
    have hodd : roundDiv num (2 * half) = 2 ^ 24 - 1 := by
      by_contra hne'
      have hmul : roundDiv num (2 * half) * (2 * half) ≤ (2 ^ 24 - 2) * (2 * half) :=
        Nat.mul_le_mul_right _ (by omega)
      omega
    have heven := htie (.inl (by rw [hodd] at hnear ⊢; omega))
    omega

/-- Rounding gives the infinity exactly from 2^128 − 2^103 up. -/
theorem roundMag_eq_infMag_iff {num den : Nat} (hden : 0 < den) :
    roundMag num den = infMag ↔ (2 ^ 277 - 2 ^ 252) * den ≤ num := by
  have hmin := roundMag_eq_min_significand num den
  have hsig : significand num den ≤ 2 ^ 24 := significand_le num den
  have hnorm := shiftFor_eq_zero_or_le_significand num den
  rw [overflow_limit]
  rcases Nat.lt_trichotomy (shiftFor num den) 253 with hs | hs | hs
  · -- below the greatest exponent: even a significand of 2^24 is finite
    have hpow : 2 ^ 24 * (den * 2 ^ shiftFor num den) ≤ 2 ^ 24 * (den * 2 ^ 252) :=
      Nat.mul_le_mul_left _ (Nat.mul_le_mul_left _ (Nat.pow_le_pow_right (by omega) (by omega)))
    have hlt := lt_binade_end num hden
    rw [Nat.mul_assoc, Nat.mul_comm (2 ^ 252)]
    unfold infMag at *
    omega
  · -- at the greatest exponent: the infinity is the significand 2^24
    have hulp : den * 2 ^ shiftFor num den = 2 * (2 ^ 252 * den) := by
      rw [hs, Nat.pow_succ 2 252]; ring
    have hcarry := roundDiv_carries_iff (num := num) (half := 2 ^ 252 * den)
      (Nat.mul_pos (Nat.two_pow_pos _) hden) (hulp ▸ hsig)
    rw [Nat.mul_assoc, ← hcarry, ← hulp]
    change _ ↔ significand num den = 2 ^ 24
    unfold infMag at *
    omega
  · -- above it: every significand is too great
    have hpow : 2 ^ 23 * (den * (2 ^ 2 * 2 ^ 252)) ≤ 2 ^ 23 * (den * 2 ^ shiftFor num den) := by
      rw [← Nat.pow_add]
      exact Nat.mul_le_mul_left _ (Nat.mul_le_mul_left _ (Nat.pow_le_pow_right (by omega) hs))
    have hle := binade_start_le (num := num) (den := den) (by omega)
    rw [Nat.mul_left_comm den] at hpow
    rw [Nat.mul_assoc, Nat.mul_comm (2 ^ 252)]
    unfold infMag at *
    omega

/-- Rounding is correct in the sense of R20. -/
theorem roundMag_correctlyRounded (num : Nat) {den : Nat} (h : 0 < den) :
    correctlyRounded num den (roundMag num den) :=
  ⟨roundMag_eq_infMag_iff h, roundMag_le_infMag num den, fun hr _ hm => roundMag_nearest h hr hm⟩

end Sys2Proof.Machine
end

section
/-! What the operations of R20 to R22 answer beyond two finite operands: NaN and infinite operands, a zero divisor, and
when the answer is a NaN. -/

namespace Sys2Proof.Machine

/-! ### Kinds of value -/

theorem isNaN_eq_false_iff (x : F32) : isNaN x = false ↔ magOf x ≤ infMag := by simp [isNaN]

theorem isInf_iff (x : F32) : isInf x = true ↔ magOf x = infMag := by simp [isInf]

theorem isNaN_of_isInf {x : F32} (h : isInf x = true) : isNaN x = false :=
  isNaN_eq_false (Nat.le_of_eq ((isInf_iff x).1 h))

theorem isNaN_of_finite {x : F32} (h : magOf x < infMag) : isNaN x = false := isNaN_eq_false (Nat.le_of_lt h)

theorem magOf_packF_infMag (neg : Bool) : magOf (packF neg infMag) = infMag := magOf_packF neg infMag_lt

theorem isNaN_packF {neg : Bool} {m : Nat} (h : m ≤ infMag) : isNaN (packF neg m) = false :=
  isNaN_eq_false (by rw [magOf_packF neg (Nat.lt_of_le_of_lt h infMag_lt)]; exact h)

/-- A pattern made with the sign of a product has that sign. -/
theorem signOfProduct_packF (a b : F32) {m : Nat} (h : m ≤ infMag) :
    signOfProduct a b (packF (signOf a != signOf b) m) :=
  signOf_packF _ (Nat.lt_of_le_of_lt h infMag_lt)

/-! ### NaN operands (R21) -/

theorem add32_of_isNaN {a b : F32} (h : isNaN a = true ∨ isNaN b = true) : add32 a b = canonicalNaN :=
  if_pos (by simpa using h)

theorem sub32_of_isNaN {a b : F32} (h : isNaN a = true ∨ isNaN b = true) : sub32 a b = canonicalNaN :=
  add32_of_isNaN (by simpa using h)

theorem mul32_of_isNaN {a b : F32} (h : isNaN a = true ∨ isNaN b = true) : mul32 a b = canonicalNaN :=
  if_pos (by simpa using h)

theorem div32_of_isNaN {a b : F32} (h : isNaN a = true ∨ isNaN b = true) : div32 a b = canonicalNaN :=
  if_pos (by simpa using h)

/-! ### Infinite operands -/

/-- An infinity is the sum unless the other term is a NaN or the opposite infinity. -/
theorem add32_inf_left {a b : F32} (ha : isInf a = true) (hb : isNaN b = false)
    (h : isInf b = true → signOf a = signOf b) : add32 a b = a := by
  simp only [add32, isNaN_of_isInf ha, hb, ha, Bool.or_false, Bool.false_eq_true, if_false, if_true]
  exact if_neg (by simpa using h)

/-- An infinity is the sum with a finite first term. -/
theorem add32_inf_right {a b : F32} (ha : isInf a = true) (hb : magOf b < infMag) : add32 b a = a := by
  simp [add32, isNaN_of_isInf ha, isNaN_of_finite hb, ha, isInf_eq_false hb]

/-- Opposite infinities have no sum. -/
theorem add32_opposite_inf {a b : F32} (ha : isInf a = true) (hb : isInf b = true) (h : signOf a ≠ signOf b) :
    add32 a b = canonicalNaN := by
  simp [add32, isNaN_of_isInf ha, isNaN_of_isInf hb, ha, hb, h]

/-- The product with an infinity, of numbers that are not zero. -/
theorem mul32_inf {a b : F32} (hinf : isInf a = true ∨ isInf b = true) (ha : isNaN a = false) (hb : isNaN b = false)
    (ha0 : magOf a ≠ 0) (hb0 : magOf b ≠ 0) : mul32 a b = packF (signOf a != signOf b) infMag := by
  have hinf' : (isInf a || isInf b) = true := by simpa using hinf
  simp [mul32, ha, hb, hinf', ha0, hb0]

/-- The product of an infinity and a zero has no value. -/
theorem mul32_inf_zero {a b : F32} (hinf : isInf a = true ∨ isInf b = true) (ha : isNaN a = false)
    (hb : isNaN b = false) (h0 : magOf a = 0 ∨ magOf b = 0) : mul32 a b = canonicalNaN := by
  have hinf' : (isInf a || isInf b) = true := by simpa using hinf
  simp [mul32, ha, hb, hinf', h0]

/-- An infinity over a finite number. -/
theorem div32_inf_left {a b : F32} (ha : isInf a = true) (hb : magOf b < infMag) :
    div32 a b = packF (signOf a != signOf b) infMag := by
  simp [div32, isNaN_of_isInf ha, isNaN_of_finite hb, ha, isInf_eq_false hb]

/-- A finite number over an infinity. -/
theorem div32_inf_right {a b : F32} (ha : isInf a = true) (hb : magOf b < infMag) :
    div32 b a = packF (signOf b != signOf a) 0 := by
  simp [div32, isNaN_of_isInf ha, isNaN_of_finite hb, ha, isInf_eq_false hb]

/-- The quotient of two infinities has no value. -/
theorem div32_inf_inf {a b : F32} (ha : isInf a = true) (hb : isInf b = true) : div32 a b = canonicalNaN := by
  simp [div32, isNaN_of_isInf ha, isNaN_of_isInf hb, ha, hb]

/-! ### Zero divisors -/

/-- A finite number that is not zero over a zero. -/
theorem div32_by_zero {a b : F32} (ha : magOf a < infMag) (ha0 : magOf a ≠ 0) (hb : magOf b = 0) :
    div32 a b = packF (signOf a != signOf b) infMag := by
  have hb' : magOf b < infMag := hb ▸ (by decide)
  simp [div32, isNaN_of_finite ha, isNaN_of_finite hb', isInf_eq_false ha, isInf_eq_false hb', ha0, hb]

/-- Zero over zero has no value. -/
theorem div32_zero_zero {a b : F32} (ha : magOf a = 0) (hb : magOf b = 0) : div32 a b = canonicalNaN := by
  have ha' : magOf a < infMag := ha ▸ (by decide)
  have hb' : magOf b < infMag := hb ▸ (by decide)
  simp [div32, isNaN_of_finite ha', isNaN_of_finite hb', isInf_eq_false ha', isInf_eq_false hb', ha, hb]

/-! ### The only NaN that an operation answers (R21) -/

theorem add32_isNaN (a b : F32) (h : isNaN (add32 a b) = true) : add32 a b = canonicalNaN := by
  revert h
  unfold add32
  split_ifs with _ ha _ hb
  · exact fun _ => rfl
  · exact fun _ => rfl
  · intro h; simp [isNaN_of_isInf ha] at h
  · intro h; simp [isNaN_of_isInf hb] at h
  · intro h; simp [isNaN_eq_false (magOf_packSum_le _ _)] at h

theorem sub32_isNaN (a b : F32) (h : isNaN (sub32 a b) = true) : sub32 a b = canonicalNaN := add32_isNaN a (negF b) h

theorem mul32_isNaN (a b : F32) (h : isNaN (mul32 a b) = true) : mul32 a b = canonicalNaN := by
  revert h
  unfold mul32
  dsimp only
  split_ifs
  · exact fun _ => rfl
  · exact fun _ => rfl
  · intro h; simp [isNaN_packF (Nat.le_refl infMag)] at h
  · intro h; simp [isNaN_packF (roundMag_le_infMag _ _)] at h

theorem div32_isNaN (a b : F32) (h : isNaN (div32 a b) = true) : div32 a b = canonicalNaN := by
  revert h
  unfold div32
  dsimp only
  split_ifs
  · exact fun _ => rfl
  · exact fun _ => rfl
  · intro h; simp [isNaN_packF (Nat.le_refl infMag)] at h
  · intro h; simp [isNaN_packF (Nat.zero_le infMag)] at h
  · exact fun _ => rfl
  · intro h; simp [isNaN_packF (Nat.le_refl infMag)] at h
  · intro h; simp [isNaN_packF (roundMag_le_infMag _ _)] at h

/-! ### Sums and differences -/

/-- The pattern of an exact sum is that sum rounded. -/
theorem packSum_roundedSum (bothNeg : Bool) (z : Int) : roundedSum z (bothNeg = true) (packSum bothNeg z) := by
  unfold roundedSum packSum
  refine ⟨fun hz => ?_, ?_, ?_⟩
  · rw [if_neg hz, signOf_packF_roundMag, magOf_packF_roundMag]
    exact ⟨rfl, roundMag_correctlyRounded _ Nat.one_pos⟩
  · rintro rfl rfl
    rfl
  · rintro rfl hneg
    rw [Bool.eq_false_of_not_eq_true hneg]
    rfl

theorem add32_roundedSum {a b : F32} (ha : magOf a < infMag) (hb : magOf b < infMag) :
    roundedSum (signedUnits a + signedUnits b) (signOf a = true ∧ signOf b = true) (add32 a b) := by
  rw [add32_finite ha hb, ← Bool.and_eq_true]
  exact packSum_roundedSum _ _

theorem sub32_roundedSum {a b : F32} (ha : magOf a < infMag) (hb : magOf b < infMag) :
    roundedSum (signedUnits a - signedUnits b) (signOf a = true ∧ signOf b = false) (sub32 a b) := by
  have h := add32_roundedSum ha (b := negF b) (by rwa [magOf_negF])
  rwa [signedUnits_negF, ← Int.sub_eq_add_neg, signOf_negF, Bool.not_eq_true'] at h

/-! ### Products and quotients -/

theorem mul32_correctlyRounded {a b : F32} (ha : magOf a < infMag) (hb : magOf b < infMag) :
    signOfProduct a b (mul32 a b) ∧ correctlyRounded (unitsOf a * unitsOf b) (2 ^ 149) (magOf (mul32 a b)) := by
  rw [mul32_finite ha hb, magOf_packF_roundMag]
  exact ⟨signOfProduct_packF a b (roundMag_le_infMag _ _), roundMag_correctlyRounded _ (Nat.two_pow_pos 149)⟩

theorem unitsOf_pos {x : F32} (hx : magOf x < infMag) (h0 : magOf x ≠ 0) : 0 < unitsOf x :=
  unitsOfMag_zero ▸ unitsOfMag_lt hx (Nat.pos_of_ne_zero h0)

theorem div32_correctlyRounded {a b : F32} (ha : magOf a < infMag) (hb : magOf b < infMag) (h0 : magOf b ≠ 0) :
    signOfProduct a b (div32 a b) ∧ correctlyRounded (unitsOf a * 2 ^ 149) (unitsOf b) (magOf (div32 a b)) := by
  rw [div32_finite ha hb h0, magOf_packF_roundMag]
  exact ⟨signOfProduct_packF a b (roundMag_le_infMag _ _), roundMag_correctlyRounded _ (unitsOf_pos hb h0)⟩

/-- A result packed as an infinity with the sign of a product. -/
theorem signOfProduct_inf (a b : F32) :
    signOfProduct a b (packF (signOf a != signOf b) infMag) ∧ magOf (packF (signOf a != signOf b) infMag) = infMag :=
  ⟨signOfProduct_packF a b (Nat.le_refl _), magOf_packF_infMag _⟩

end Sys2Proof.Machine
end

section
/-! The comparisons of R22 as an order of the values. -/

namespace Sys2Proof.Machine

/-! ### The order of the values -/

theorem unitsOf_lt_iff {a b : F32} (ha : magOf a < infMag) (hb : magOf b < infMag) :
    unitsOf a < unitsOf b ↔ magOf a < magOf b :=
  ⟨fun h => by by_contra hle; exact absurd (unitsOfMag_le ha (Nat.le_of_not_lt hle)) (Nat.not_le_of_lt h),
    unitsOfMag_lt hb⟩

theorem unitsOf_eq_zero_iff {x : F32} (hx : magOf x < infMag) : unitsOf x = 0 ↔ magOf x = 0 :=
  ⟨fun h => by by_contra h0; exact (unitsOf_pos hx h0).ne' h, fun h => by rw [unitsOf, h, unitsOfMag_zero]⟩

/-- Finite values are ordered as their places in the order of binary32. -/
theorem orderOf_lt_iff {a b : F32} (ha : magOf a < infMag) (hb : magOf b < infMag) :
    orderOf a < orderOf b ↔ signedUnits a < signedUnits b := by
  have hab := unitsOf_lt_iff ha hb
  have hba := unitsOf_lt_iff hb ha
  have ha0 := unitsOf_eq_zero_iff ha
  have hb0 := unitsOf_eq_zero_iff hb
  unfold orderOf signedUnits
  cases signOf a <;> cases signOf b <;> simp only [Bool.false_eq_true, if_true, if_false] <;> omega

/-- A value other than NaN lies between the infinities. -/
theorem orderOf_bounds {x : F32} (h : isNaN x = false) : -(infMag : Int) ≤ orderOf x ∧ orderOf x ≤ infMag := by
  have hmag := (isNaN_eq_false_iff x).1 h
  unfold orderOf
  split <;> omega

/-- A value other than the zeros is known by its place in the order. -/
theorem eq_of_orderOf_eq {x y : F32} (h : orderOf x = orderOf y) (h0 : magOf y ≠ 0) : x = y := by
  unfold orderOf at h
  cases hx : signOf x <;> cases hy : signOf y <;> simp only [hx, hy, Bool.false_eq_true, if_true, if_false] at h
  · exact f32_ext (hx.trans hy.symm) (by omega)
  · omega
  · omega
  · exact f32_ext (hx.trans hy.symm) (by omega)

theorem orderOf_posInf : orderOf 0x7F800000#32 = infMag := by decide

theorem orderOf_negInf : orderOf 0xFF800000#32 = -(infMag : Int) := by decide

/-! ### The comparisons -/

theorem ordered_of_not_isNaN {a b : F32} (ha : isNaN a = false) (hb : isNaN b = false) : ordered a b = true := by
  simp [ordered, ha, hb]

theorem ordered_of_isNaN {a b : F32} (h : isNaN a = true ∨ isNaN b = true) : ordered a b = false := by
  rcases h with h | h <;> simp [ordered, h]

theorem lt32_iff {a b : F32} (ha : isNaN a = false) (hb : isNaN b = false) :
    lt32 a b = true ↔ orderOf a < orderOf b := by
  simp [lt32, ordered_of_not_isNaN ha hb]

theorem gt32_eq_lt32 (a b : F32) : gt32 a b = lt32 b a := by
  simp only [gt32, lt32, ordered, Bool.and_comm]

theorem ge32_eq_not_lt32 {a b : F32} (ha : isNaN a = false) (hb : isNaN b = false) : ge32 a b = !lt32 a b := by
  rw [ge32, lt32, ordered_of_not_isNaN ha hb, Bool.true_and, Bool.true_and, ← decide_not]
  exact decide_eq_decide.2 Int.not_lt.symm

/-- A comparison with a NaN is false. -/
theorem comparisons_of_isNaN {a b : F32} (h : isNaN a = true ∨ isNaN b = true) :
    lt32 a b = false ∧ gt32 a b = false ∧ ge32 a b = false := by
  simp [lt32, gt32, ge32, ordered_of_isNaN h]

theorem lt32_finite_iff {a b : F32} (ha : magOf a < infMag) (hb : magOf b < infMag) :
    lt32 a b = true ↔ signedUnits a < signedUnits b :=
  (lt32_iff (isNaN_of_finite ha) (isNaN_of_finite hb)).trans (orderOf_lt_iff ha hb)

/-- Every other value is below +∞. -/
theorem lt32_posInf_iff {x : F32} (h : isNaN x = false) : lt32 x 0x7F800000#32 = true ↔ x ≠ 0x7F800000#32 := by
  rw [lt32_iff h (by decide), orderOf_posInf, lt_iff_le_and_ne, and_iff_right (orderOf_bounds h).2]
  refine not_congr ⟨fun he => eq_of_orderOf_eq (he.trans orderOf_posInf.symm) (by decide), ?_⟩
  rintro rfl
  exact orderOf_posInf

/-- Every other value is above −∞. -/
theorem negInf_lt32_iff {x : F32} (h : isNaN x = false) : lt32 0xFF800000#32 x = true ↔ x ≠ 0xFF800000#32 := by
  rw [lt32_iff (by decide) h, orderOf_negInf, lt_iff_le_and_ne, and_iff_right (orderOf_bounds h).1]
  refine not_congr ⟨fun he => eq_of_orderOf_eq (he.symm.trans orderOf_negInf.symm) (by decide), ?_⟩
  rintro rfl
  exact orderOf_negInf.symm

theorem not_posInf_lt32 {x : F32} (h : isNaN x = false) : lt32 0x7F800000#32 x = false := by
  rw [Bool.eq_false_iff, Ne, lt32_iff (by decide) h, orderOf_posInf]
  exact not_lt.2 (orderOf_bounds h).2

theorem not_lt32_negInf {x : F32} (h : isNaN x = false) : lt32 x 0xFF800000#32 = false := by
  rw [Bool.eq_false_iff, Ne, lt32_iff h (by decide), orderOf_negInf]
  exact not_lt.2 (orderOf_bounds h).1

/-! ### abs32 -/

theorem toNat_extractLsb'_eq_magOf (x : F32) : (x.extractLsb' 0 31).toNat = magOf x := by
  simp [magOf, BitVec.extractLsb'_toNat]

/-- abs32 keeps exponent and fraction. -/
theorem extractLsb'_abs32 (x : F32) : (abs32 x).extractLsb' 0 31 = x.extractLsb' 0 31 :=
  BitVec.eq_of_toNat_eq (by simp only [toNat_extractLsb'_eq_magOf, magOf_abs32])

end Sys2Proof.Machine
end

section
/-! What a step can refuse (R307, R109), and what the two commands that write a number to a voice leave. -/

namespace Sys2Proof.Machine

/-! ### Numbers written to a voice (R170, R171) -/

/-- OSC_SET_FREQ on its port, of a voice that there is. -/
theorem exec_oscSetFreq {s : State} {v : BitVec 8} {x : Voice} (f : F32) (hp : s.port = .cmd)
    (hx : s.voices[v.toNat]? = some x) :
    exec (.oscSetFreq v f) s = .next (reply 0#32 (setVoice s v (setFreq f x))) :=
  (onPort_of_eq _ hp).trans (withVoice_some _ hx)

/-- OSC_SET_SR on its port, of a voice that there is. -/
theorem exec_oscSetSr {s : State} {v : BitVec 8} {x : Voice} (sr : F32) (hp : s.port = .cmd)
    (hx : s.voices[v.toNat]? = some x) :
    exec (.oscSetSr v sr) s = .next (reply 0#32 (setVoice s v (setSr sr x))) :=
  (onPort_of_eq _ hp).trans (withVoice_some _ hx)

theorem voices_reply_setVoice_self {s : State} {v : BitVec 8} (w : Word) (x : Voice) (h : v.toNat < s.voices.length) :
    (reply w (setVoice s v x)).voices[v.toNat]? = some x := by
  rw [reply_voices, setVoice_voices, List.getElem?_set_self h]

/-! ### Refusals -/

theorem parametersOk_iff (s : State) :
    parametersOk s = true ↔
      (1 ≤ s.voices.length ∧ s.voices.length ≤ 256) ∧ (1 ≤ s.switches.length ∧ s.switches.length ≤ 32) ∧
      (1 ≤ s.indicators.length ∧ s.indicators.length ≤ 16) ∧ 1 ≤ s.capacity ∧ s.capacity ≤ 65535 := by
  simp only [parametersOk, boundsOk, Bool.and_eq_true, decide_eq_true_eq, and_assoc]

theorem step_of_bad_parameters {s : State} (h : parametersOk s = false) : step s = .refused .configurationError := by
  rw [step, h]; rfl

theorem onPort_ne_refused {p : Port} {s : State} {k : Answer} {r : Refusal} (h : k ≠ .refused r) :
    onPort p s k ≠ .refused r := by
  unfold onPort; split
  · exact h
  · exact nofun

theorem withVoice_ne_refused {v : BitVec 8} {s : State} {k : Voice → Answer} {r : Refusal}
    (h : ∀ x, k x ≠ .refused r) : withVoice v s k ≠ .refused r := by
  unfold withVoice; split
  · exact h _
  · exact nofun

theorem withSwitch_ne_refused {i : BitVec 8} {s : State} {k : Switch → Answer} {r : Refusal}
    (h : ∀ x, k x ≠ .refused r) : withSwitch i s k ≠ .refused r := by
  unfold withSwitch; split
  · exact h _
  · exact nofun

theorem withIndicator_ne_refused {i : BitVec 8} {s : State} {k : Indicator → Answer} {r : Refusal}
    (h : ∀ x, k x ≠ .refused r) : withIndicator i s k ≠ .refused r := by
  unfold withIndicator; split
  · exact h _
  · exact nofun

theorem replyRegister_ne_refused (w : Option Word) (s : State) (r : Refusal) : replyRegister w s ≠ .refused r := by
  cases w <;> exact nofun

theorem tickCommand_ne_refused (tick : Voice → Option Ticked) (v : BitVec 8) (s : State) (r : Refusal) :
    tickCommand tick v s ≠ .refused r := by
  refine withVoice_ne_refused fun x => ?_
  split
  · exact nofun
  · cases tick x <;> exact nofun

theorem execAudPeriod_ne_refused (ready : Bool) (n : BitVec 16) (s : State) (r : Refusal) :
    execAudPeriod ready n s ≠ .refused r := by
  refine onPort_ne_refused ?_
  split
  · exact nofun
  · split
    · exact nofun
    · cases renderFrames s.wbank n.toNat 0 s <;> exact nofun

/-- No command is refused. -/
theorem exec_ne_refused (i : Instr) (s : State) (r : Refusal) : exec i s ≠ .refused r := by
  cases i with
  | nop => exact nofun
  | sysClrErr => exact onPort_ne_refused nofun
  | oscSetFreq v f => exact onPort_ne_refused (withVoice_ne_refused fun _ => nofun)
  | oscSetSr v f => exact onPort_ne_refused (withVoice_ne_refused fun _ => nofun)
  | oscSetWave v w => exact onPort_ne_refused (withVoice_ne_refused fun _ => nofun)
  | oscSetEn v e => exact onPort_ne_refused (withVoice_ne_refused fun _ => nofun)
  | oscTickBlep v => exact onPort_ne_refused (tickCommand_ne_refused _ v s r)
  | oscTickNaive v => exact onPort_ne_refused (tickCommand_ne_refused _ v s r)
  | audPeriod ready n => exact execAudPeriod_ne_refused ready n s r
  | ctlPoll levels => exact onPort_ne_refused nofun
  | swSetDw i n => exact onPort_ne_refused (withSwitch_ne_refused fun _ => nofun)
  | swSetDcw i n => exact onPort_ne_refused (withSwitch_ne_refused fun _ => nofun)
  | swSetHt i n => exact onPort_ne_refused (withSwitch_ne_refused fun _ => nofun)
  | indSetTarget i f => exact onPort_ne_refused (withIndicator_ne_refused fun _ => nofun)
  | indSetStep i f => exact onPort_ne_refused (withIndicator_ne_refused fun _ => nofun)
  | indSetBlink i p => exact onPort_ne_refused (withIndicator_ne_refused fun _ => nofun)
  | rdSys reg => exact onPort_ne_refused (replyRegister_ne_refused _ s r)
  | rdOsc v reg => exact onPort_ne_refused (withVoice_ne_refused fun _ => replyRegister_ne_refused _ s r)
  | rdSw i reg => exact onPort_ne_refused (withSwitch_ne_refused fun _ => replyRegister_ne_refused _ s r)
  | rdInd i reg => exact onPort_ne_refused (withIndicator_ne_refused fun _ => replyRegister_ne_refused _ s r)
  | rdBuf b ch k => exact onPort_ne_refused (replyRegister_ne_refused _ s r)

/-- No command word is refused, decodable or not, on either port. -/
theorem runCommand_ne_refused (p : Port) (w : Command) (s : State) (r : Refusal) : runCommand p w s ≠ .refused r := by
  unfold runCommand
  split
  · exact exec_ne_refused _ _ r
  · exact nofun
  · split <;> exact nofun

/-- The only refusal of an input is that of a frame read (R109). -/
theorem runInput_refused {i : Input} {s : State} {r : Refusal} (h : runInput i s = .refused r) :
    r = .collaboratorDuty := by
  cases i with
  | command p w => exact absurd h (runCommand_ne_refused p w s r)
  | reset => cases h
  | transferRead b k =>
    simp only [runInput, transferRead] at h
    split at h
    · cases h
    · exact (Host.Outcome.refused.inj h).symm

/-- Within the bounds no step answers a configuration error. -/
theorem step_ne_configurationError {s : State} (h : parametersOk s = true) : step s ≠ .refused .configurationError := by
  rw [step, if_pos h]
  cases s.inputs with
  | nil => exact nofun
  | cons i rest => exact fun hr => nomatch runInput_refused hr

end Sys2Proof.Machine
end

section
/-! The obligations of spec/00_scope.md. -/

namespace Sys2Proof.Machine

/-- Settles O12: in bounds a step runs an input, and the only refusal of an input is that of a frame read. -/
theorem configurationsOutOfBoundsAreRefused : Obligations.ConfigurationsOutOfBoundsAreRefused := by
  unfold Obligations.ConfigurationsOutOfBoundsAreRefused
  refine ⟨parametersOk_iff, fun s => ⟨fun h => ?_, step_of_bad_parameters⟩⟩
  rw [Bool.eq_false_iff]
  exact fun hok => step_ne_configurationError hok h

/-- Settles O22: each finite operation is one `roundMag`, which rounds correctly; the other operands case by case. -/
theorem roundingIsToNearestEven : Obligations.RoundingIsToNearestEven := by
  unfold Obligations.RoundingIsToNearestEven
  refine ⟨fun num den => roundMag_correctlyRounded num, ?_, ?_, ?_, ?_⟩
  · -- two finite operands
    intro a b ha hb
    obtain ⟨hsign, hmag⟩ := mul32_correctlyRounded ha hb
    refine ⟨add32_roundedSum ha hb, sub32_roundedSum ha hb, hsign, hmag, div32_correctlyRounded ha hb, ?_⟩
    intro hb0 ha0
    rw [div32_by_zero ha ha0 hb0]
    exact signOfProduct_inf a b
  · -- an infinite and a finite operand
    intro a b ha hb
    have hfin := isInf_eq_false hb
    have hnegFin : magOf (negF b) < infMag := by rwa [magOf_negF]
    have hsub : sub32 b a = negF a := add32_inf_right (by rwa [isInf_negF]) hb
    have hdiv := signOfProduct_inf a b
    rw [← div32_inf_left ha hb] at hdiv
    refine ⟨add32_inf_left ha (isNaN_of_finite hb) (by simp [hfin]), add32_inf_right ha hb,
      add32_inf_left ha (isNaN_of_finite hnegFin) (by simp [hfin]), by rw [hsub, signOf_negF],
      by rw [hsub, magOf_negF, (isInf_iff a).1 ha], hdiv.1, hdiv.2, ?_, ?_⟩
    · rw [div32_inf_right ha hb]
      exact signOfProduct_packF b a (Nat.zero_le _)
    · rw [div32_inf_right ha hb]
      exact magOf_packF _ (by decide)
  · -- the product of an infinity and a number that is not zero
    intro a b ha hb hb0
    have ha' := isNaN_of_isInf ha
    have ha0 : magOf a ≠ 0 := by rw [(isInf_iff a).1 ha]; decide
    rw [mul32_inf (.inl ha) ha' hb ha0 hb0, mul32_inf (.inr ha) hb ha' hb0 ha0]
    have hab := signOfProduct_inf a b
    have hba := signOfProduct_inf b a
    exact ⟨hab.1, hab.2, hba.1, hba.2⟩
  · -- two infinities
    intro a b ha hb
    refine ⟨fun hs => add32_inf_left ha (isNaN_of_isInf hb) fun _ => hs, fun hs => ?_⟩
    refine add32_inf_left ha (by rw [isNaN_negF]; exact isNaN_of_isInf hb) fun _ => ?_
    rw [signOf_negF]
    exact Bool.eq_not.2 hs

/-- Settles O23: finite values stand in the order of their units, between the infinities. -/
theorem comparisonsOrderTheValues : Obligations.ComparisonsOrderTheValues := by
  unfold Obligations.ComparisonsOrderTheValues
  refine ⟨?_, ?_, fun a b ha hb => ⟨gt32_eq_lt32 a b, ge32_eq_not_lt32 ha hb⟩, fun a b => comparisons_of_isNaN,
    by decide, by decide, fun a b => ⟨signOf_abs32 a, extractLsb'_abs32 a, rfl, rfl⟩⟩
  · intro a b ha hb
    have hlt := lt32_finite_iff ha hb
    refine ⟨hlt, gt32_eq_lt32 a b ▸ lt32_finite_iff hb ha, ?_⟩
    rw [ge32_eq_not_lt32 (isNaN_of_finite ha) (isNaN_of_finite hb), Bool.not_eq_true', Bool.eq_false_iff, Ne, hlt,
      not_lt]
  · exact fun b hb => ⟨lt32_posInf_iff hb, not_posInf_lt32 hb, negInf_lt32_iff hb, not_lt32_negInf hb⟩

/-- Settles O24: by the equation of each NaN case; every other branch of an operation answers an operand that is no NaN or
packs at most an infinity. -/
theorem nanResultsAreCanonical : Obligations.NanResultsAreCanonical := by
  unfold Obligations.NanResultsAreCanonical
  refine ⟨fun a b h => ⟨add32_of_isNaN h, sub32_of_isNaN h, mul32_of_isNaN h, div32_of_isNaN h⟩, ?_, ?_,
    fun a b => div32_zero_zero, fun a b => ⟨add32_isNaN a b, sub32_isNaN a b, mul32_isNaN a b, div32_isNaN a b⟩, ?_⟩
  · intro a b ha hb
    refine ⟨add32_opposite_inf ha hb, fun hs => ?_, div32_inf_inf ha hb⟩
    exact add32_opposite_inf ha (by rwa [isInf_negF]) (by simp [hs])
  · intro a b ha hb0
    have ha' := isNaN_of_isInf ha
    have hb' : isNaN b = false := isNaN_eq_false (hb0 ▸ Nat.zero_le _)
    exact ⟨mul32_inf_zero (.inl ha) ha' hb' (.inr hb0), mul32_inf_zero (.inr ha) hb' ha' (.inl hb0)⟩
  · intro s v f hp hv _
    have hx : s.voices[v.toNat]? = some s.voices[v.toNat] := List.getElem?_eq_getElem hv
    exact ⟨_, _, _, exec_oscSetFreq f hp hx, voices_reply_setVoice_self _ _ hv, rfl,
      _, exec_oscSetSr f hp hx, voices_reply_setVoice_self _ _ hv, rfl⟩

end Sys2Proof.Machine
end

section
/-! What a command can do to the state: one inversion of `exec`, from which every statement about what the commands
change and what they leave is derived. -/

namespace Sys2Proof.Machine

/-! ### Ticks of a voice -/

/-- What a polyBLEP tick leaves of a voice (R162). -/
theorem tickBlep_voice {x : Voice} {y : Ticked} (h : tickBlep x = some y) :
    y.voice = advance { x with last := lastAfterBlep x } := by
  unfold tickBlep at h
  split at h
  · cases h; rfl
  · cases h

/-- What a naive tick leaves of a voice (R163). -/
theorem tickNaive_voice {x : Voice} {y : Ticked} (h : tickNaive x = some y) : y.voice = advance x := by
  unfold tickNaive at h
  split at h
  · cases h; rfl
  · cases h

/-- Only a voice in domain is ticked (R177). -/
theorem inDomain_of_tickBlep {x : Voice} {y : Ticked} (h : tickBlep x = some y) : inDomain x = true := by
  rw [← tickBlep_isSome_iff, h]; rfl

/-- Only a voice in domain is ticked (R177). -/
theorem inDomain_of_tickNaive {x : Voice} {y : Ticked} (h : tickNaive x = some y) : inDomain x = true := by
  rw [← tickNaive_isSome_iff, h]; rfl

theorem blepTicked_of_tickBlep {x : Voice} {y : Ticked} (h : tickBlep x = some y) : blepTicked x = y.voice := by
  rw [blepTicked, h]

/-- A property of voices that a polyBLEP tick keeps is kept by any number of them. -/
theorem afterTicks_keeps {P : Voice → Prop} (tick : ∀ x y, tickBlep x = some y → P x → P y.voice) (k : Nat) {x : Voice}
    (hx : P x) : P (afterTicks k x) := by
  induction k with
  | zero => exact hx
  | succ k ih =>
    rw [afterTicks, blepTicked]
    split
    case h_1 y hy => exact tick _ y hy ih
    case h_2 => exact ih

/-- A field that a polyBLEP tick leaves is left by any number of them. -/
theorem afterTicks_field {β : Type} {f : Voice → β} (tick : ∀ x y, tickBlep x = some y → f y.voice = f x) (k : Nat)
    (x : Voice) : f (afterTicks k x) = f x :=
  afterTicks_keeps (P := fun y => f y = f x) (fun y _ hy hfy => (tick y _ hy).trans hfy) k rfl

@[simp] theorem afterTicks_en (k : Nat) (x : Voice) : (afterTicks k x).en = x.en :=
  afterTicks_field (fun _ _ h => by rw [tickBlep_voice h]; rfl) k x

@[simp] theorem voicesAfter_zero (xs : List Voice) : voicesAfter 0 xs = xs := by
  simp [voicesAfter, afterTicks]

/-- One frame after k frames is k + 1 frames: EN is the same, so the same voices are ticked. -/
theorem voicesAfter_one_voicesAfter (k : Nat) (xs : List Voice) :
    voicesAfter 1 (voicesAfter k xs) = voicesAfter (k + 1) xs := by
  rw [voicesAfter, voicesAfter, voicesAfter, List.map_map]
  refine List.map_congr_left fun x _ => ?_
  cases he : x.en <;> simp [he, afterTicks]

/-- A field that a polyBLEP tick leaves is left by every frame. -/
theorem map_voicesAfter {β : Type} {f : Voice → β} (tick : ∀ x y, tickBlep x = some y → f y.voice = f x) (k : Nat)
    (xs : List Voice) : (voicesAfter k xs).map f = xs.map f := by
  rw [voicesAfter, List.map_map]
  refine List.map_congr_left fun x _ => ?_
  rw [Function.comp_apply]
  split
  · exact afterTicks_field tick k x
  · rfl

/-- A property of voices that a polyBLEP tick keeps is kept by every frame. -/
theorem voicesAfter_keeps {P : Voice → Prop} (tick : ∀ x y, tickBlep x = some y → P x → P y.voice) (k : Nat)
    {xs : List Voice} (h : ∀ x ∈ xs, P x) : ∀ y ∈ voicesAfter k xs, P y := by
  intro y hy
  obtain ⟨x, hx, rfl⟩ := List.mem_map.1 hy
  split
  · exact afterTicks_keeps tick k (h x hx)
  · exact h x hx

/-! ### The frame loop -/

/-- A frame ticks every enabled voice once (R206). -/
theorem synthFrame_voices {xs ys : List Voice} {acc sum : F32} (h : synthFrame xs acc = some (sum, ys)) :
    ys = voicesAfter 1 xs := by
  induction xs generalizing acc sum ys with
  | nil => cases h; rfl
  | cons x rest ih =>
    rw [synthFrame] at h
    cases he : x.en with
    | false =>
      cases hr : synthFrame rest acc with
      | none => simp [he, hr] at h
      | some p =>
        obtain ⟨sum', ys'⟩ := p
        simp only [he, hr, Bool.false_eq_true, if_false, Option.some.injEq, Prod.mk.injEq] at h
        rw [← h.2, ih hr]
        simp [voicesAfter, he]
    | true =>
      cases ht : tickBlep x with
      | none => simp [he, ht] at h
      | some y =>
        cases hr : synthFrame rest (add32 acc y.sample) with
        | none => simp [he, ht, hr] at h
        | some p =>
          obtain ⟨sum', ys'⟩ := p
          simp only [he, ht, hr, if_true, Option.some.injEq, Prod.mk.injEq] at h
          rw [← h.2, ih hr]
          simp [voicesAfter, he, afterTicks, blepTicked_of_tickBlep ht]

/-- The memory m differs from that of s in the bytes of the first min(n, C) frames of bank WBANK at most (R207). -/
def writesOnlyFrames (s : State) (n : Nat) (m : List Host.Cell) : Prop :=
  ∀ a, a < 4 * bufAddr s.capacity s.wbank 0 0#1 ∨
    4 * bufAddr s.capacity s.wbank 0 0#1 + 8 * min n s.capacity ≤ a → memReadByte m a = byteAt s a

/-- One of those frames written. -/
theorem writesOnlyFrames_writeFrame {s : State} {n k : Nat} {m : List Host.Cell} {xs : List Voice} (l r : F32)
    (hm : writesOnlyFrames s n m) (hn : k < n) (hk : k < s.capacity) :
    writesOnlyFrames s n (writeFrame s.wbank k l r { s with voices := xs, mem := m }).mem := by
  intro a ha
  have haddr : bufAddr s.capacity s.wbank k 0#1 = bufAddr s.capacity s.wbank 0 0#1 + 2 * k := by simp [bufAddr]
  refine (byteAt_writeFrame_ne s.wbank k l r ?_).trans (hm a ha)
  show a < 4 * bufAddr s.capacity s.wbank k 0#1 ∨ 4 * bufAddr s.capacity s.wbank k 0#1 + 8 ≤ a
  omega

/-- The state while AUD_PERIOD runs (R205 to R207): j frames ticked, memory m, all else as at its start. -/
def duringPeriod (s : State) (j : Nat) (m : List Host.Cell) : State :=
  { s with voices := voicesAfter j s.voices, mem := m }

/-- What the frame loop leaves: only ticks and writes to its own frames; a halt needs a DEBUG block (R207, R208). -/
inductive LoopEffect (s : State) (n : Nat) : Rendered → Prop
  | complete (j : Nat) {m : List Host.Cell} (hm : writesOnlyFrames s n m) :
      LoopEffect s n (.complete (duringPeriod s j m))
  | halted (j : Nat) {m : List Host.Cell} (hb : s.build = .debug) (hm : writesOnlyFrames s n m) :
      LoopEffect s n (.halted (reply 3#32 (enterHalt (duringPeriod s j m))))
  | outOfDomain : LoopEffect s n .outOfDomain

theorem renderFrames_effect {s : State} {n : Nat} (todo : Nat) {k j : Nat} {m : List Host.Cell} (hk : k + todo ≤ n)
    (hm : writesOnlyFrames s n m) : LoopEffect s n (renderFrames s.wbank todo k (duringPeriod s j m)) := by
  induction todo generalizing k j m with
  | zero => exact .complete j hm
  | succ todo ih =>
    cases hf : synthFrame (duringPeriod s j m).voices zeroF with
    | none => rw [renderFrames_succ_none hf]; exact .outOfDomain
    | some p =>
      obtain ⟨acc, xs⟩ := p
      have hticked : { duringPeriod s j m with voices := xs } = duringPeriod s (j + 1) m := by
        rw [synthFrame_voices hf, duringPeriod, duringPeriod, voicesAfter_one_voicesAfter]
      rw [renderFrames_succ hf, hticked]
      split
      case isTrue hroom => exact ih (by omega) (writesOnlyFrames_writeFrame acc acc hm (by omega) hroom)
      case isFalse =>
        split
        case h_1 hb =>
          rw [raiseCondition_capacity_debug (s := duringPeriod s (j + 1) m) hb]
          exact .halted (j + 1) hb hm
        case h_2 => exact ih (by omega) hm

/-! ### What each family of commands writes -/

/-- The voice x rewritten to y by a command of voice v other than a tick (R170 to R173). -/
inductive VoiceWrite (v : BitVec 8) (x : Voice) : Instr → Voice → Prop
  | freq (f : F32) : VoiceWrite v x (.oscSetFreq v f) (setFreq f x)
  | sr (f : F32) : VoiceWrite v x (.oscSetSr v f) (setSr f x)
  | wave (w : Wave) : VoiceWrite v x (.oscSetWave v w) { x with wave := w }
  | en (e : Bool) : VoiceWrite v x (.oscSetEn v e) { x with en := e }

/-- A tick command of voice v, the voice x ticked (R175, R176). -/
inductive VoiceTick (v : BitVec 8) (x : Voice) : Instr → Ticked → Prop
  | blep {y : Ticked} (h : tickBlep x = some y) : VoiceTick v x (.oscTickBlep v) y
  | naive {y : Ticked} (h : tickNaive x = some y) : VoiceTick v x (.oscTickNaive v) y

/-- The switch x rewritten to y by a command of switch i (R270 to R272). -/
inductive SwitchWrite (i : BitVec 8) (x : Switch) : Instr → Switch → Prop
  | dw (n : BitVec 16) : SwitchWrite i x (.swSetDw i n) { x with dw := n }
  | dcw (n : BitVec 16) : SwitchWrite i x (.swSetDcw i n) { x with dcw := n }
  | ht (n : BitVec 16) : SwitchWrite i x (.swSetHt i n) { x with ht := n }

/-- The indicator x rewritten to y by a command of indicator i (R264 to R266). -/
inductive IndicatorWrite (i : BitVec 8) (x : Indicator) : Instr → Indicator → Prop
  | target (f : F32) : IndicatorWrite i x (.indSetTarget i f) { x with target := clamp01 f }
  | step (f : F32) : IndicatorWrite i x (.indSetStep i f) { x with step := clamp01 f }
  | blink (p : BitVec 16) : IndicatorWrite i x (.indSetBlink i p) { x with blink := p, bcnt := 0#16 }

/-- The block after one poll, before the response (R230). -/
def polled (levels : BitVec 32) (s : State) : State :=
  { s with
    switches := pollSwitches levels s.now s.switches
    indicators := s.indicators.map indicatorStep
    now := s.now + 1#32 }

/-- Everything that a command can do to the state s, by what it does and not by which check failed. -/
inductive CommandEffect (s : State) : Instr → State → Prop
  /-- it answers and changes nothing: NOP, a read, a tick or a period of a halted block -/
  | answered (i : Instr) (w : Word) : CommandEffect s i (reply w s)
  /-- it is illegal (R305) -/
  | illegal (i : Instr) {c : IllCause} (hc : c ≠ .none) : CommandEffect s i (afterIllegal c s)
  | errorCleared : CommandEffect s .sysClrErr (reply 0#32 (clearIllegal s))
  | voiceWritten {i : Instr} {v : BitVec 8} {x y : Voice} (hx : s.voices[v.toNat]? = some x)
      (hy : VoiceWrite v x i y) : CommandEffect s i (reply 0#32 (setVoice s v y))
  | voiceTicked {i : Instr} {v : BitVec 8} {x : Voice} {y : Ticked} (hrun : s.halted = false)
      (hx : s.voices[v.toNat]? = some x) (hy : VoiceTick v x i y) :
      CommandEffect s i (reply y.sample (setVoice s v y.voice))
  | switchWritten {i : Instr} {k : BitVec 8} {x y : Switch} (hx : s.switches[k.toNat]? = some x)
      (hy : SwitchWrite k x i y) : CommandEffect s i (reply 0#32 (setSwitch s k y))
  | indicatorWritten {i : Instr} {k : BitVec 8} {x y : Indicator} (hx : s.indicators[k.toNat]? = some x)
      (hy : IndicatorWrite k x i y) : CommandEffect s i (reply 0#32 (setIndicator s k y))
  | pollDone (levels : BitVec 32) (w : Word) : CommandEffect s (.ctlPoll levels) (reply w (polled levels s))
  | underrun (n : BitVec 16) (hrun : s.halted = false) :
      CommandEffect s (.audPeriod false n) (reply 1#32 { s with underrunCnt := s.underrunCnt + 1#32 })
  | submitted {n : BitVec 16} {j : Nat} {m : List Host.Cell} (hrun : s.halted = false)
      (hm : writesOnlyFrames s n.toNat m) :
      CommandEffect s (.audPeriod true n) (submitBlock s.wbank (min n.toNat s.capacity) (duringPeriod s j m))
  | haltEntered {n : BitVec 16} {j : Nat} {m : List Host.Cell} (hrun : s.halted = false) (hb : s.build = .debug)
      (hm : writesOnlyFrames s n.toNat m) :
      CommandEffect s (.audPeriod true n) (reply 3#32 (enterHalt (duringPeriod s j m)))

/-! ### A command does nothing else -/

theorem CommandEffect.raised (s : State) (i : Instr) {c : IllCause} (hc : c ≠ .none) :
    CommandEffect s i (raiseCondition (.illegalCommand c) s) :=
  raiseCondition_illegal_eq c s ▸ .illegal i hc

/-- A command that checks its port, by what it does when the port is right. -/
theorem effect_onPort {i : Instr} {p : Port} {s t : State} {k : Answer} (h : onPort p s k = .next t)
    (hk : k = .next t → CommandEffect s i t) : CommandEffect s i t := by
  rcases onPort_next h with ⟨-, hk'⟩ | ⟨-, rfl⟩
  · exact hk hk'
  · exact .raised s i nofun

/-- A command of a voice, by what it does when there is one. -/
theorem effect_withVoice {i : Instr} {v : BitVec 8} {s t : State} {k : Voice → Answer} (h : withVoice v s k = .next t)
    (hk : ∀ x, s.voices[v.toNat]? = some x → k x = .next t → CommandEffect s i t) : CommandEffect s i t := by
  rcases withVoice_next h with ⟨x, hx, hk'⟩ | ⟨-, rfl⟩
  · exact hk x hx hk'
  · exact .raised s i nofun

/-- A command of a switch, by what it does when there is one. -/
theorem effect_withSwitch {i : Instr} {v : BitVec 8} {s t : State} {k : Switch → Answer}
    (h : withSwitch v s k = .next t)
    (hk : ∀ x, s.switches[v.toNat]? = some x → k x = .next t → CommandEffect s i t) : CommandEffect s i t := by
  rcases withSwitch_next h with ⟨x, hx, hk'⟩ | ⟨-, rfl⟩
  · exact hk x hx hk'
  · exact .raised s i nofun

/-- A command of an indicator, by what it does when there is one. -/
theorem effect_withIndicator {i : Instr} {v : BitVec 8} {s t : State} {k : Indicator → Answer}
    (h : withIndicator v s k = .next t)
    (hk : ∀ x, s.indicators[v.toNat]? = some x → k x = .next t → CommandEffect s i t) : CommandEffect s i t := by
  rcases withIndicator_next h with ⟨x, hx, hk'⟩ | ⟨-, rfl⟩
  · exact hk x hx hk'
  · exact .raised s i nofun

theorem effect_replyRegister {i : Instr} {r : Option Word} {s t : State} (h : replyRegister r s = .next t) :
    CommandEffect s i t := by
  rcases replyRegister_next h with ⟨w, -, rfl⟩ | ⟨-, rfl⟩
  · exact .answered i w
  · exact .raised s i nofun

/-- A command that writes a voice. -/
theorem effect_writeVoice {i : Instr} {v : BitVec 8} {s t : State} {f : Voice → Voice}
    (h : onPort .cmd s (withVoice v s fun x => .next (reply 0#32 (setVoice s v (f x)))) = .next t)
    (hf : ∀ x, VoiceWrite v x i (f x)) : CommandEffect s i t :=
  effect_onPort h fun h => effect_withVoice h fun x hx h => by cases h; exact .voiceWritten hx (hf x)

/-- A command that writes a switch. -/
theorem effect_writeSwitch {i : Instr} {v : BitVec 8} {s t : State} {f : Switch → Switch}
    (h : onPort .cmd s (withSwitch v s fun x => .next (reply 0#32 (setSwitch s v (f x)))) = .next t)
    (hf : ∀ x, SwitchWrite v x i (f x)) : CommandEffect s i t :=
  effect_onPort h fun h => effect_withSwitch h fun x hx h => by cases h; exact .switchWritten hx (hf x)

/-- A command that writes an indicator. -/
theorem effect_writeIndicator {i : Instr} {v : BitVec 8} {s t : State} {f : Indicator → Indicator}
    (h : onPort .cmd s (withIndicator v s fun x => .next (reply 0#32 (setIndicator s v (f x)))) = .next t)
    (hf : ∀ x, IndicatorWrite v x i (f x)) : CommandEffect s i t :=
  effect_onPort h fun h => effect_withIndicator h fun x hx h => by cases h; exact .indicatorWritten hx (hf x)

/-- A test tick. -/
theorem effect_tickCommand {i : Instr} {tick : Voice → Option Ticked} {v : BitVec 8} {s t : State}
    (h : onPort .cmd s (tickCommand tick v s) = .next t) (htick : ∀ x y, tick x = some y → VoiceTick v x i y) :
    CommandEffect s i t := by
  refine effect_onPort h fun h => ?_
  rcases tickCommand_next h with ⟨x, -, -, rfl⟩ | ⟨x, y, hx, hrun, hy, rfl⟩ | ⟨-, rfl⟩
  · exact .answered i _
  · exact .voiceTicked hrun hx (htick x y hy)
  · exact .raised s i nofun

theorem effect_audPeriod {ready : Bool} {n : BitVec 16} {s t : State} (h : execAudPeriod ready n s = .next t) :
    CommandEffect s (.audPeriod ready n) t := by
  have hstart : duringPeriod s 0 s.mem = s := by rw [duringPeriod, voicesAfter_zero]
  have hloop : LoopEffect s n.toNat (renderFrames s.wbank n.toNat 0 (duringPeriod s 0 s.mem)) :=
    renderFrames_effect n.toNat (by omega) fun _ _ => rfl
  rw [hstart] at hloop
  rcases execAudPeriod_next h with ⟨-, -, rfl⟩ | ⟨-, hrun, rfl, rfl⟩ | ⟨-, hrun, rfl, u, hu, rfl⟩ | ⟨-, hrun, rfl, hu⟩ |
    ⟨-, rfl⟩
  · exact .answered _ _
  · exact .underrun n hrun
  · rw [hu] at hloop
    cases hloop with
    | complete j hm => exact .submitted hrun hm
  · rw [hu] at hloop
    cases hloop with
    | halted j hb hm => exact .haltEntered hrun hb hm
  · exact .raised s _ nofun

/-- Every next state that a command answers is one of `CommandEffect`. -/
theorem exec_effect {i : Instr} {s t : State} (h : exec i s = .next t) : CommandEffect s i t := by
  cases i with
  | nop => cases h; exact .answered _ _
  | sysClrErr => exact effect_onPort h fun h => by cases h; exact .errorCleared
  | oscSetFreq v f => exact effect_writeVoice h fun _ => .freq f
  | oscSetSr v f => exact effect_writeVoice h fun _ => .sr f
  | oscSetWave v w => exact effect_writeVoice h fun _ => .wave w
  | oscSetEn v e => exact effect_writeVoice h fun _ => .en e
  | oscTickBlep v => exact effect_tickCommand h fun _ _ => .blep
  | oscTickNaive v => exact effect_tickCommand h fun _ _ => .naive
  | audPeriod ready n => exact effect_audPeriod h
  | ctlPoll levels => exact effect_onPort h fun h => by cases h; exact .pollDone levels _
  | swSetDw k n => exact effect_writeSwitch h fun _ => .dw n
  | swSetDcw k n => exact effect_writeSwitch h fun _ => .dcw n
  | swSetHt k n => exact effect_writeSwitch h fun _ => .ht n
  | indSetTarget k f => exact effect_writeIndicator h fun _ => .target f
  | indSetStep k f => exact effect_writeIndicator h fun _ => .step f
  | indSetBlink k p => exact effect_writeIndicator h fun _ => .blink p
  | rdSys r => exact effect_onPort h effect_replyRegister
  | rdOsc v r => exact effect_onPort h fun h => effect_withVoice h fun _ _ => effect_replyRegister
  | rdSw k r => exact effect_onPort h fun h => effect_withSwitch h fun _ _ => effect_replyRegister
  | rdInd k r => exact effect_onPort h fun h => effect_withIndicator h fun _ _ => effect_replyRegister
  | rdBuf b ch k => exact effect_onPort h effect_replyRegister

/-! ### What a step can do -/

/-- Everything that a step can do to the state s (R96, R323, R340). -/
inductive StepEffect (s : State) : State → Prop
  | idle : StepEffect s s
  | command {p : Port} {w : Command} {rest : List Input} {i : Instr} {t : State}
      (hs : s.inputs = .command p w :: rest) (h : CommandEffect { s with inputs := rest, port := p } i t) :
      StepEffect s t
  | reset {rest : List Input} (hs : s.inputs = .reset :: rest) : StepEffect s (resetBlock { s with inputs := rest })
  | read {b : BitVec 1} {k : BitVec 16} {rest : List Input} (hs : s.inputs = .transferRead b k :: rest) (o : Output) :
      StepEffect s { s with inputs := rest, out := o }

/-- A command word does what its command does; one that does not decode is illegal, which `CommandEffect` has for every
command. -/
theorem runCommand_effect {p : Port} {w : Command} {s t : State} (h : runCommand p w s = .next t) :
    ∃ i, CommandEffect { s with port := p } i t := by
  unfold runCommand at h
  split at h
  · exact ⟨_, exec_effect h⟩
  · cases h; exact ⟨.nop, .raised _ _ nofun⟩
  · split at h
    · cases h; exact ⟨.nop, .raised _ _ nofun⟩
    · cases h; exact ⟨.nop, .raised _ _ nofun⟩

/-- Every next state that a step answers is one of `StepEffect`. -/
theorem step_effect {s t : State} (h : step s = .next t) : StepEffect s t := by
  unfold step at h
  split at h
  · cases hs : s.inputs with
    | nil => rw [hs] at h; cases h; exact .idle
    | cons input rest =>
      rw [hs] at h
      cases input with
      | command p w => obtain ⟨i, hi⟩ := runCommand_effect h; exact .command hs hi
      | reset => cases h; exact .reset hs
      | transferRead b k =>
        simp only [runInput, transferRead] at h
        split at h
        · cases h; exact .read hs _
        · cases h
  · cases h

end Sys2Proof.Machine
end

section
/-! What a command or a step changes and what it leaves, one part of the state at a time, from `CommandEffect` and
`StepEffect`. -/

namespace Sys2Proof.Machine

/-! ### Voices -/

/-- The commands that tick voices (R40). -/
def ticksVoices (i : Instr) : Prop :=
  (∃ n, i = .audPeriod true n) ∨ (∃ v, i = .oscTickBlep v) ∨ ∃ v, i = .oscTickNaive v

theorem VoiceTick.ticksVoices {v : BitVec 8} {x : Voice} {i : Instr} {y : Ticked} (h : VoiceTick v x i y) :
    ticksVoices i := by
  cases h with
  | blep => exact .inr (.inl ⟨v, rfl⟩)
  | naive => exact .inr (.inr ⟨v, rfl⟩)

/-- What a command does to the voices: nothing, one of them written, one of them ticked, or frames of the
enabled ones. -/
theorem CommandEffect.voices {s t : State} {i : Instr} (h : CommandEffect s i t) :
    t.voices = s.voices ∨
    (∃ v x y, s.voices[v.toNat]? = some x ∧ VoiceWrite v x i y ∧ t.voices = s.voices.set v.toNat y) ∨
    (s.halted = false ∧
      ∃ v x y, s.voices[v.toNat]? = some x ∧ VoiceTick v x i y ∧ t.voices = s.voices.set v.toNat y.voice) ∨
    (s.halted = false ∧ ∃ n j, i = .audPeriod true n ∧ t.voices = voicesAfter j s.voices) := by
  cases h with
  | voiceWritten hx hy => exact .inr (.inl ⟨_, _, _, hx, hy, rfl⟩)
  | voiceTicked hrun hx hy => exact .inr (.inr (.inl ⟨hrun, _, _, _, hx, hy, rfl⟩))
  | submitted hrun => exact .inr (.inr (.inr ⟨hrun, _, _, rfl, rfl⟩))
  | haltEntered hrun => exact .inr (.inr (.inr ⟨hrun, _, _, rfl, rfl⟩))
  | _ => exact .inl rfl

/-- The field f of a voice depends on neither PHASE nor LAST. -/
def ignoresTicks {β : Type} (f : Voice → β) : Prop := ∀ x phase last, f { x with phase := phase, last := last } = f x

/-- The field f of a voice depends on PHASE, LAST and the start-up configuration alone. -/
def ignoresWrites {β : Type} (f : Voice → β) : Prop :=
  ∀ x wave freq sr pinc en, f { x with wave := wave, freq := freq, sr := sr, pinc := pinc, en := en } = f x

/-- A tick writes PHASE and LAST only (R40). -/
theorem VoiceTick.field {β : Type} {f : Voice → β} (hf : ignoresTicks f) {v : BitVec 8} {x : Voice} {i : Instr}
    {y : Ticked} (h : VoiceTick v x i y) : f y.voice = f x := by
  cases h with
  | blep h => rw [tickBlep_voice h]; exact hf x _ _
  | naive h => rw [tickNaive_voice h]; exact hf x _ x.last

/-- The SET commands write neither PHASE nor LAST (R40). -/
theorem VoiceWrite.field {β : Type} {f : Voice → β} (hf : ignoresWrites f) {v : BitVec 8} {x y : Voice} {i : Instr}
    (h : VoiceWrite v x i y) : f y = f x := by
  cases h with
  | freq g => exact hf x x.wave g x.sr _ x.en
  | sr g => exact hf x x.wave x.freq g _ x.en
  | wave w => exact hf x w x.freq x.sr x.pinc x.en
  | en e => exact hf x x.wave x.freq x.sr x.pinc e

/-- Replacing a bank by one with the same field leaves the field of every bank. -/
theorem map_set_of_eq {α β : Type} {f : α → β} {xs : List α} {k : Nat} {x y : α} (hx : xs[k]? = some x)
    (h : f y = f x) : (xs.set k y).map f = xs.map f := by
  obtain ⟨hk, rfl⟩ := List.getElem?_eq_some_iff.1 hx
  rw [List.map_set, h, ← List.getElem_map f (h := by simpa using hk), List.set_getElem_self]

/-- A command changes a field other than PHASE and LAST by a SET command only. -/
theorem CommandEffect.map_voices_of_ignoresTicks {β : Type} {f : Voice → β} (hf : ignoresTicks f) {s t : State}
    {i : Instr} (h : CommandEffect s i t) (write : ∀ v x y, VoiceWrite v x i y → f y = f x) :
    t.voices.map f = s.voices.map f := by
  rcases h.voices with ht | ⟨v, x, y, hx, hy, ht⟩ | ⟨-, v, x, y, hx, hy, ht⟩ | ⟨-, n, j, -, ht⟩ <;> rw [ht]
  · exact map_set_of_eq hx (write v x y hy)
  · exact map_set_of_eq hx (hy.field hf)
  · exact map_voicesAfter (fun x y hy => (VoiceTick.blep (v := 0#8) hy).field hf) j s.voices

/-- A command changes PHASE or LAST by ticks only, and a halted block makes none. -/
theorem CommandEffect.map_voices_of_ignoresWrites {β : Type} {f : Voice → β} (hf : ignoresWrites f) {s t : State}
    {i : Instr} (h : CommandEffect s i t) (hno : s.halted = true ∨ ¬ticksVoices i) :
    t.voices.map f = s.voices.map f := by
  rcases h.voices with ht | ⟨v, x, y, hx, hy, ht⟩ | ⟨hrun, v, x, y, -, hy, -⟩ | ⟨hrun, n, j, hi, -⟩
  · rw [ht]
  · rw [ht]; exact map_set_of_eq hx (hy.field hf)
  · simp [hrun, hy.ticksVoices] at hno
  · simp [hrun, ticksVoices, hi] at hno

/-! ### Switches and indicators -/

/-- What a command does to the switches: nothing, one of them written, or a poll of all. -/
theorem CommandEffect.switches {s t : State} {i : Instr} (h : CommandEffect s i t) :
    t.switches = s.switches ∨
    (∃ k x y, s.switches[k.toNat]? = some x ∧ SwitchWrite k x i y ∧ t.switches = s.switches.set k.toNat y) ∨
    ∃ levels, t.switches = pollSwitches levels s.now s.switches := by
  cases h with
  | switchWritten hx hy => exact .inr (.inl ⟨_, _, _, hx, hy, rfl⟩)
  | pollDone levels => exact .inr (.inr ⟨levels, rfl⟩)
  | _ => exact .inl rfl

/-- What a command does to the indicators: nothing, one of them written, or a poll of all. -/
theorem CommandEffect.indicators {s t : State} {i : Instr} (h : CommandEffect s i t) :
    t.indicators = s.indicators ∨
    (∃ k x y, s.indicators[k.toNat]? = some x ∧ IndicatorWrite k x i y ∧
      t.indicators = s.indicators.set k.toNat y) ∨
    t.indicators = s.indicators.map indicatorStep := by
  cases h with
  | indicatorWritten hx hy => exact .inr (.inl ⟨_, _, _, hx, hy, rfl⟩)
  | pollDone => exact .inr (.inr rfl)
  | _ => exact .inl rfl

/-- How an edge moves the debounced level, or whether a switch counts as pressed (R234, R235). -/
def edgeMoves : Edge → Bool → Bool → Prop
  | .none, before, after => after = before
  | .press, before, after => before = false ∧ after = true
  | .release, before, after => before = true ∧ after = false

/-- The states in which DEB is 1 (R60). -/
def pressedState : ClickState → Bool
  | .pressed => true
  | .doubleClicked => true
  | .held => true
  | .idle => false
  | .released => false

/-- The debounce step writes LEVEL, DEB and CNT only, and moves DEB as the edge says (R233, R234). -/
theorem debounce_eq (raw : Bool) (x : Switch) :
    ∃ deb cnt, debounce raw x = { x with level := raw, deb := deb, cnt := cnt } ∧
      edgeMoves (edgeOf raw x) x.deb deb := by
  by_cases hraw : raw = x.deb
  · exact ⟨x.deb, 0#16, if_pos hraw, by simp [edgeOf, accepts, hraw, edgeMoves]⟩
  · cases hacc : accepts raw x with
    | false => exact ⟨x.deb, countUp x.cnt, by simp [debounce, hraw, hacc], by simp [edgeOf, hacc, edgeMoves]⟩
    | true =>
      refine ⟨raw, 0#16, by simp [debounce, hraw, hacc], ?_⟩
      cases raw <;> simp_all [edgeOf, edgeMoves]

/-- The classification writes STATE, PRESS_T and EVENT only, and moves STATE as the edge says (R235 to R242). -/
theorem classify_eq (edge : Edge) (now : BitVec 32) (x : Switch) :
    ∃ st pressT event, classify edge now x = { x with state := st, pressT := pressT, event := event } ∧
      ∀ after, edgeMoves edge (pressedState x.state) after → pressedState st = after := by
  unfold classify
  dsimp only
  split <;> (try split) <;> exact ⟨_, _, _, rfl, by simp_all [edgeMoves, pressedState]⟩

theorem switchStep_init (raw : Bool) (now : BitVec 32) (x : Switch) : (switchStep raw now x).init = x.init := by
  obtain ⟨deb, cnt, hdebounce, -⟩ := debounce_eq raw x
  obtain ⟨st, pressT, event, hclassify, -⟩ := classify_eq (edgeOf raw x) now (debounce raw x)
  rw [switchStep, hclassify, hdebounce]

/-- No command changes the start-up configuration of a switch. -/
theorem CommandEffect.map_switches_init {s t : State} {i : Instr} (h : CommandEffect s i t) :
    t.switches.map Switch.init = s.switches.map Switch.init := by
  rcases h.switches with ht | ⟨k, x, y, hx, hy, ht⟩ | ⟨levels, ht⟩ <;> rw [ht]
  · exact map_set_of_eq hx (by cases hy <;> rfl)
  · refine List.ext_getElem? fun j => ?_
    simp only [pollSwitches, List.getElem?_map, List.getElem?_mapIdx]
    cases s.switches[j]? <;> simp [switchStep_init]

/-- No command changes the start-up configuration of an indicator. -/
theorem CommandEffect.map_indicators_init {s t : State} {i : Instr} (h : CommandEffect s i t) :
    t.indicators.map Indicator.init = s.indicators.map Indicator.init := by
  rcases h.indicators with ht | ⟨k, x, y, hx, hy, ht⟩ | ht <;> rw [ht]
  · exact map_set_of_eq hx (by cases hy <;> rfl)
  · rw [List.map_map]; rfl

/-! ### Parameters -/

theorem CommandEffect.capacity {s t : State} {i : Instr} (h : CommandEffect s i t) : t.capacity = s.capacity := by
  cases h <;> rfl

theorem CommandEffect.build {s t : State} {i : Instr} (h : CommandEffect s i t) : t.build = s.build := by
  cases h <;> rfl

/-- No command changes a parameter (R30). -/
theorem CommandEffect.startUpOf {s t : State} {i : Instr} (h : CommandEffect s i t) : startUpOf t = startUpOf s := by
  have hvoices : t.voices.map Voice.init = s.voices.map Voice.init :=
    h.map_voices_of_ignoresTicks (fun _ _ _ => rfl) fun _ _ _ hy => hy.field fun _ _ _ _ _ _ => rfl
  simp only [Machine.startUpOf, hvoices, h.map_switches_init, h.map_indicators_init, h.capacity, h.build]

/-- A reset gives the block back its own parameters (R340). -/
theorem startUpOf_ofStartUp (c : StartUp) : startUpOf (State.ofStartUp c) = c := by
  simp [startUpOf, State.ofStartUp, Function.comp_def, voiceAtReset, switchAtReset, indicatorAtReset]

/-- No step changes a parameter (R30). -/
theorem startUpOf_of_step {s t : State} (h : step s = .next t) : startUpOf t = startUpOf s := by
  cases step_effect h with
  | idle => rfl
  | command _ h => exact h.startUpOf
  | reset => exact startUpOf_ofStartUp (startUpOf s)
  | read => rfl

/-! ### Memory -/

/-- A command leaves the buffer, or is an AUD_PERIOD that writes its own frames (R41, R207). -/
theorem CommandEffect.mem {s t : State} {i : Instr} (h : CommandEffect s i t) :
    t.mem = s.mem ∨ (s.halted = false ∧ ∃ n, i = .audPeriod true n ∧ writesOnlyFrames s n.toNat t.mem) := by
  cases h with
  | submitted hrun hm => exact .inr ⟨hrun, _, rfl, hm⟩
  | haltEntered hrun _ hm => exact .inr ⟨hrun, _, rfl, hm⟩
  | _ => exact .inl rfl

/-! ### Counters -/

theorem CommandEffect.now {s t : State} {i : Instr} (h : CommandEffect s i t) :
    t.now = s.now ∨ ((∃ m, i = .ctlPoll m) ∧ t.now = s.now + 1#32) := by
  cases h with
  | pollDone levels => exact .inr ⟨⟨levels, rfl⟩, rfl⟩
  | _ => exact .inl rfl

theorem CommandEffect.underrunCnt {s t : State} {i : Instr} (h : CommandEffect s i t) :
    t.underrunCnt = s.underrunCnt ∨ ((∃ n, i = .audPeriod false n) ∧ t.underrunCnt = s.underrunCnt + 1#32) := by
  cases h with
  | underrun n => exact .inr ⟨⟨n, rfl⟩, rfl⟩
  | _ => exact .inl rfl

theorem CommandEffect.blockCnt {s t : State} {i : Instr} (h : CommandEffect s i t) :
    t.blockCnt = s.blockCnt ∨ ((∃ n, i = .audPeriod true n) ∧ t.blockCnt = s.blockCnt + 1#32) := by
  cases h with
  | submitted => exact .inr ⟨⟨_, rfl⟩, rfl⟩
  | _ => exact .inl rfl

/-! ### Halt, error record and handoff -/

/-- A halted block stays halted, submits nothing and counts no period (R311, R312). -/
theorem CommandEffect.frame_of_halted {s t : State} {i : Instr} (h : CommandEffect s i t) (hs : s.halted = true) :
    t.halted = true ∧ t.haltCause = s.haltCause ∧ t.wbank = s.wbank ∧ t.valid = s.valid ∧ t.lastBank = s.lastBank ∧
    t.outLen = s.outLen ∧ t.blockCnt = s.blockCnt ∧ t.underrunCnt = s.underrunCnt ∧ t.out.submit = none := by
  cases h with
  | underrun _ hrun => exact absurd hs (by simp [hrun])
  | submitted hrun => exact absurd hs (by simp [hrun])
  | haltEntered hrun => exact absurd hs (by simp [hrun])
  | _ => exact ⟨hs, rfl, rfl, rfl, rfl, rfl, rfl, rfl, rfl⟩

/-- The first cause is recorded, a halt records its cause and needs a DEBUG block, and nothing else touches the record
but SYS_CLR_ERR (R48 to R50, R281, R305). -/
theorem CommandEffect.recordOk {s t : State} {i : Instr} (h : CommandEffect s i t) (hs : recordOk s) : recordOk t := by
  obtain ⟨hill, hhalt, hdebug⟩ := hs
  cases h with
  | @illegal _ c hc =>
    refine ⟨⟨fun _ => ?_, fun _ => rfl⟩, hhalt, hdebug⟩
    show (if s.ill then s.illCause else c) ≠ .none
    split
    · exact hill.1 ‹_›
    · exact hc
  | errorCleared => exact ⟨⟨nofun, fun hne => absurd rfl hne⟩, hhalt, hdebug⟩
  | haltEntered _ hb => exact ⟨hill, ⟨fun _ => nofun, fun _ => rfl⟩, fun _ => hb⟩
  | _ => exact ⟨hill, hhalt, hdebug⟩

/-- A submission hands over the bank that was written and turns to the other; nothing else touches the handoff
(R210). -/
theorem CommandEffect.handoffOk {s t : State} {i : Instr} (h : CommandEffect s i t) (hs : handoffOk s) :
    handoffOk t := by
  cases h with
  | submitted =>
    refine ⟨fun _ => ⟨rfl, ?_⟩, nofun⟩
    exact Nat.le_trans (Nat.mod_le _ _) (Nat.min_le_right _ _)
  | _ => exact hs

/-! ### Invariants of the banks over a step -/

/-- A member of a list with one element replaced is the new one or a member. -/
theorem forall_mem_set {α : Type} {P : α → Prop} {xs : List α} {k : Nat} {x y : α} (h : ∀ z ∈ xs, P z)
    (hx : xs[k]? = some x) (hy : P x → P y) : ∀ z ∈ xs.set k y, P z := by
  intro z hz
  rcases List.mem_or_eq_of_mem_set hz with hz | rfl
  · exact h z hz
  · exact hy (h x (List.mem_of_getElem? hx))

/-- What reset establishes and writes and ticks keep holds of every voice after every step. -/
theorem step_keeps_voices {P : Voice → Prop} (reset : ∀ c, P (voiceAtReset c))
    (write : ∀ v x i y, VoiceWrite v x i y → P x → P y) (tick : ∀ v x i y, VoiceTick v x i y → P x → P y.voice)
    {s t : State} (h : step s = .next t) (hs : ∀ x ∈ s.voices, P x) : ∀ x ∈ t.voices, P x := by
  cases step_effect h with
  | idle => exact hs
  | command _ h =>
    rcases h.voices with ht | ⟨v, x, y, hx, hy, ht⟩ | ⟨-, v, x, y, hx, hy, ht⟩ | ⟨-, n, j, -, ht⟩ <;> rw [ht]
    · exact hs
    · exact forall_mem_set hs hx (write v x _ y hy)
    · exact forall_mem_set hs hx (tick v x _ y hy)
    · exact voicesAfter_keeps (fun x y hy => tick 0#8 x _ y (.blep hy)) j hs
  | reset => exact List.forall_mem_map.2 fun c _ => reset c
  | read => exact hs

/-- What reset establishes and writes and polls keep holds of every switch after every step. -/
theorem step_keeps_switches {P : Switch → Prop} (reset : ∀ c, P (switchAtReset c))
    (write : ∀ k x i y, SwitchWrite k x i y → P x → P y) (poll : ∀ raw now x, P x → P (switchStep raw now x))
    {s t : State} (h : step s = .next t) (hs : ∀ x ∈ s.switches, P x) : ∀ x ∈ t.switches, P x := by
  cases step_effect h with
  | idle => exact hs
  | command _ h =>
    rcases h.switches with ht | ⟨k, x, y, hx, hy, ht⟩ | ⟨levels, ht⟩ <;> rw [ht]
    · exact hs
    · exact forall_mem_set hs hx (write k x _ y hy)
    · intro y hy
      obtain ⟨j, hj, rfl⟩ := List.mem_mapIdx.1 hy
      exact poll _ _ _ (hs _ (List.getElem_mem hj))
  | reset => exact List.forall_mem_map.2 fun c _ => reset c
  | read => exact hs

/-- What reset establishes and writes and polls keep holds of every indicator after every step. -/
theorem step_keeps_indicators {P : Indicator → Prop} (reset : ∀ c, P (indicatorAtReset c))
    (write : ∀ k x i y, IndicatorWrite k x i y → P x → P y) (poll : ∀ x, P x → P (indicatorStep x))
    {s t : State} (h : step s = .next t) (hs : ∀ x ∈ s.indicators, P x) : ∀ x ∈ t.indicators, P x := by
  cases step_effect h with
  | idle => exact hs
  | command _ h =>
    rcases h.indicators with ht | ⟨k, x, y, hx, hy, ht⟩ | ht <;> rw [ht]
    · exact hs
    · exact forall_mem_set hs hx (write k x _ y hy)
    · exact List.forall_mem_map.2 fun x hx => poll x (hs x hx)
  | reset => exact List.forall_mem_map.2 fun c _ => reset c
  | read => exact hs

end Sys2Proof.Machine
end

section
/-! Intervals that the operations of R20 do not leave: the cycle [0, TWO_PI_F) of the phase advance (R153, R154) and the
unit interval of the brightness ramp (R260, R263). -/

namespace Sys2Proof.Machine

/-! ### The phase advance -/

theorem signOf_twoPiF : signOf twoPiF = false := by decide

theorem twoPiF_finite : magOf twoPiF < infMag := by decide

/-- The double of TWO_PI_F is the next exponent's pattern. -/
theorem unitsOfMag_double_twoPiF : unitsOfMag (magOf twoPiF + 2 ^ 23) = 2 * unitsOf twoPiF := by decide

/-- A number of [0, TWO_PI_F) is below TWO_PI_F in magnitude, and negative only as −0.0. -/
theorem inCycle_iff (v : F32) :
    inCycle v = true ↔ magOf v < magOf twoPiF ∧ (signOf v = false ∨ magOf v = 0) := by
  rw [inCycle, Bool.and_eq_true, between_zero_iff signOf_twoPiF twoPiF_finite]
  have h0 : 0 < magOf twoPiF := by decide
  cases signOf v with
  | false => simp
  | true => simp; omega

/-- R37 in terms of sign and magnitude. -/
theorem phaseOk_iff (x : Voice) : phaseOk x ↔ signOf x.phase = false ∧ magOf x.phase < magOf twoPiF := by
  have hnz : signOf x.phase = true ∧ magOf x.phase = 0 ↔ x.phase = 0x80000000#32 :=
    ⟨fun h => f32_ext h.1 h.2, fun h => by rw [h]; decide⟩
  rw [phaseOk, ← and_assoc, between_zero_iff signOf_twoPiF twoPiF_finite, Ne, ← hnz]
  cases signOf x.phase with
  | false => simp
  | true => simpa using fun h _ => h

theorem signedUnits_eq_of_nonneg {x : F32} (h : signOf x = false ∨ magOf x = 0) : signedUnits x = unitsOf x := by
  rcases h with h | h
  · simp [signedUnits, h]
  · simp [signedUnits, unitsOf, h]

/-- The sum of a phase and an increment of the cycle is not negative and at most twice TWO_PI_F. -/
theorem add32_in_cycle {phase pinc : F32} (hs : signOf phase = false) (hp : magOf phase < magOf twoPiF)
    (hi : inCycle pinc = true) :
    ∃ m ≤ magOf twoPiF + 2 ^ 23, add32 phase pinc = packF false m := by
  obtain ⟨hinc, hsign⟩ := (inCycle_iff pinc).1 hi
  have htwoPi := twoPiF_finite
  refine ⟨roundMag (unitsOf phase + unitsOf pinc) 1, ?_, ?_⟩
  · have hphase : unitsOf phase ≤ unitsOf twoPiF := unitsOfMag_le htwoPi (Nat.le_of_lt hp)
    have hpinc : unitsOf pinc ≤ unitsOf twoPiF := unitsOfMag_le htwoPi (Nat.le_of_lt hinc)
    exact roundMag_le_of_le (by decide) Nat.one_pos (by rw [unitsOfMag_double_twoPiF]; omega)
  · rw [add32_finite (by omega) (by omega), signedUnits_eq_of_nonneg (.inl hs), signedUnits_eq_of_nonneg hsign, hs,
      Bool.false_and, ← Nat.cast_add, packSum_ofNat]

theorem ge32_twoPiF_packF {m : Nat} (h : m ≤ infMag) :
    ge32 (packF false m) twoPiF = decide (magOf twoPiF ≤ m) := by
  have hlt : m < 2 ^ 31 := Nat.lt_of_le_of_lt h infMag_lt
  rw [ge32_nonneg (signOf_packF _ hlt) signOf_twoPiF (by rwa [magOf_packF _ hlt]) (Nat.le_of_lt twoPiF_finite),
    magOf_packF _ hlt]

/-- TWO_PI_F subtracted from a number that is at least TWO_PI_F and at most twice that leaves at most TWO_PI_F. -/
theorem sub32_twoPiF {m : Nat} (hlo : magOf twoPiF ≤ m) (hup : m ≤ magOf twoPiF + 2 ^ 23) :
    ∃ m' ≤ magOf twoPiF, sub32 (packF false m) twoPiF = packF false m' := by
  have hfin : magOf twoPiF + 2 ^ 23 < infMag := by decide
  have hlt : m < 2 ^ 31 := by have := infMag_lt; omega
  have hmag : magOf (packF false m) = m := magOf_packF _ hlt
  refine ⟨roundMag (unitsOf (packF false m) - unitsOf twoPiF) 1, ?_,
    sub32_of_le (signOf_packF _ hlt) signOf_twoPiF (by omega) (by omega)⟩
  have hunits : unitsOf (packF false m) ≤ 2 * unitsOf twoPiF := by
    rw [← unitsOfMag_double_twoPiF, unitsOf, hmag]
    exact unitsOfMag_le hfin hup
  exact roundMag_le_of_le twoPiF_finite Nat.one_pos (by show _ ≤ unitsOf twoPiF * 1; omega)

theorem sub32_twoPiF_self : sub32 (packF false (magOf twoPiF)) twoPiF = packF false 0 := by
  have hpack : packF false (magOf twoPiF) = twoPiF :=
    f32_ext ((signOf_packF _ (magOf_lt _)).trans signOf_twoPiF.symm) (magOf_packF _ (magOf_lt _))
  rw [hpack, sub32_of_le signOf_twoPiF signOf_twoPiF twoPiF_finite (Nat.le_refl _), Nat.sub_self, roundMag_zero]

/-- From at most twice TWO_PI_F two iterations of the loop of R153 come to the cycle: the first leaves at most TWO_PI_F,
and the second is only run there and leaves +0.0 (R154). -/
theorem wrapPhase_two {m : Nat} (h : m ≤ magOf twoPiF + 2 ^ 23) :
    ∃ m' < magOf twoPiF, wrapPhase 2 (packF false m) = packF false m' := by
  have hfin : magOf twoPiF + 2 ^ 23 < infMag := by decide
  rw [wrapPhase, ge32_twoPiF_packF (Nat.le_of_lt (Nat.lt_of_le_of_lt h hfin))]
  by_cases hfirst : magOf twoPiF ≤ m
  · obtain ⟨m', hm', hsub⟩ := sub32_twoPiF hfirst h
    rw [decide_eq_true hfirst, if_pos rfl, hsub, wrapPhase,
      ge32_twoPiF_packF (Nat.le_of_lt (Nat.lt_of_le_of_lt hm' twoPiF_finite)), wrapPhase]
    by_cases hsecond : magOf twoPiF ≤ m'
    · refine ⟨0, by decide, ?_⟩
      rw [decide_eq_true hsecond, if_pos rfl, Nat.le_antisymm hm' hsecond, sub32_twoPiF_self]
    · exact ⟨m', Nat.lt_of_not_le hsecond, by rw [decide_eq_false hsecond]; rfl⟩
  · exact ⟨m, Nat.lt_of_not_le hfirst, by rw [decide_eq_false hfirst]; rfl⟩

/-- The next phase of a voice in domain is in the cycle and not −0.0 (R154). -/
theorem phaseOk_advance {x : Voice} (h : phaseOk x) (hd : inDomain x = true) : phaseOk (advance x) := by
  obtain ⟨hsign, hphase⟩ := (phaseOk_iff x).1 h
  rw [inDomain, Bool.and_eq_true] at hd
  obtain ⟨m, hm, hadd⟩ := add32_in_cycle hsign hphase hd.1
  obtain ⟨m', hm', hwrap⟩ := wrapPhase_two hm
  have hnext : (advance x).phase = packF false m' := by
    show wrapPhase 2 (add32 x.phase x.pinc) = _
    rw [hadd, hwrap]
  have hlt : m' < 2 ^ 31 := Nat.lt_trans hm' (magOf_lt _)
  rw [phaseOk_iff, hnext, signOf_packF _ hlt, magOf_packF _ hlt]
  exact ⟨rfl, hm'⟩

/-! ### The unit interval -/

theorem orderOf_packF (neg : Bool) {m : Nat} (h : m < 2 ^ 31) :
    orderOf (packF neg m) = if neg then -(m : Int) else m := by
  rw [orderOf, signOf_packF neg h, magOf_packF neg h]

/-- The place of an exact sum in the order of binary32: a sum of zero is at 0, whatever its sign. -/
theorem orderOf_packSum (neg : Bool) (z : Int) :
    orderOf (packSum neg z) = if z < 0 then -(roundMag z.natAbs 1 : Int) else roundMag z.natAbs 1 := by
  unfold packSum
  split
  case isTrue hz => subst hz; rw [orderOf_packF neg (by decide)]; simp
  case isFalse hz => rw [orderOf_packF _ (roundMag_lt _ _)]; simp

/-- Rounding a sum does not pass a value that the exact sum is not above. -/
theorem orderOf_packSum_le (neg : Bool) {z : Int} {v : F32} (hv : magOf v < infMag) (h : z ≤ signedUnits v) :
    orderOf (packSum neg z) ≤ orderOf v := by
  have hunits : unitsOf v = unitsOfMag (magOf v) := rfl
  rw [orderOf_packSum]
  unfold signedUnits at h
  unfold orderOf
  cases hs : signOf v <;> simp only [hs, Bool.false_eq_true, if_true, if_false] at h ⊢
  · split
    · omega
    · have hround := roundMag_le_of_le (num := z.natAbs) hv Nat.one_pos (by omega)
      omega
  · have hround := le_roundMag_of_le (num := z.natAbs) hv Nat.one_pos (by omega)
    split
    · omega
    · have h0 := (unitsOf_eq_zero_iff hv).1 (by omega)
      have hz : z = 0 := by omega
      simp [hz, h0]

/-- Rounding a sum does not pass a value that the exact sum is not below. -/
theorem le_orderOf_packSum (neg : Bool) {z : Int} {v : F32} (hv : magOf v < infMag) (h : signedUnits v ≤ z) :
    orderOf v ≤ orderOf (packSum neg z) := by
  have hunits : unitsOf v = unitsOfMag (magOf v) := rfl
  rw [orderOf_packSum]
  unfold signedUnits at h
  unfold orderOf
  cases hs : signOf v <;> simp only [hs, Bool.false_eq_true, if_true, if_false] at h ⊢
  · have hround := le_roundMag_of_le (num := z.natAbs) hv Nat.one_pos (by omega)
    rw [if_neg (by omega)]
    omega
  · split
    · have hround := roundMag_le_of_le (num := z.natAbs) hv Nat.one_pos (by omega)
      omega
    · omega

/-- Lying in [0, 1] in terms of the order of binary32. -/
theorem inUnit_iff (v : F32) : inUnit v ↔ isNaN v = false ∧ 0 ≤ orderOf v ∧ orderOf v ≤ orderOf oneF := by
  have hzero : isNaN zeroF = false ∧ orderOf zeroF = 0 := by decide
  have hone : isNaN oneF = false := by decide
  simp only [inUnit, ge32, ordered, hzero, hone, Bool.not_false, Bool.and_true, Bool.true_and, Bool.and_eq_true,
    Bool.not_eq_true', decide_eq_true_eq]
  tauto

/-- Among values other than NaN, not below is at least. -/
theorem orderOf_le_of_not_lt32 {a b : F32} (ha : isNaN a = false) (hb : isNaN b = false) (h : ¬lt32 a b = true) :
    orderOf b ≤ orderOf a := by
  rwa [lt32_iff ha hb, not_lt] at h

/-- A value of [0, 1] is finite. -/
theorem magOf_lt_of_inUnit {v : F32} (h : inUnit v) : magOf v < infMag := by
  obtain ⟨-, hlo, hup⟩ := (inUnit_iff v).1 h
  have hone : orderOf oneF < infMag := by decide
  unfold orderOf at hlo hup hone
  split at hlo <;> simp_all <;> omega

theorem signedUnits_nonneg_of_inUnit {v : F32} (h : inUnit v) : 0 ≤ signedUnits v := by
  have hfin := magOf_lt_of_inUnit h
  obtain ⟨-, hlo, -⟩ := (inUnit_iff v).1 h
  unfold orderOf at hlo
  unfold signedUnits
  split
  case isTrue hs =>
    rw [if_pos hs] at hlo
    have := (unitsOf_eq_zero_iff hfin).2 (by omega)
    omega
  case isFalse => omega

/-- clamp01 lands in [0, 1] (R263). -/
theorem clamp01_inUnit (x : F32) : inUnit (clamp01 x) := by
  have hzero : inUnit zeroF := by unfold inUnit; decide
  have hone : inUnit oneF := by unfold inUnit; decide
  unfold clamp01
  split
  case isFalse => exact hzero
  case isTrue hpos =>
    split
    case isTrue => exact hone
    case isFalse hle =>
      have hx : isNaN x = false := by
        by_contra hnan
        simp [(comparisons_of_isNaN (b := zeroF) (.inl (Bool.eq_true_of_not_eq_false hnan))).2.1] at hpos
      rw [gt32_eq_lt32] at hpos hle
      rw [lt32_iff (by decide) hx, show orderOf zeroF = 0 by decide] at hpos
      exact (inUnit_iff x).2 ⟨hx, Int.le_of_lt hpos, orderOf_le_of_not_lt32 (by decide) hx hle⟩

/-- A sum of two numbers of [0, 1] is not negative and not a NaN. -/
theorem add32_of_inUnit {a b : F32} (ha : inUnit a) (hb : inUnit b) :
    isNaN (add32 a b) = false ∧ 0 ≤ orderOf (add32 a b) := by
  have hfa := magOf_lt_of_inUnit ha
  have hfb := magOf_lt_of_inUnit hb
  refine ⟨isNaN_add32_finite hfa hfb, ?_⟩
  have hsum : signedUnits zeroF ≤ signedUnits a + signedUnits b := by
    have h0 : signedUnits zeroF = 0 := by decide
    have hua := signedUnits_nonneg_of_inUnit ha
    have hub := signedUnits_nonneg_of_inUnit hb
    omega
  rw [add32_finite hfa hfb]
  exact le_orderOf_packSum (v := zeroF) _ (by decide) hsum

/-- A difference of two numbers of [0, 1] is not above the first, and not a NaN. -/
theorem sub32_of_inUnit {a b : F32} (ha : inUnit a) (hb : inUnit b) :
    isNaN (sub32 a b) = false ∧ orderOf (sub32 a b) ≤ orderOf a := by
  have hfa := magOf_lt_of_inUnit ha
  have hfb : magOf (negF b) < infMag := by rw [magOf_negF]; exact magOf_lt_of_inUnit hb
  have hub := signedUnits_nonneg_of_inUnit hb
  unfold sub32
  refine ⟨isNaN_add32_finite hfa hfb, ?_⟩
  rw [add32_finite hfa hfb]
  exact orderOf_packSum_le _ hfa (by rw [signedUnits_negF]; omega)

/-- The ramp of R260 does not leave [0, 1]: on the way up it ends at TARGET at the latest and the sum is not negative, on
the way down likewise and the difference is not above CUR. -/
theorem rampCur_inUnit {x : Indicator} (h : indicatorOk x) : inUnit (rampCur x) := by
  obtain ⟨hcur, htarget, hstep⟩ := h
  obtain ⟨htn, ht0, ht1⟩ := (inUnit_iff _).1 htarget
  unfold rampCur
  split
  case isTrue =>
    obtain ⟨hn, hlo⟩ := add32_of_inUnit hcur hstep
    unfold min32
    split
    case isTrue => exact htarget
    case isFalse hle =>
      exact (inUnit_iff _).2 ⟨hn, hlo, Int.le_trans (orderOf_le_of_not_lt32 htn hn hle) ht1⟩
  case isFalse =>
    split
    case isTrue =>
      obtain ⟨hn, hup⟩ := sub32_of_inUnit hcur hstep
      obtain ⟨-, -, hcur1⟩ := (inUnit_iff _).1 hcur
      unfold max32
      rw [gt32_eq_lt32]
      split
      case isTrue => exact htarget
      case isFalse hge =>
        exact (inUnit_iff _).2 ⟨hn, Int.le_trans ht0 (orderOf_le_of_not_lt32 hn htn hge), Int.le_trans hup hcur1⟩
    case isFalse => exact hcur

end Sys2Proof.Machine
end

section
/-! The fields of the words that STATUS, OUTINFO, CAPS and BLKCAP read as (R43, R47, R51, R52). -/

namespace Sys2Proof.Machine

open BitVec (extractLsb'_append_eq_of_le extractLsb'_append_eq_right extractLsb'_eq_self getLsbD_append)

/-! Each proof drops the fields below the one that is read. -/

theorem statusWord_flags (s : State) : (statusWord s).getLsbD 0 = s.halted ∧ (statusWord s).getLsbD 1 = s.ill := by
  rw [statusWord]
  refine ⟨?_, ?_⟩
  · rw [getLsbD_append]
    simp
  · rw [getLsbD_append, getLsbD_append]
    simp

theorem statusWord_fields (s : State) :
    (statusWord s).extractLsb' 2 2 = 0#2 ∧ (statusWord s).extractLsb' 4 4 = illCauseCode s.illCause ∧
    (statusWord s).extractLsb' 8 4 = haltCauseCode s.haltCause ∧ (statusWord s).extractLsb' 12 1 = s.wbank ∧
    (statusWord s).extractLsb' 13 19 = 0#19 := by
  rw [statusWord]
  refine ⟨?_, ?_, ?_, ?_, ?_⟩
  all_goals repeat rw [extractLsb'_append_eq_of_le (by decide)]
  exacts [extractLsb'_append_eq_right, extractLsb'_append_eq_right, extractLsb'_append_eq_right,
    extractLsb'_append_eq_right, extractLsb'_eq_self]

theorem outinfoWord_fields (s : State) :
    (outinfoWord s).extractLsb' 0 16 = s.outLen ∧ (outinfoWord s).extractLsb' 16 1 = s.lastBank ∧
    (outinfoWord s).extractLsb' 17 14 = 0#14 ∧ (outinfoWord s).getLsbD 31 = s.valid := by
  rw [outinfoWord]
  refine ⟨extractLsb'_append_eq_right, ?_, ?_, ?_⟩
  · rw [extractLsb'_append_eq_of_le (by decide)]
    exact extractLsb'_append_eq_right
  · repeat rw [extractLsb'_append_eq_of_le (by decide)]
    exact extractLsb'_append_eq_right
  · rw [getLsbD_append, getLsbD_append, getLsbD_append]
    simp

theorem capsWord_fields (s : State) :
    (capsWord s).extractLsb' 0 8 = BitVec.ofNat 8 (s.voices.length - 1) ∧
    (capsWord s).extractLsb' 8 5 = BitVec.ofNat 5 (s.switches.length - 1) ∧
    (capsWord s).extractLsb' 13 3 = 0#3 ∧
    (capsWord s).extractLsb' 16 4 = BitVec.ofNat 4 (s.indicators.length - 1) ∧
    (capsWord s).extractLsb' 20 11 = 0#11 := by
  rw [capsWord]
  refine ⟨extractLsb'_append_eq_right, ?_, ?_, ?_, ?_⟩
  all_goals repeat rw [extractLsb'_append_eq_of_le (by decide)]
  all_goals exact extractLsb'_append_eq_right

theorem capsWord_build (s : State) : (capsWord s).getLsbD 31 = (buildBit s.build).getLsbD 0 := by
  rw [capsWord]
  repeat rw [getLsbD_append, if_neg (by decide)]

theorem blkcapWord_fields (s : State) :
    (blkcapWord s).extractLsb' 0 16 = BitVec.ofNat 16 s.capacity ∧ (blkcapWord s).extractLsb' 16 16 = 0#16 := by
  rw [blkcapWord]
  refine ⟨extractLsb'_append_eq_right, ?_⟩
  rw [extractLsb'_append_eq_of_le (by decide)]
  exact extractLsb'_eq_self

theorem buildBit_set_iff (b : BuildMode) : (buildBit b).getLsbD 0 = true ↔ b = .debug := by
  cases b <;> decide

/-- CAPS is a function of the parameters. -/
theorem capsWord_congr {s t : State} (h : startUpOf t = startUpOf s) : capsWord t = capsWord s := by
  have hvoices := congrArg (fun c => c.voices.length) h
  have hswitches := congrArg (fun c => c.switches.length) h
  have hindicators := congrArg (fun c => c.indicators.length) h
  have hbuild : t.build = s.build := congrArg StartUp.build h
  simp only [startUpOf, List.length_map] at hvoices hswitches hindicators
  rw [capsWord, capsWord, hvoices, hswitches, hindicators, hbuild]

/-- BLKCAP is a function of the parameters. -/
theorem blkcapWord_congr {s t : State} (h : startUpOf t = startUpOf s) : blkcapWord t = blkcapWord s := by
  have hcapacity : t.capacity = s.capacity := congrArg StartUp.capacity h
  rw [blkcapWord, blkcapWord, hcapacity]

end Sys2Proof.Machine
end

section
/-! What a poll and the writes keep of a switch and of an indicator (R60, R67, R69), and reset of the error record and
the handoff. -/

namespace Sys2Proof.Machine

/-- R60 as one equation. -/
theorem switchOk_iff (x : Switch) : switchOk x ↔ x.deb = pressedState x.state := by
  unfold switchOk
  cases x.deb <;> cases x.state <;> simp [pressedState]

theorem switchOk_switchAtReset (c : SwitchInit) : switchOk (switchAtReset c) := (switchOk_iff _).2 rfl

theorem SwitchWrite.switchOk {k : BitVec 8} {x y : Switch} {i : Instr} (h : SwitchWrite k x i y) (hx : switchOk x) :
    switchOk y := by
  cases h <;> exact hx

/-- The edge that moves DEB moves STATE with it (R234, R235). -/
theorem switchOk_switchStep (raw : Bool) (now : BitVec 32) {x : Switch} (h : switchOk x) :
    switchOk (switchStep raw now x) := by
  rw [switchOk_iff] at h
  obtain ⟨deb, cnt, hdebounce, hmove⟩ := debounce_eq raw x
  obtain ⟨st, pressT, event, hclassify, hfollow⟩ := classify_eq (edgeOf raw x) now (debounce raw x)
  have hstate : (debounce raw x).state = x.state := by rw [hdebounce]
  rw [switchStep, switchOk_iff, hclassify, hdebounce]
  exact (hfollow deb (by rwa [hstate, ← h])).symm

theorem indicatorOk_indicatorAtReset (c : IndicatorInit) : indicatorOk (indicatorAtReset c) := by
  have hzero : inUnit zeroF := by unfold inUnit; decide
  exact ⟨hzero, clamp01_inUnit _, clamp01_inUnit _⟩

theorem blinkOk_indicatorAtReset (c : IndicatorInit) : blinkOk (indicatorAtReset c) :=
  Nat.lt_of_lt_of_le Nat.one_pos (Nat.le_max_right _ _)

/-- What is written as a target or a step is clamped, and a new schedule starts at 0 (R264 to R266). -/
theorem IndicatorWrite.indicatorOk {k : BitVec 8} {x y : Indicator} {i : Instr} (h : IndicatorWrite k x i y)
    (hx : indicatorOk x ∧ blinkOk x) : indicatorOk y ∧ blinkOk y := by
  obtain ⟨⟨hcur, htarget, hstep⟩, hblink⟩ := hx
  cases h with
  | target f => exact ⟨⟨hcur, clamp01_inUnit f, hstep⟩, hblink⟩
  | step f => exact ⟨⟨hcur, htarget, clamp01_inUnit f⟩, hblink⟩
  | blink p => exact ⟨⟨hcur, htarget, hstep⟩, Nat.lt_of_lt_of_le Nat.one_pos (Nat.le_max_right _ _)⟩

/-- BCNT stays below BLINK, or at 0 where BLINK is 0 (R261). -/
theorem blinkCount_lt {x : Indicator} (h : blinkOk x) : (blinkCount x).toNat < max x.blink.toNat 1 := by
  unfold blinkOk at h
  unfold blinkCount
  split
  case isTrue => exact Nat.lt_of_lt_of_le Nat.one_pos (Nat.le_max_right _ _)
  case isFalse hblink =>
    have hpos : x.blink.toNat ≠ 0 := fun h0 => hblink (BitVec.eq_of_toNat_eq h0)
    split
    case isTrue => exact Nat.lt_of_lt_of_le Nat.one_pos (Nat.le_max_right _ _)
    case isFalse hlast =>
      have hbound := x.blink.isLt
      rw [BitVec.toNat_add, BitVec.toNat_ofNat]
      omega

theorem indicatorOk_indicatorStep {x : Indicator} (h : indicatorOk x ∧ blinkOk x) :
    indicatorOk (indicatorStep x) ∧ blinkOk (indicatorStep x) := by
  obtain ⟨hunit, hblink⟩ := h
  exact ⟨⟨rampCur_inUnit hunit, hunit.2⟩, blinkCount_lt hblink⟩

/-! ### Voices -/

/-- PHASE is in the cycle and PINC is the increment of FREQ and SR. -/
def voiceOk (x : Voice) : Prop := phaseOk x ∧ pincOk x

theorem voiceOk_voiceAtReset (c : VoiceInit) : voiceOk (voiceAtReset c) :=
  ⟨(phaseOk_iff _).2 (by show signOf zeroF = false ∧ magOf zeroF < magOf twoPiF; decide), rfl⟩

/-- FREQ and SR are written with PINC, and PHASE is left (R151, R170 to R173). -/
theorem VoiceWrite.voiceOk {v : BitVec 8} {x y : Voice} {i : Instr} (h : VoiceWrite v x i y) (hx : voiceOk x) :
    voiceOk y := by
  obtain ⟨hphase, hpinc⟩ := hx
  cases h with
  | freq f => exact ⟨hphase, rfl⟩
  | sr f => exact ⟨hphase, rfl⟩
  | wave w => exact ⟨hphase, hpinc⟩
  | en e => exact ⟨hphase, hpinc⟩

/-- A tick happens in domain only, where PHASE stays in the cycle; it leaves FREQ, SR and PINC (R154). -/
theorem VoiceTick.voiceOk {v : BitVec 8} {x : Voice} {i : Instr} {y : Ticked} (h : VoiceTick v x i y) (hx : voiceOk x) :
    voiceOk y.voice := by
  obtain ⟨hphase, hpinc⟩ := hx
  cases h with
  | blep h =>
    rw [tickBlep_voice h]
    have hdomain : inDomain x = true := inDomain_of_tickBlep h
    exact ⟨phaseOk_advance (x := { x with last := lastAfterBlep x }) hphase hdomain, hpinc⟩
  | naive h =>
    rw [tickNaive_voice h]
    exact ⟨phaseOk_advance hphase (inDomain_of_tickNaive h), hpinc⟩

/-! ### Reset -/

theorem recordOk_resetBlock (s : State) : recordOk (resetBlock s) :=
  ⟨⟨nofun, fun h => absurd rfl h⟩, ⟨nofun, fun h => absurd rfl h⟩, nofun⟩

theorem handoffOk_resetBlock (s : State) : handoffOk (resetBlock s) := ⟨nofun, fun _ => ⟨rfl, rfl, rfl⟩⟩

end Sys2Proof.Machine
end

section
/-! The obligations of spec/10_state.md. -/

namespace Sys2Proof.Machine

/-- Settles O20: each field is read out of the concatenation that the word is. -/
theorem statusAndOutinfoLayout : Obligations.StatusAndOutinfoLayout := by
  unfold Obligations.StatusAndOutinfoLayout
  refine ⟨fun s => ?_, ⟨rfl, rfl, rfl, rfl, rfl⟩, rfl, rfl⟩
  obtain ⟨hhalted, hill⟩ := statusWord_flags s
  obtain ⟨hzero2, hillCause, hhaltCause, hwbank, hzero13⟩ := statusWord_fields s
  exact ⟨hhalted, hill, hzero2, hillCause, hhaltCause, hwbank, hzero13, outinfoWord_fields s⟩

/-- Settles O21: the lengths fit their fields within the bounds, and no step changes a parameter. -/
theorem capsAndBlkcapReportTheParameters : Obligations.CapsAndBlkcapReportTheParameters := by
  unfold Obligations.CapsAndBlkcapReportTheParameters
  refine ⟨fun s hs => ?_, fun s hp => ⟨onPort_of_eq _ hp, onPort_of_eq _ hp⟩, fun s t h => ?_⟩
  · obtain ⟨⟨hv0, hv⟩, ⟨hw0, hw⟩, ⟨hi0, hi⟩, hc0, hc⟩ := (parametersOk_iff s).1 hs
    obtain ⟨hvoices, hswitches, hzero13, hindicators, hzero20⟩ := capsWord_fields s
    obtain ⟨hcapacity, hzero16⟩ := blkcapWord_fields s
    rw [hvoices, hswitches, hindicators, capsWord_build, hcapacity]
    exact ⟨Nat.mod_eq_of_lt (by omega), Nat.mod_eq_of_lt (by omega), hzero13, Nat.mod_eq_of_lt (by omega), hzero20,
      buildBit_set_iff s.build, Nat.mod_eq_of_lt (by omega), hzero16⟩
  · have hparam := startUpOf_of_step h
    exact ⟨hparam, capsWord_congr hparam, blkcapWord_congr hparam⟩

/-- Settles O31: reset, the SET commands and a tick of a voice in domain each keep `voiceOk`. -/
theorem stepsKeepPhaseAndIncrement : Obligations.StepsKeepPhaseAndIncrement := by
  unfold Obligations.StepsKeepPhaseAndIncrement
  intro s t hs h
  exact step_keeps_voices (P := voiceOk) voiceOk_voiceAtReset (fun _ _ _ _ => VoiceWrite.voiceOk)
    (fun _ _ _ _ => VoiceTick.voiceOk) h hs

/-- Settles O42: the only writes to memory are those of the frame loop. -/
theorem periodsWriteOnlyTheirOwnFrames : Obligations.PeriodsWriteOnlyTheirOwnFrames := by
  unfold Obligations.PeriodsWriteOnlyTheirOwnFrames
  refine ⟨fun s t r n h a ha => ?_, fun i s t hi h a => ?_⟩
  · rcases (exec_effect h).mem with hm | ⟨-, n', hn, hm⟩
    · rw [byteAt, hm, byteAt]
    · cases hn
      exact hm a ha
  · rcases (exec_effect h).mem with hm | ⟨-, n, hn, -⟩
    · rw [byteAt, hm, byteAt]
    · exact absurd hn (hi true n)

/-- Settles O43: a SET command writes neither PHASE nor LAST, and a tick writes nothing else. -/
theorem voiceFieldsHaveOneOwner : Obligations.VoiceFieldsHaveOneOwner := by
  unfold Obligations.VoiceFieldsHaveOneOwner
  intro i s t h
  have heffect := exec_effect h
  constructor
  · intro hperiod hblep hnaive
    have hno : ¬ticksVoices i := by
      rintro (⟨n, hi⟩ | ⟨v, hi⟩ | ⟨v, hi⟩)
      · exact hperiod true n hi
      · exact hblep v hi
      · exact hnaive v hi
    exact ⟨heffect.map_voices_of_ignoresWrites (fun _ _ _ _ _ _ => rfl) (.inr hno),
      heffect.map_voices_of_ignoresWrites (fun _ _ _ _ _ _ => rfl) (.inr hno)⟩
  · intro hi
    have hwrite : ∀ v x y, ¬VoiceWrite v x i y := by
      rcases hi with ⟨r, n, rfl⟩ | ⟨v, rfl⟩ | ⟨v, rfl⟩ <;>
        exact fun _ _ _ hy => nomatch hy
    have hfield {β : Type} {f : Voice → β} (hf : ignoresTicks f) : t.voices.map f = s.voices.map f :=
      heffect.map_voices_of_ignoresTicks hf fun v x y hy => absurd hy (hwrite v x y)
    exact ⟨hfield fun _ _ _ => rfl, hfield fun _ _ _ => rfl, hfield fun _ _ _ => rfl, hfield fun _ _ _ => rfl,
      hfield fun _ _ _ => rfl⟩

/-- Settles O44: every effect of a halted block's command is one that neither ticks, writes, counts nor submits. -/
theorem onlyResetEndsTheHalt : Obligations.OnlyResetEndsTheHalt := by
  unfold Obligations.OnlyResetEndsTheHalt
  refine ⟨fun s t hs hno h => ?_, fun i s t hs h => ?_⟩
  · cases step_effect h with
    | idle => exact ⟨hs, rfl⟩
    | command _ h =>
      obtain ⟨hhalted, hcause, -⟩ := h.frame_of_halted hs
      exact ⟨hhalted, hcause⟩
    | reset hin => exact absurd hin (hno _)
    | read => exact ⟨hs, rfl⟩
  · have heffect := exec_effect h
    obtain ⟨hhalted, hcause, hframe⟩ := heffect.frame_of_halted hs
    have hmem : t.mem = s.mem := heffect.mem.resolve_right fun hw => by simp [hs] at hw
    exact ⟨hhalted, hcause, fun a => by rw [byteAt, hmem, byteAt],
      heffect.map_voices_of_ignoresWrites (fun _ _ _ _ _ _ => rfl) (.inl hs),
      heffect.map_voices_of_ignoresWrites (fun _ _ _ _ _ _ => rfl) (.inl hs), hframe⟩

/-- Settles O45: counter by counter over the effects of a command. -/
theorem countersMoveOnlyByTheirCommands : Obligations.CountersMoveOnlyByTheirCommands := by
  unfold Obligations.CountersMoveOnlyByTheirCommands
  intro i s t h
  have heffect := exec_effect h
  exact ⟨heffect.now, heffect.underrunCnt, heffect.blockCnt⟩

/-- Settles O48: every effect of a command keeps both, and reset establishes both. -/
theorem stepsKeepRecordAndHandoff : Obligations.StepsKeepRecordAndHandoff := by
  unfold Obligations.StepsKeepRecordAndHandoff
  intro s t hrecord hhandoff h
  cases step_effect h with
  | idle => exact ⟨hrecord, hhandoff⟩
  | command _ h => exact ⟨h.recordOk hrecord, h.handoffOk hhandoff⟩
  | reset => exact ⟨recordOk_resetBlock _, handoffOk_resetBlock _⟩
  | read => exact ⟨hrecord, hhandoff⟩

/-- Settles O51: the edge of a poll moves DEB and STATE together, and no other command writes either. -/
theorem stepsKeepTheSwitchInvariant : Obligations.StepsKeepTheSwitchInvariant := by
  unfold Obligations.StepsKeepTheSwitchInvariant
  refine ⟨fun c => List.forall_mem_map.2 fun i _ => switchOk_switchAtReset i, fun s t hs h => ?_⟩
  exact step_keeps_switches switchOk_switchAtReset (fun _ _ _ _ => SwitchWrite.switchOk)
    (fun raw now _ => switchOk_switchStep raw now) h hs

/-- Settles O58: writes are clamped, and the ramp ends between CUR and TARGET or at one of them, within [0, 1]. -/
theorem stepsKeepTheIndicatorInvariant : Obligations.StepsKeepTheIndicatorInvariant := by
  unfold Obligations.StepsKeepTheIndicatorInvariant
  have hreset (c : IndicatorInit) : indicatorOk (indicatorAtReset c) ∧ blinkOk (indicatorAtReset c) :=
    ⟨indicatorOk_indicatorAtReset c, blinkOk_indicatorAtReset c⟩
  refine ⟨fun c => List.forall_mem_map.2 fun i _ => hreset i, fun s t hs h => ?_⟩
  exact step_keeps_indicators hreset (fun _ _ _ _ => IndicatorWrite.indicatorOk)
    (fun _ => indicatorOk_indicatorStep) h hs

end Sys2Proof.Machine
end

section
/-! The step by the input that it takes (R96, R101, R323), and what it keeps of the inputs and of the memory
(R41, R91). -/

namespace Sys2Proof.Machine

/-! ### The input of a step -/

theorem step_of_no_inputs {s : State} (hp : parametersOk s = true) (hs : s.inputs = []) : step s = .next s := by
  rw [step, if_pos hp, hs]

theorem step_of_input {s : State} {i : Input} {rest : List Input} (hp : parametersOk s = true)
    (hs : s.inputs = i :: rest) : step s = runInput i { s with inputs := rest } := by
  rw [step, if_pos hp, hs]

/-- A step that answers a next state holds the state or runs the first input. -/
theorem step_next {s t : State} (h : step s = .next t) :
    (s.inputs = [] ∧ t = s) ∨ ∃ i rest, s.inputs = i :: rest ∧ runInput i { s with inputs := rest } = .next t := by
  cases hp : parametersOk s with
  | false => rw [step_of_bad_parameters hp] at h; cases h
  | true =>
    cases hs : s.inputs with
    | nil => rw [step_of_no_inputs hp hs] at h; cases h; exact .inl ⟨rfl, rfl⟩
    | cons i rest => rw [step_of_input hp hs] at h; exact .inr ⟨i, rest, rfl, h⟩

/-- What raising an illegal command leaves, by the name that it has in the statements (R305). -/
theorem raiseCondition_eq_afterIllegal (c : IllCause) (s : State) :
    raiseCondition (.illegalCommand c) s = afterIllegal c s :=
  raiseCondition_illegal_eq c s

theorem runCommand_of_decode {p : Port} {w : Command} {s : State} {i : Instr} (h : decode w = .ok i) :
    runCommand p w s = exec i { s with port := p } := by
  rw [runCommand, h]

/-- A command word that answers runs the command that it decodes to, or is illegal as a word (R132). -/
theorem runCommand_next {p : Port} {w : Command} {s t : State} (h : runCommand p w s = .next t) :
    (∃ i, decode w = .ok i ∧ exec i { s with port := p } = .next t) ∨
    ∃ c, t = afterIllegal c { s with port := p } := by
  unfold runCommand at h
  split at h
  · exact .inl ⟨_, ‹_›, h⟩
  · cases h; exact .inr ⟨_, raiseCondition_eq_afterIllegal _ _⟩
  · split at h <;> cases h <;> exact .inr ⟨_, raiseCondition_eq_afterIllegal _ _⟩

/-- The frames that the transfer collaborator owns: those of the last submitted block (R108, R109). -/
def ownsFrame (s : State) (b : BitVec 1) (k : BitVec 16) : Prop :=
  s.valid = true ∧ b = s.lastBank ∧ k.toNat < s.outLen.toNat

theorem transferRead_of_owned {s : State} {b : BitVec 1} {k : BitVec 16} (h : ownsFrame s b k) :
    transferRead b k s = .next { s with out :=
      { resp := none, submit := none
        frame := some { left := bufWord s b k.toNat 0#1, right := bufWord s b k.toNat 1#1 } } } := by
  obtain ⟨hvalid, hbank, hlen⟩ := h
  exact if_pos (by simp [hvalid, hbank, hlen])

theorem transferRead_of_not_owned {s : State} {b : BitVec 1} {k : BitVec 16} (h : ¬ownsFrame s b k) :
    transferRead b k s = .refused .collaboratorDuty :=
  if_neg fun hown => h (by simpa [ownsFrame, and_assoc] using hown)

/-- A frame read that is not refused changes the outputs alone. -/
theorem transferRead_next {s t : State} {b : BitVec 1} {k : BitVec 16} (h : transferRead b k s = .next t) :
    ∃ o, t = { s with out := o } := by
  by_cases hown : ownsFrame s b k
  · rw [transferRead_of_owned hown] at h; cases h; exact ⟨_, rfl⟩
  · rw [transferRead_of_not_owned hown] at h; cases h

/-! ### The inputs after a step -/

/-- No command looks at the later inputs (R101). -/
theorem CommandEffect.inputs {s t : State} {i : Instr} (h : CommandEffect s i t) : t.inputs = s.inputs := by
  cases h <;> rfl

/-- No input touches the inputs after it. -/
theorem runInput_inputs {i : Input} {s t : State} (h : runInput i s = .next t) : t.inputs = s.inputs := by
  cases i with
  | command p w => obtain ⟨i, heffect⟩ := runCommand_effect h; exact heffect.inputs
  | reset => cases h; rfl
  | transferRead b k => obtain ⟨o, rfl⟩ := transferRead_next h; rfl

/-! ### The memory after a step -/

/-- The invariant looks at the memory and the capacity alone. -/
theorem memoryOk_congr {s t : State} (hmem : t.mem = s.mem) (hcapacity : t.capacity = s.capacity) (h : memoryOk s) :
    memoryOk t := by
  rwa [memoryOk, hmem, hcapacity]

theorem memoryOk_resetBlock (s : State) : memoryOk (resetBlock s) := ⟨⟨.nil, nofun⟩, nofun⟩

/-- A frame below C lies inside the 4C words (R91). -/
theorem memoryOk_writeFrame {s : State} {k : Nat} (h : memoryOk s) (hk : k < s.capacity) (b : BitVec 1) (l r : F32) :
    memoryOk (writeFrame b k l r s) := by
  obtain ⟨hwf, hbelow⟩ := h
  have hbound : 16 * s.capacity = 4 * (4 * s.capacity) := by omega
  refine ⟨writeFrame_wf hwf b k l r, ?_⟩
  show ∀ c ∈ (writeFrame b k l r s).mem, c.1 < 4 * (4 * s.capacity)
  rw [← hbound] at hbelow ⊢
  exact writeFrame_below hbelow hk b l r

/-- The state that the frame loop ends in, if there is one, has property P. -/
inductive Rendered.Keeps (P : State → Prop) : Rendered → Prop
  | complete {s : State} (h : P s) : Rendered.Keeps P (.complete s)
  | halted {s : State} (h : P s) : Rendered.Keeps P (.halted s)
  | outOfDomain : Rendered.Keeps P .outOfDomain

/-- The loop pushes a frame only while there is room for it (R207, R208). -/
theorem renderFrames_memoryOk (b : BitVec 1) (todo k : Nat) {s : State} (h : memoryOk s) :
    (renderFrames b todo k s).Keeps memoryOk := by
  induction todo generalizing k s with
  | zero => exact .complete h
  | succ todo ih =>
    cases hf : synthFrame s.voices zeroF with
    | none => rw [renderFrames_succ_none hf]; exact .outOfDomain
    | some p =>
      obtain ⟨acc, xs⟩ := p
      have hticked : memoryOk { s with voices := xs } := h
      rw [renderFrames_succ hf]
      split
      case isTrue hroom => exact ih (k + 1) (memoryOk_writeFrame hticked hroom b acc acc)
      case isFalse =>
        split
        case h_1 hb =>
          rw [raiseCondition_capacity_debug (s := { s with voices := xs }) hb]
          exact .halted hticked
        case h_2 => exact ih (k + 1) hticked

theorem execAudPeriod_memoryOk {ready : Bool} {n : BitVec 16} {s t : State} (h : execAudPeriod ready n s = .next t)
    (hs : memoryOk s) : memoryOk t := by
  have hloop := renderFrames_memoryOk s.wbank n.toNat 0 hs
  rcases execAudPeriod_next h with ⟨-, -, rfl⟩ | ⟨-, -, -, rfl⟩ | ⟨-, -, -, u, hu, rfl⟩ | ⟨-, -, -, hu⟩ | ⟨-, rfl⟩
  · exact hs
  · exact hs
  · rw [hu] at hloop
    cases hloop with
    | complete h => exact h
  · rw [hu] at hloop
    cases hloop with
    | halted h => exact h
  · rw [raiseCondition_eq_afterIllegal]; exact hs

/-- Only AUD_PERIOD writes the buffer (R41). -/
theorem exec_memoryOk {i : Instr} {s t : State} (h : exec i s = .next t) (hs : memoryOk s) : memoryOk t := by
  have heffect := exec_effect h
  rcases heffect.mem with hmem | ⟨-, n, rfl, -⟩
  · exact memoryOk_congr hmem heffect.capacity hs
  · exact execAudPeriod_memoryOk h hs

theorem runInput_memoryOk {i : Input} {s t : State} (h : runInput i s = .next t) (hs : memoryOk s) : memoryOk t := by
  cases i with
  | command p w =>
    have hport : memoryOk { s with port := p } := hs
    rcases runCommand_next h with ⟨i, -, hi⟩ | ⟨c, rfl⟩
    · exact exec_memoryOk hi hport
    · exact hport
  | reset => cases h; exact memoryOk_resetBlock s
  | transferRead b k => obtain ⟨o, rfl⟩ := transferRead_next h; exact hs

end Sys2Proof.Machine
end

section
/-! Commands that may be issued twice (R98): the state that the first issue answers is the one that the second
answers. -/

namespace Sys2Proof.Machine

/-- A command that answers a next state keeps the port, and issued again in that state answers the same state. -/
def Repeats (k : State → Answer) : Prop := ∀ s t, k s = .next t → t.port = s.port ∧ k t = .next t

/-! ### The parts that the commands are made of -/

/-- An illegal command leaves a state that the same illegal command leaves as it is: only the first cause is kept
(R305). -/
theorem afterIllegal_afterIllegal (c : IllCause) (s : State) : afterIllegal c (afterIllegal c s) = afterIllegal c s :=
  rfl

/-- The port check gives the second issue the verdict of the first. -/
theorem repeats_onPort {p : Port} {k : State → Answer} (hk : Repeats k) : Repeats fun s => onPort p s (k s) := by
  intro s t h
  rcases onPort_next h with ⟨hp, hnext⟩ | ⟨hp, rfl⟩
  · obtain ⟨hport, hagain⟩ := hk s t hnext
    exact ⟨hport, (onPort_of_eq _ (hport.trans hp)).trans hagain⟩
  · rw [raiseCondition_eq_afterIllegal]
    have hwrong : (afterIllegal .wrongPort s).port ≠ p := hp
    exact ⟨rfl, (onPort_of_ne _ hwrong).trans (congrArg _ (raiseCondition_eq_afterIllegal _ _))⟩

/-- A command that looks something up, and acts on what it finds or records INDEX_RANGE: it repeats if it finds
something again and then changes nothing, and if an illegal command does not make the missing thing appear. -/
theorem repeats_lookup {α : Type} {get : State → Option α} {act : State → α → State}
    (found : ∀ s x, get s = some x →
      (act s x).port = s.port ∧ ∃ y, get (act s x) = some y ∧ act (act s x) y = act s x)
    (missing : ∀ s, get s = none → get (afterIllegal .indexRange s) = none) :
    Repeats fun s => (get s).elim (.next (afterIllegal .indexRange s)) fun x => .next (act s x) := by
  intro s t h
  cases hx : get s with
  | none =>
    simp only [hx, Option.elim_none] at h
    cases h
    refine ⟨rfl, ?_⟩
    simp only [missing s hx, Option.elim_none, afterIllegal_afterIllegal]
  | some x =>
    simp only [hx, Option.elim_some] at h
    cases h
    obtain ⟨hport, y, hy, hact⟩ := found s x hx
    refine ⟨hport, ?_⟩
    simp only [hy, Option.elim_some, hact]

theorem withVoice_eq_elim (v : BitVec 8) (s : State) (k : Voice → Answer) :
    withVoice v s k = s.voices[v.toNat]?.elim (.next (afterIllegal .indexRange s)) k := by
  cases hx : s.voices[v.toNat]? with
  | none => rw [withVoice_none k hx, raiseCondition_eq_afterIllegal]; rfl
  | some x => exact withVoice_some k hx

theorem withSwitch_eq_elim (i : BitVec 8) (s : State) (k : Switch → Answer) :
    withSwitch i s k = s.switches[i.toNat]?.elim (.next (afterIllegal .indexRange s)) k := by
  cases hx : s.switches[i.toNat]? with
  | none => rw [withSwitch_none k hx, raiseCondition_eq_afterIllegal]; rfl
  | some x => exact withSwitch_some k hx

theorem withIndicator_eq_elim (i : BitVec 8) (s : State) (k : Indicator → Answer) :
    withIndicator i s k = s.indicators[i.toNat]?.elim (.next (afterIllegal .indexRange s)) k := by
  cases hx : s.indicators[i.toNat]? with
  | none => rw [withIndicator_none k hx, raiseCondition_eq_afterIllegal]; rfl
  | some x => exact withIndicator_some k hx

theorem replyRegister_eq_elim (r : Option Word) (s : State) :
    replyRegister r s = r.elim (.next (afterIllegal .indexRange s)) fun w => .next (reply w s) := by
  cases r with
  | none => exact congrArg _ (raiseCondition_eq_afterIllegal _ _)
  | some w => rfl

/-! ### The SET commands -/

theorem repeats_writeVoice (v : BitVec 8) {f : Voice → Voice} (hf : ∀ x, f (f x) = f x) :
    Repeats fun s => withVoice v s fun x => .next (reply 0#32 (setVoice s v (f x))) := by
  simp only [withVoice_eq_elim]
  refine repeats_lookup (fun s x hx => ⟨rfl, f x, ?_, ?_⟩) fun s hx => hx
  · exact List.getElem?_set_self (List.getElem?_eq_some_iff.1 hx).1
  · simp [reply, setVoice, hf]

theorem repeats_writeSwitch (i : BitVec 8) {f : Switch → Switch} (hf : ∀ x, f (f x) = f x) :
    Repeats fun s => withSwitch i s fun x => .next (reply 0#32 (setSwitch s i (f x))) := by
  simp only [withSwitch_eq_elim]
  refine repeats_lookup (fun s x hx => ⟨rfl, f x, ?_, ?_⟩) fun s hx => hx
  · exact List.getElem?_set_self (List.getElem?_eq_some_iff.1 hx).1
  · simp [reply, setSwitch, hf]

theorem repeats_writeIndicator (i : BitVec 8) {f : Indicator → Indicator} (hf : ∀ x, f (f x) = f x) :
    Repeats fun s => withIndicator i s fun x => .next (reply 0#32 (setIndicator s i (f x))) := by
  simp only [withIndicator_eq_elim]
  refine repeats_lookup (fun s x hx => ⟨rfl, f x, ?_, ?_⟩) fun s hx => hx
  · exact List.getElem?_set_self (List.getElem?_eq_some_iff.1 hx).1
  · simp [reply, setIndicator, hf]

/-! ### The read commands -/

/-- No read looks at the response before it, and an illegal command does not make a register appear. -/
theorem repeats_replyRegister {r : State → Option Word} (answered : ∀ w s, r (reply w s) = r s)
    (missing : ∀ s, r s = none → r (afterIllegal .indexRange s) = none) : Repeats fun s => replyRegister (r s) s := by
  simp only [replyRegister_eq_elim]
  exact repeats_lookup (fun s w hw => ⟨rfl, w, (answered w s).trans hw, rfl⟩) missing

/-- The register of a bank that is looked up: no bank and no register are the same illegal command (R136). -/
theorem elim_replyRegister {α : Type} (bank : Option α) (g : α → Option Word) (s : State) :
    (bank.elim (.next (afterIllegal .indexRange s)) fun x => replyRegister (g x) s) =
      replyRegister (bank.bind g) s := by
  cases bank with
  | none => exact (replyRegister_eq_elim none s).symm
  | some x => rfl

theorem repeats_readVoice (v : BitVec 8) (g : Voice → Option Word) :
    Repeats fun s => withVoice v s fun x => replyRegister (g x) s := by
  simp only [withVoice_eq_elim, elim_replyRegister]
  exact repeats_replyRegister (fun _ _ => rfl) fun _ h => h

theorem repeats_readSwitch (i : BitVec 8) (g : Switch → Option Word) :
    Repeats fun s => withSwitch i s fun x => replyRegister (g x) s := by
  simp only [withSwitch_eq_elim, elim_replyRegister]
  exact repeats_replyRegister (fun _ _ => rfl) fun _ h => h

theorem repeats_readIndicator (i : BitVec 8) (g : Indicator → Option Word) :
    Repeats fun s => withIndicator i s fun x => replyRegister (g x) s := by
  simp only [withIndicator_eq_elim, elim_replyRegister]
  exact repeats_replyRegister (fun _ _ => rfl) fun _ h => h

/-- Which SYS registers there are does not depend on the state (R284). -/
theorem sysRegister_eq_none_congr (s t : State) (r : BitVec 16) : sysRegister s r = none ↔ sysRegister t r = none := by
  unfold sysRegister
  split <;> simp

theorem sysRegister_reply (w : Word) (s : State) (r : BitVec 16) : sysRegister (reply w s) r = sysRegister s r := rfl

/-! ### The commands -/

/-- The commands that may be issued twice (R98): all but the poll, the period and the two ticks. -/
theorem exec_repeats {i : Instr} (hpoll : ∀ m, i ≠ .ctlPoll m) (hperiod : ∀ r n, i ≠ .audPeriod r n)
    (hblep : ∀ v, i ≠ .oscTickBlep v) (hnaive : ∀ v, i ≠ .oscTickNaive v) : Repeats (exec i) := by
  cases i with
  | nop => intro s t h; cases h; exact ⟨rfl, rfl⟩
  | sysClrErr => exact repeats_onPort fun s t h => by cases h; exact ⟨rfl, rfl⟩
  | oscSetFreq v f => exact repeats_onPort (repeats_writeVoice v fun _ => rfl)
  | oscSetSr v f => exact repeats_onPort (repeats_writeVoice v fun _ => rfl)
  | oscSetWave v w => exact repeats_onPort (repeats_writeVoice v fun _ => rfl)
  | oscSetEn v e => exact repeats_onPort (repeats_writeVoice v fun _ => rfl)
  | oscTickBlep v => exact absurd rfl (hblep v)
  | oscTickNaive v => exact absurd rfl (hnaive v)
  | audPeriod r n => exact absurd rfl (hperiod r n)
  | ctlPoll m => exact absurd rfl (hpoll m)
  | swSetDw k n => exact repeats_onPort (repeats_writeSwitch k fun _ => rfl)
  | swSetDcw k n => exact repeats_onPort (repeats_writeSwitch k fun _ => rfl)
  | swSetHt k n => exact repeats_onPort (repeats_writeSwitch k fun _ => rfl)
  | indSetTarget k f => exact repeats_onPort (repeats_writeIndicator k fun _ => rfl)
  | indSetStep k f => exact repeats_onPort (repeats_writeIndicator k fun _ => rfl)
  | indSetBlink k p => exact repeats_onPort (repeats_writeIndicator k fun _ => rfl)
  | rdSys r =>
    refine repeats_onPort (repeats_replyRegister (fun w s => sysRegister_reply w s r) fun s h => ?_)
    exact (sysRegister_eq_none_congr _ _ r).1 h
  | rdOsc v r => exact repeats_onPort (repeats_readVoice v _)
  | rdSw k r => exact repeats_onPort (repeats_readSwitch k _)
  | rdInd k r => exact repeats_onPort (repeats_readIndicator k _)
  | rdBuf b ch k => exact repeats_onPort (repeats_replyRegister (fun _ _ => rfl) fun _ h => h)

end Sys2Proof.Machine
end

section
/-! Words on byte paths (R93, R94): byte i holds bits 8i + 7 : 8i, and the word comes back from its bytes. -/

namespace Sys2Proof

open BitVec (extractLsb'_append_extractLsb'_eq_extractLsb' extractLsb'_append_eq_of_le extractLsb'_append_eq_right
  extractLsb'_eq_self)

/-! ### Bytes of a word -/

theorem wordBytes_eq_map (w : Word) : wordBytes w = (List.range 4).map fun i => w.extractLsb' (8 * i) 8 := rfl

theorem commandBytes_eq_map (w : Command) : commandBytes w = (List.range 8).map fun i => w.extractLsb' (8 * i) 8 := rfl

theorem getElem?_wordBytes (w : Word) {i : Nat} (h : i < 4) : (wordBytes w)[i]? = some (w.extractLsb' (8 * i) 8) := by
  rw [wordBytes_eq_map, List.getElem?_map, List.getElem?_range h, Option.map_some]

theorem getElem?_commandBytes (w : Command) {i : Nat} (h : i < 8) :
    (commandBytes w)[i]? = some (w.extractLsb' (8 * i) 8) := by
  rw [commandBytes_eq_map, List.getElem?_map, List.getElem?_range h, Option.map_some]

/-! ### Words from their bytes -/

theorem takeWord_wordBytes (w : Word) (rest : List Byte) : takeWord (wordBytes w ++ rest) = some (w, rest) :=
  congrArg (fun v => some (v, rest)) (Machine.word_of_bytes w)

/-- The bits above a byte and the byte (R93). -/
theorem extractLsb'_append_byte (w : Command) (lo width : Nat) :
    w.extractLsb' (lo + 8) width ++ w.extractLsb' lo 8 = w.extractLsb' lo (width + 8) :=
  extractLsb'_append_extractLsb'_eq_extractLsb' rfl

/-- The bytes of a command word, put together again from bits 63:56 down, are the word. -/
theorem takeCommand_commandBytes (w : Command) (rest : List Byte) :
    takeCommand (commandBytes w ++ rest) = some (w, rest) := by
  refine congrArg (fun v => some (v, rest)) ?_
  rw [extractLsb'_append_byte w 48, extractLsb'_append_byte w 40, extractLsb'_append_byte w 32,
    extractLsb'_append_byte w 24, extractLsb'_append_byte w 16, extractLsb'_append_byte w 8,
    extractLsb'_append_byte w 0]
  exact extractLsb'_eq_self

/-! ### The two halves of a command word -/

/-- A field of a field is a field of the whole. -/
theorem extractLsb'_extractLsb' {n lo len start width : Nat} (w : BitVec n) (h : start + width ≤ len) :
    (w.extractLsb' lo len).extractLsb' start width = w.extractLsb' (lo + start) width := by
  ext i hi
  simp only [BitVec.getElem_extractLsb', BitVec.getLsbD_extractLsb', Nat.add_assoc,
    decide_eq_true (show start + i < len by omega), Bool.true_and]

theorem commandOfHalves_commandHalves (w : Command) : commandOfHalves (commandHalves w).1 (commandHalves w).2 = w :=
  (extractLsb'_append_extractLsb'_eq_extractLsb' rfl).trans extractLsb'_eq_self

/-- The header is OP, IDX and IMM16 (R121). -/
theorem commandHalves_header (w : Command) : (commandHalves w).1 = opOf w ++ idxOf w ++ immOf w := by
  rw [opOf, idxOf, immOf, extractLsb'_append_byte w 16]
  exact (extractLsb'_append_extractLsb'_eq_extractLsb' (start₁ := 0) (len₁ := 16) rfl).symm

/-- The bytes of the header come before those of DATA (R93). -/
theorem commandBytes_eq_halves (w : Command) :
    commandBytes w = wordBytes (commandHalves w).1 ++ wordBytes (commandHalves w).2 := by
  simp only [commandHalves, wordBytes, commandBytes, List.cons_append, List.nil_append]
  iterate 8 rw [extractLsb'_extractLsb' w (by decide)]

/-! ### OUT_BUF -/

/-- Byte i of a word of memory holds bits 8i + 7 : 8i of it (R93). -/
theorem Machine.extractLsb'_memReadWord (m : List Host.Cell) (w : Nat) {i : Nat} (h : i < 4) :
    (memReadWord m w).extractLsb' (8 * i) 8 = memReadByte m (4 * w + i) := by
  unfold memReadWord
  match i, h with
  | 0, _ => exact extractLsb'_append_eq_right
  | 1, _ =>
    rw [extractLsb'_append_eq_of_le (by decide)]
    exact extractLsb'_append_eq_right
  | 2, _ =>
    iterate 2 rw [extractLsb'_append_eq_of_le (by decide)]
    exact extractLsb'_append_eq_right
  | 3, _ =>
    iterate 3 rw [extractLsb'_append_eq_of_le (by decide)]
    exact extractLsb'_eq_self

end Sys2Proof
end

section
/-! The obligations of spec/20_memory.md. -/

namespace Sys2Proof.Machine

/-- Settles O47: the frame loop alone writes the buffer, and only frames below C; reset empties it. -/
theorem stepsKeepTheMemoryCanonical : Obligations.StepsKeepTheMemoryCanonical := by
  unfold Obligations.StepsKeepTheMemoryCanonical
  intro s t hs h
  rcases step_next h with ⟨-, rfl⟩ | ⟨i, rest, -, hrun⟩
  · exact hs
  · exact runInput_memoryOk hrun hs

/-- Settles O4: each byte stream is the bytes of its words in order, and each word is the concatenation of its bytes. -/
theorem bytePathsAreLittleEndian : Obligations.BytePathsAreLittleEndian := by
  unfold Obligations.BytePathsAreLittleEndian
  refine ⟨fun w rest => ?_, fun r f rest => ?_, fun s b ch k i hi => ?_⟩
  · exact ⟨takeCommand_commandBytes w rest, rfl, fun _ => getElem?_commandBytes w, commandBytes_eq_halves w,
      commandOfHalves_commandHalves w, commandHalves_header w, rfl⟩
  · refine ⟨takeWord_wordBytes r.word rest, rfl, fun _ => getElem?_wordBytes r.word, ?_, rfl, fun i hi => ⟨?_, ?_⟩⟩
    · rw [frameBytes, List.append_assoc]
      exact takeWord_wordBytes f.left _
    · rw [frameBytes, List.getElem?_append_left (by simpa using hi)]
      exact getElem?_wordBytes f.left hi
    · rw [frameBytes, List.getElem?_append_right (by simp), length_wordBytes, Nat.add_sub_cancel_left]
      exact getElem?_wordBytes f.right hi
  · exact (extractLsb'_memReadWord s.mem _ hi).symm

/-- Settles O11: the step takes the first input off the list, and running it leaves the rest. -/
theorem inputsRunOneAtATime : Obligations.InputsRunOneAtATime := by
  unfold Obligations.InputsRunOneAtATime
  refine ⟨fun s t h => ?_, fun s => step_of_no_inputs⟩
  rcases step_next h with ⟨hs, rfl⟩ | ⟨i, rest, hs, hrun⟩
  · rw [hs, List.tail_nil]
  · rw [runInput_inputs hrun, hs, List.tail_cons]

/-- Settles O14: each of these commands checks, looks up and writes again what it checked, looked up and wrote. -/
theorem setAndReadCommandsAreIdempotent : Obligations.SetAndReadCommandsAreIdempotent := by
  unfold Obligations.SetAndReadCommandsAreIdempotent
  intro i s t hpoll hperiod hblep hnaive h
  exact (exec_repeats hpoll hperiod hblep hnaive s t h).2

/-- Settles O10: the step of a command word, with its decoding. -/
theorem stepRunsTheDecodedCommand : Obligations.StepRunsTheDecodedCommand := by
  unfold Obligations.StepRunsTheDecodedCommand
  intro s p w rest i hp hs hdecode
  exact (step_of_input hp hs).trans (runCommand_of_decode hdecode)

/-- Settles O46: the step of a frame read, by whether the collaborator owns the frame. -/
theorem collaboratorReadsTheSubmittedBlock : Obligations.CollaboratorReadsTheSubmittedBlock := by
  unfold Obligations.CollaboratorReadsTheSubmittedBlock
  intro s b k rest hp hs
  rw [step_of_input hp hs]
  exact ⟨fun hown => transferRead_of_owned (s := { s with inputs := rest }) hown,
    fun hown => transferRead_of_not_owned (s := { s with inputs := rest }) hown⟩

end Sys2Proof.Machine
end

section
/-! Command words by the rows of the opcode table (R121, R122, R131, R135): which words the mask and the match value of
a row let through, and the two halves of the round trip between commands and words (R142). -/

namespace Sys2Proof

open Machine (assignedOps formatOf reservedFieldsZero)

/-! ### Fields -/

theorem mkCommand_eq_iff {data : BitVec 32} {op idx : BitVec 8} {imm : BitVec 16} {w : Command} :
    mkCommand data op idx imm = w ↔ data = dataOf w ∧ op = opOf w ∧ idx = idxOf w ∧ imm = immOf w := by
  constructor
  · rintro rfl
    simp
  · rintro ⟨rfl, rfl, rfl, rfl⟩
    exact mkCommand_fields w

theorem mkCommand_and_mkCommand (data data' : BitVec 32) (op op' idx idx' : BitVec 8) (imm imm' : BitVec 16) :
    mkCommand data op idx imm &&& mkCommand data' op' idx' imm' =
      mkCommand (data &&& data') (op &&& op') (idx &&& idx') (imm &&& imm') := by
  unfold mkCommand
  rw [← BitVec.and_append, ← BitVec.and_append, ← BitVec.and_append]

/-! Where the operands narrower than a field stand in the word. -/

section
variable (data : BitVec 32) (op idx : BitVec 8) (imm : BitVec 16)

/-- Bit 0 of IDX is bit 16 of the word (R121). -/
theorem extractLsb'_mkCommand_idx {lo len : Nat} (h : lo + len ≤ 8) :
    (mkCommand data op idx imm).extractLsb' (16 + lo) len = idx.extractLsb' lo len := by
  conv => rhs; rw [← idxOf_mkCommand data op idx imm, idxOf, extractLsb'_extractLsb' _ h]

/-- The code of OSC_SET_WAVE. -/
@[simp] theorem extractLsb'_mkCommand_wave : (mkCommand data op idx imm).extractLsb' 0 2 = imm.extractLsb' 0 2 := by
  conv => rhs; rw [← immOf_mkCommand data op idx imm, immOf, extractLsb'_extractLsb' _ (by decide)]

/-- The bit of OSC_SET_EN. -/
theorem getLsbD_mkCommand_en : (mkCommand data op idx imm).getLsbD 0 = imm.getLsbD 0 := getLsbD_mkCommand ..

/-- The READY bit of AUD_PERIOD. -/
theorem getLsbD_mkCommand_ready : (mkCommand data op idx imm).getLsbD 16 = idx.getLsbD 0 := getLsbD_mkCommand ..

/-- The BANK bit of RD_BUF. -/
@[simp] theorem extractLsb'_mkCommand_bank : (mkCommand data op idx imm).extractLsb' 17 1 = idx.extractLsb' 1 1 :=
  extractLsb'_mkCommand_idx data op idx imm (lo := 1) (by decide)

/-- The CH bit of RD_BUF. -/
@[simp] theorem extractLsb'_mkCommand_channel : (mkCommand data op idx imm).extractLsb' 16 1 = idx.extractLsb' 0 1 :=
  extractLsb'_mkCommand_idx data op idx imm (lo := 0) (by decide)

end

/-! ### Operands narrower than their field -/

/-- No bit of the field from k up is set. -/
def fitsIn {n : Nat} (k : Nat) (v : BitVec n) : Prop := v.toNat < 2 ^ k

@[simp] theorem fitsIn_width {n : Nat} (v : BitVec n) : fitsIn n v := v.isLt

@[simp] theorem fitsIn_zero_iff {n : Nat} (v : BitVec n) : fitsIn 0 v ↔ v = 0#n := by
  simp [fitsIn, BitVec.toNat_eq]

theorem eq_zero_of_fitsIn {n : Nat} {v : BitVec n} (h : fitsIn 0 v) : v = 0#n := (fitsIn_zero_iff v).1 h

theorem fitsIn_one_iff {n : Nat} (v : BitVec n) : fitsIn 1 v ↔ v.toNat < 2 := Iff.rfl

theorem fitsIn_two_iff {n : Nat} (v : BitVec n) : fitsIn 2 v ↔ v.toNat < 4 := Iff.rfl

theorem fitsIn_zero_append {k : Nat} (a : Nat) (v : BitVec k) : fitsIn k (0#a ++ v) := by
  simp [fitsIn, BitVec.isLt]

theorem fitsIn_iff_getLsbD {n : Nat} (v : BitVec n) (k : Nat) :
    fitsIn k v ↔ ∀ i < n, k ≤ i → v.getLsbD i = false := by
  refine ⟨fun h i _ hk => ?_, fun h => Nat.lt_pow_two_of_testBit _ fun i hk => ?_⟩
  · exact Nat.testBit_lt_two_pow (Nat.lt_of_lt_of_le h (Nat.pow_le_pow_right Nat.two_pos hk))
  · rw [BitVec.testBit_toNat]
    by_cases hi : i < n
    · exact h i hi hk
    · exact BitVec.getLsbD_of_ge v i (Nat.not_lt.1 hi)

/-- What the mask of a row checks of a field (R135). -/
theorem and_shiftLeft_allOnes_eq_zero_iff {n : Nat} (v : BitVec n) (k : Nat) :
    v &&& BitVec.allOnes n <<< k = 0#n ↔ fitsIn k v := by
  rw [fitsIn_iff_getLsbD, BitVec.eq_of_getLsbD_eq_iff]
  refine forall_congr' fun i => forall_congr' fun hi => ?_
  simp only [BitVec.getLsbD_and, BitVec.getLsbD_shiftLeft, BitVec.getLsbD_allOnes, BitVec.getLsbD_zero, hi,
    Nat.sub_lt_of_lt hi, decide_true, Bool.true_and, Bool.and_true]
  cases v.getLsbD i <;> simp

/-- A field is its lower bits if no other is set. -/
theorem zero_append_extractLsb' {a k : Nat} {v : BitVec (a + k)} (h : fitsIn k v) : 0#a ++ v.extractLsb' 0 k = v := by
  apply BitVec.eq_of_toNat_eq
  rw [BitVec.toNat_append, BitVec.extractLsb'_toNat, Nat.shiftRight_zero, Nat.mod_eq_of_lt h]
  simp

theorem ofBool_getLsbD_zero {n : Nat} (v : BitVec n) : BitVec.ofBool (v.getLsbD 0) = v.extractLsb' 0 1 := by
  ext j hj
  obtain rfl : j = 0 := by omega
  simp

theorem fitsIn_bank_append_channel (b ch : BitVec 1) : fitsIn 2 (0#6 ++ b ++ ch) := by
  rw [BitVec.append_assoc]
  exact fitsIn_zero_append 6 (b ++ ch)

theorem getLsbD_zero_append_ofBool (a : Nat) (b : Bool) : (0#a ++ BitVec.ofBool b).getLsbD 0 = b := by
  rw [BitVec.getLsbD_append]
  simp

theorem extractLsb'_bank (b ch : BitVec 1) : (0#6 ++ b ++ ch).extractLsb' 1 1 = b := by
  rw [BitVec.extractLsb'_append_eq_of_le (by decide)]
  exact BitVec.extractLsb'_append_eq_right

/-- The BANK and CH bits of RD_BUF are the two lowest of IDX (R135). -/
theorem zero_append_bank_append_channel {idx : BitVec 8} (h : fitsIn 2 idx) :
    0#6 ++ idx.extractLsb' 1 1 ++ idx.extractLsb' 0 1 = idx := by
  have hlow : idx.extractLsb' 1 1 ++ idx.extractLsb' 0 1 = idx.extractLsb' 0 2 :=
    BitVec.extractLsb'_append_extractLsb'_eq_extractLsb' rfl
  rw [BitVec.append_assoc, hlow]
  exact zero_append_extractLsb' h

/-! ### The opcode map -/

/-- The k OP values from a up. -/
def opRun (a k : Nat) : List (BitVec 8) := (List.range' a k).map (BitVec.ofNat 8)

theorem mem_opRun {a k : Nat} (h : a + k ≤ 256) (op : BitVec 8) :
    op ∈ opRun a k ↔ a ≤ op.toNat ∧ op.toNat < a + k := by
  rw [opRun, List.mem_map]
  constructor
  · rintro ⟨n, hn, rfl⟩
    rw [List.mem_range'_1] at hn
    rwa [BitVec.toNat_ofNat, Nat.mod_eq_of_lt (by omega)]
  · intro hn
    exact ⟨op.toNat, List.mem_range'_1.2 hn, BitVec.ofNat_toNat 8 op⟩

/-- The assigned OP values stand in six runs (R131). -/
theorem assignedOps_eq_opRuns :
    assignedOps = opRun 0x00 2 ++ opRun 0x10 6 ++ opRun 0x20 1 ++ opRun 0x30 4 ++ opRun 0x40 3 ++ opRun 0x70 5 := rfl

/-- The unassigned OP values (R133). -/
theorem not_mem_assignedOps_iff (op : BitVec 8) : op ∉ assignedOps ↔
    (0x02 ≤ op.toNat ∧ op.toNat ≤ 0x0F) ∨ (0x16 ≤ op.toNat ∧ op.toNat ≤ 0x1F) ∨
    (0x21 ≤ op.toNat ∧ op.toNat ≤ 0x2F) ∨ (0x34 ≤ op.toNat ∧ op.toNat ≤ 0x3F) ∨
    (0x43 ≤ op.toNat ∧ op.toNat ≤ 0x6F) ∨ (0x75 ≤ op.toNat ∧ op.toNat ≤ 0xFF) := by
  have hop := op.isLt
  simp only [assignedOps_eq_opRuns, List.mem_append, mem_opRun (show 0x00 + 2 ≤ 256 by decide),
    mem_opRun (show 0x10 + 6 ≤ 256 by decide), mem_opRun (show 0x20 + 1 ≤ 256 by decide),
    mem_opRun (show 0x30 + 4 ≤ 256 by decide), mem_opRun (show 0x40 + 3 ≤ 256 by decide),
    mem_opRun (show 0x70 + 5 ≤ 256 by decide)]
  omega

/-! ### Rows of the opcode table -/

/-- The mask of a row of the opcode table: the OP field, and in every other field the bits above its operand, which is
the low `d`, `x` or `m` bits of DATA, IDX or IMM16 (R122, R135). -/
def rowMask (d x m : Nat) : Command :=
  mkCommand (BitVec.allOnes 32 <<< d) (BitVec.allOnes 8) (BitVec.allOnes 8 <<< x) (BitVec.allOnes 16 <<< m)

/-- The match value of a row: the OP value, and zero in every reserved field. -/
def rowMatch (op : BitVec 8) : Command := mkCommand 0#32 op 0#8 0#16

theorem and_rowMask_eq_rowMatch_iff (d x m : Nat) (data : BitVec 32) (op idx : BitVec 8) (imm : BitVec 16) :
    mkCommand data op idx imm &&& rowMask d x m = rowMatch op ↔ fitsIn d data ∧ fitsIn x idx ∧ fitsIn m imm := by
  rw [rowMask, rowMatch, mkCommand_and_mkCommand, mkCommand_eq_iff]
  simp only [dataOf_mkCommand, opOf_mkCommand, idxOf_mkCommand, immOf_mkCommand, BitVec.and_allOnes,
    and_shiftLeft_allOnes_eq_zero_iff, true_and]

/-- The decoder by fields: one row of the opcode table for each assigned OP value. -/
def decodeFields (data : BitVec 32) (op idx : BitVec 8) (imm : BitVec 16) : Except Reject Instr :=
  match op.toNat with
  | 0x00 => checked (mkCommand data op idx imm) (rowMask 0 0 0) (rowMatch 0x00#8) .nop
  | 0x01 => checked (mkCommand data op idx imm) (rowMask 0 0 0) (rowMatch 0x01#8) .sysClrErr
  | 0x10 => checked (mkCommand data op idx imm) (rowMask 32 8 0) (rowMatch 0x10#8) (.oscSetFreq idx data)
  | 0x11 => checked (mkCommand data op idx imm) (rowMask 32 8 0) (rowMatch 0x11#8) (.oscSetSr idx data)
  | 0x12 => checked (mkCommand data op idx imm) (rowMask 0 8 2) (rowMatch 0x12#8)
      (.oscSetWave idx (waveOfCode (imm.extractLsb' 0 2)))
  | 0x13 => checked (mkCommand data op idx imm) (rowMask 0 8 1) (rowMatch 0x13#8) (.oscSetEn idx (imm.getLsbD 0))
  | 0x14 => checked (mkCommand data op idx imm) (rowMask 0 8 0) (rowMatch 0x14#8) (.oscTickBlep idx)
  | 0x15 => checked (mkCommand data op idx imm) (rowMask 0 8 0) (rowMatch 0x15#8) (.oscTickNaive idx)
  | 0x20 => checked (mkCommand data op idx imm) (rowMask 0 1 16) (rowMatch 0x20#8) (.audPeriod (idx.getLsbD 0) imm)
  | 0x30 => checked (mkCommand data op idx imm) (rowMask 32 0 0) (rowMatch 0x30#8) (.ctlPoll data)
  | 0x31 => checked (mkCommand data op idx imm) (rowMask 0 8 16) (rowMatch 0x31#8) (.swSetDw idx imm)
  | 0x32 => checked (mkCommand data op idx imm) (rowMask 0 8 16) (rowMatch 0x32#8) (.swSetDcw idx imm)
  | 0x33 => checked (mkCommand data op idx imm) (rowMask 0 8 16) (rowMatch 0x33#8) (.swSetHt idx imm)
  | 0x40 => checked (mkCommand data op idx imm) (rowMask 32 8 0) (rowMatch 0x40#8) (.indSetTarget idx data)
  | 0x41 => checked (mkCommand data op idx imm) (rowMask 32 8 0) (rowMatch 0x41#8) (.indSetStep idx data)
  | 0x42 => checked (mkCommand data op idx imm) (rowMask 0 8 16) (rowMatch 0x42#8) (.indSetBlink idx imm)
  | 0x70 => checked (mkCommand data op idx imm) (rowMask 0 0 16) (rowMatch 0x70#8) (.rdSys imm)
  | 0x71 => checked (mkCommand data op idx imm) (rowMask 0 8 16) (rowMatch 0x71#8) (.rdOsc idx imm)
  | 0x72 => checked (mkCommand data op idx imm) (rowMask 0 8 16) (rowMatch 0x72#8) (.rdSw idx imm)
  | 0x73 => checked (mkCommand data op idx imm) (rowMask 0 8 16) (rowMatch 0x73#8) (.rdInd idx imm)
  | 0x74 => checked (mkCommand data op idx imm) (rowMask 0 2 16) (rowMatch 0x74#8)
      (.rdBuf (idx.extractLsb' 1 1) (idx.extractLsb' 0 1) imm)
  | _ => .error .unassignedOpcode

/-- The decoder reads a word through its fields alone; its masks and match values are those of the rows. -/
theorem decode_mkCommand (data : BitVec 32) (op idx : BitVec 8) (imm : BitVec 16) :
    decode (mkCommand data op idx imm) = decodeFields data op idx imm := by
  unfold decode
  rw [dataOf_mkCommand, opOf_mkCommand, idxOf_mkCommand, immOf_mkCommand, extractLsb'_mkCommand_wave,
    getLsbD_mkCommand_en, getLsbD_mkCommand_ready, extractLsb'_mkCommand_bank, extractLsb'_mkCommand_channel]
  rfl

/-! ### Encoding, then decoding -/

/-- Fields that fit the row of their OP value decode to the command of the row. -/
theorem decode_of_fitsRow {data : BitVec 32} {op idx : BitVec 8} {imm : BitVec 16} {i j : Instr} (d x m : Nat)
    (hdata : fitsIn d data) (hidx : fitsIn x idx) (himm : fitsIn m imm)
    (hrow : decodeFields data op idx imm = checked (mkCommand data op idx imm) (rowMask d x m) (rowMatch op) j)
    (hread : j = i) : decode (mkCommand data op idx imm) = .ok i := by
  rw [decode_mkCommand, hrow, hread]
  exact if_pos ((and_rowMask_eq_rowMatch_iff d x m data op idx imm).2 ⟨hdata, hidx, himm⟩)

theorem decode_encode (i : Instr) : decode (encode i) = .ok i := by
  have hnone {n : Nat} : fitsIn 0 0#n := (fitsIn_zero_iff _).2 rfl
  cases i with
  | nop => rfl
  | sysClrErr => rfl
  | oscSetFreq v f => exact decode_of_fitsRow 32 8 0 f.isLt v.isLt hnone rfl rfl
  | oscSetSr v f => exact decode_of_fitsRow 32 8 0 f.isLt v.isLt hnone rfl rfl
  | oscSetWave v w =>
    refine decode_of_fitsRow 0 8 2 hnone v.isLt (fitsIn_zero_append 14 _) rfl ?_
    rw [BitVec.extractLsb'_append_eq_right, waveOfCode_waveCode]
  | oscSetEn v e =>
    refine decode_of_fitsRow 0 8 1 hnone v.isLt (fitsIn_zero_append 15 _) rfl ?_
    rw [getLsbD_zero_append_ofBool]
  | oscTickBlep v => exact decode_of_fitsRow 0 8 0 hnone v.isLt hnone rfl rfl
  | oscTickNaive v => exact decode_of_fitsRow 0 8 0 hnone v.isLt hnone rfl rfl
  | audPeriod r n =>
    refine decode_of_fitsRow 0 1 16 hnone (fitsIn_zero_append 7 _) n.isLt rfl ?_
    rw [getLsbD_zero_append_ofBool]
  | ctlPoll levels => exact decode_of_fitsRow 32 0 0 levels.isLt hnone hnone rfl rfl
  | swSetDw k n => exact decode_of_fitsRow 0 8 16 hnone k.isLt n.isLt rfl rfl
  | swSetDcw k n => exact decode_of_fitsRow 0 8 16 hnone k.isLt n.isLt rfl rfl
  | swSetHt k n => exact decode_of_fitsRow 0 8 16 hnone k.isLt n.isLt rfl rfl
  | indSetTarget k f => exact decode_of_fitsRow 32 8 0 f.isLt k.isLt hnone rfl rfl
  | indSetStep k f => exact decode_of_fitsRow 32 8 0 f.isLt k.isLt hnone rfl rfl
  | indSetBlink k n => exact decode_of_fitsRow 0 8 16 hnone k.isLt n.isLt rfl rfl
  | rdSys r => exact decode_of_fitsRow 0 0 16 hnone hnone r.isLt rfl rfl
  | rdOsc v r => exact decode_of_fitsRow 0 8 16 hnone v.isLt r.isLt rfl rfl
  | rdSw k r => exact decode_of_fitsRow 0 8 16 hnone k.isLt r.isLt rfl rfl
  | rdInd k r => exact decode_of_fitsRow 0 8 16 hnone k.isLt r.isLt rfl rfl
  | rdBuf b ch k =>
    refine decode_of_fitsRow 0 2 16 hnone (fitsIn_bank_append_channel b ch) k.isLt rfl ?_
    rw [extractLsb'_bank, BitVec.extractLsb'_append_eq_right]

/-! ### What the decoder answers -/

/-- The three answers of the decoder: OP unassigned, a reserved field not zero, or a command that encodes as the
word. -/
inductive Decoded (w : Command) : Except Reject Instr → Prop
  | unassigned (hop : opOf w ∉ assignedOps) : Decoded w (.error .unassignedOpcode)
  | reserved (hop : opOf w ∈ assignedOps) (hreserved : ¬reservedFieldsZero w) : Decoded w (.error .reservedField)
  | command (hop : opOf w ∈ assignedOps) (hreserved : reservedFieldsZero w) {i : Instr} (hi : encode i = w) :
      Decoded w (.ok i)

section
variable {data : BitVec 32} {op idx : BitVec 8} {imm : BitVec 16} {i : Instr}

/-- A row of the decoder whose mask covers the reserved fields of its OP value and whose command encodes as the word. -/
theorem decoded_of_row {d x m : Nat} (hop : op ∈ assignedOps)
    (hreserved : reservedFieldsZero (mkCommand data op idx imm) ↔ fitsIn d data ∧ fitsIn x idx ∧ fitsIn m imm)
    (hencode : fitsIn d data → fitsIn x idx → fitsIn m imm → encode i = mkCommand data op idx imm) :
    Decoded (mkCommand data op idx imm) (checked (mkCommand data op idx imm) (rowMask d x m) (rowMatch op) i) := by
  rw [← opOf_mkCommand data op idx imm] at hop
  by_cases hfits : fitsIn d data ∧ fitsIn x idx ∧ fitsIn m imm
  · rw [checked, if_pos ((and_rowMask_eq_rowMatch_iff ..).2 hfits)]
    obtain ⟨hdata, hidx, himm⟩ := hfits
    exact .command hop (hreserved.2 ⟨hdata, hidx, himm⟩) (hencode hdata hidx himm)
  · rw [checked, if_neg fun hmatch => hfits ((and_rowMask_eq_rowMatch_iff ..).1 hmatch)]
    exact .reserved hop fun h => hfits (hreserved.1 h)

/-- Format N: every operand field is reserved. -/
theorem decoded_n (hop : op ∈ assignedOps) (hf : formatOf op = .n) (hencode : encode i = mkCommand 0#32 op 0#8 0#16) :
    Decoded (mkCommand data op idx imm) (checked (mkCommand data op idx imm) (rowMask 0 0 0) (rowMatch op) i) := by
  refine decoded_of_row hop ?_ fun hdata hidx himm => ?_
  · simp only [reservedFieldsZero, opOf_mkCommand, dataOf_mkCommand, idxOf_mkCommand, immOf_mkCommand, hf,
      fitsIn_zero_iff]
  · rw [eq_zero_of_fitsIn hdata, eq_zero_of_fitsIn hidx, eq_zero_of_fitsIn himm, hencode]

/-- Format VD: IMM16 is reserved. -/
theorem decoded_vd (hop : op ∈ assignedOps) (hf : formatOf op = .vd) (hencode : encode i = mkCommand data op idx 0#16) :
    Decoded (mkCommand data op idx imm) (checked (mkCommand data op idx imm) (rowMask 32 8 0) (rowMatch op) i) := by
  refine decoded_of_row hop ?_ fun _ _ himm => ?_
  · simp only [reservedFieldsZero, opOf_mkCommand, immOf_mkCommand, hf, fitsIn_zero_iff, fitsIn_width, true_and]
  · rw [eq_zero_of_fitsIn himm, hencode]

/-- Format VI with all of IMM16 an operand: DATA is reserved. -/
theorem decoded_vi (hop : op ∈ assignedOps) (hf : formatOf op = .vi) (hwave : op ≠ 0x12#8) (hen : op ≠ 0x13#8)
    (hencode : encode i = mkCommand 0#32 op idx imm) :
    Decoded (mkCommand data op idx imm) (checked (mkCommand data op idx imm) (rowMask 0 8 16) (rowMatch op) i) := by
  refine decoded_of_row hop ?_ fun hdata _ _ => ?_
  · simp only [reservedFieldsZero, opOf_mkCommand, dataOf_mkCommand, hf, hwave, hen, false_imp_iff,
      fitsIn_zero_iff, fitsIn_width, and_true]
  · rw [eq_zero_of_fitsIn hdata, hencode]

/-- Format V: DATA and IMM16 are reserved. -/
theorem decoded_v (hop : op ∈ assignedOps) (hf : formatOf op = .v) (hencode : encode i = mkCommand 0#32 op idx 0#16) :
    Decoded (mkCommand data op idx imm) (checked (mkCommand data op idx imm) (rowMask 0 8 0) (rowMatch op) i) := by
  refine decoded_of_row hop ?_ fun hdata _ himm => ?_
  · simp only [reservedFieldsZero, opOf_mkCommand, dataOf_mkCommand, immOf_mkCommand, hf, fitsIn_zero_iff,
      fitsIn_width, true_and]
  · rw [eq_zero_of_fitsIn hdata, eq_zero_of_fitsIn himm, hencode]

/-- Format R with all of IDX an operand: DATA is reserved. -/
theorem decoded_r (hop : op ∈ assignedOps) (hf : formatOf op = .r) (hsys : op ≠ 0x70#8) (hbuf : op ≠ 0x74#8)
    (hencode : encode i = mkCommand 0#32 op idx imm) :
    Decoded (mkCommand data op idx imm) (checked (mkCommand data op idx imm) (rowMask 0 8 16) (rowMatch op) i) := by
  refine decoded_of_row hop ?_ fun hdata _ _ => ?_
  · simp only [reservedFieldsZero, opOf_mkCommand, dataOf_mkCommand, hf, hsys, hbuf, false_imp_iff,
      fitsIn_zero_iff, fitsIn_width, and_true]
  · rw [eq_zero_of_fitsIn hdata, hencode]

/-! The rows with a format of their own, or with reserved bits beside their operand (R135). -/

theorem decoded_oscSetWave : Decoded (mkCommand data 0x12#8 idx imm) (decodeFields data 0x12#8 idx imm) := by
  refine decoded_of_row (d := 0) (x := 8) (m := 2) (by decide) ?_ fun hdata _ himm => ?_
  · simp [reservedFieldsZero, show formatOf 0x12#8 = .vi from rfl, fitsIn_two_iff]
  · rw [encode, waveCode_waveOfCode, zero_append_extractLsb' (a := 14) himm, eq_zero_of_fitsIn hdata]
    rfl

theorem decoded_oscSetEn : Decoded (mkCommand data 0x13#8 idx imm) (decodeFields data 0x13#8 idx imm) := by
  refine decoded_of_row (d := 0) (x := 8) (m := 1) (by decide) ?_ fun hdata _ himm => ?_
  · simp [reservedFieldsZero, show formatOf 0x13#8 = .vi from rfl, fitsIn_one_iff]
  · rw [encode, ofBool_getLsbD_zero, zero_append_extractLsb' (a := 15) himm, eq_zero_of_fitsIn hdata]
    rfl

theorem decoded_audPeriod : Decoded (mkCommand data 0x20#8 idx imm) (decodeFields data 0x20#8 idx imm) := by
  refine decoded_of_row (d := 0) (x := 1) (m := 16) (by decide) ?_ fun hdata hidx _ => ?_
  · simp [reservedFieldsZero, show formatOf 0x20#8 = .a from rfl, fitsIn_one_iff]
  · rw [encode, ofBool_getLsbD_zero, zero_append_extractLsb' (a := 7) hidx, eq_zero_of_fitsIn hdata]
    rfl

theorem decoded_ctlPoll : Decoded (mkCommand data 0x30#8 idx imm) (decodeFields data 0x30#8 idx imm) := by
  refine decoded_of_row (d := 32) (x := 0) (m := 0) (by decide) ?_ fun _ hidx himm => ?_
  · simp [reservedFieldsZero, show formatOf 0x30#8 = .p from rfl]
  · rw [eq_zero_of_fitsIn hidx, eq_zero_of_fitsIn himm]
    rfl

theorem decoded_rdSys : Decoded (mkCommand data 0x70#8 idx imm) (decodeFields data 0x70#8 idx imm) := by
  refine decoded_of_row (d := 0) (x := 0) (m := 16) (by decide) ?_ fun hdata hidx _ => ?_
  · simp [reservedFieldsZero, show formatOf 0x70#8 = .r from rfl]
  · rw [eq_zero_of_fitsIn hdata, eq_zero_of_fitsIn hidx]
    rfl

theorem decoded_rdBuf : Decoded (mkCommand data 0x74#8 idx imm) (decodeFields data 0x74#8 idx imm) := by
  refine decoded_of_row (d := 0) (x := 2) (m := 16) (by decide) ?_ fun hdata hidx _ => ?_
  · simp [reservedFieldsZero, show formatOf 0x74#8 = .r from rfl, fitsIn_two_iff]
  · rw [encode, zero_append_bank_append_channel hidx, eq_zero_of_fitsIn hdata]
    rfl

end

/-- The answer for an assigned OP value, row by row in the order of the opcode map (R131). -/
theorem decoded_of_assigned (data : BitVec 32) {op : BitVec 8} (idx : BitVec 8) (imm : BitVec 16)
    (hop : op ∈ assignedOps) : Decoded (mkCommand data op idx imm) (decodeFields data op idx imm) := by
  have hmem := hop
  simp only [assignedOps, List.mem_cons, List.not_mem_nil, or_false] at hmem
  rcases hmem with rfl | rfl | rfl | rfl | rfl | rfl | rfl | rfl | rfl | rfl | rfl | rfl | rfl | rfl | rfl | rfl |
    rfl | rfl | rfl | rfl | rfl
  · exact decoded_n hop (by decide) rfl
  · exact decoded_n hop (by decide) rfl
  · exact decoded_vd hop (by decide) rfl
  · exact decoded_vd hop (by decide) rfl
  · exact decoded_oscSetWave
  · exact decoded_oscSetEn
  · exact decoded_v hop (by decide) rfl
  · exact decoded_v hop (by decide) rfl
  · exact decoded_audPeriod
  · exact decoded_ctlPoll
  · exact decoded_vi hop (by decide) (by decide) (by decide) rfl
  · exact decoded_vi hop (by decide) (by decide) (by decide) rfl
  · exact decoded_vi hop (by decide) (by decide) (by decide) rfl
  · exact decoded_vd hop (by decide) rfl
  · exact decoded_vd hop (by decide) rfl
  · exact decoded_vi hop (by decide) (by decide) (by decide) rfl
  · exact decoded_rdSys
  · exact decoded_r hop (by decide) (by decide) (by decide) rfl
  · exact decoded_r hop (by decide) (by decide) (by decide) rfl
  · exact decoded_r hop (by decide) (by decide) (by decide) rfl
  · exact decoded_rdBuf

theorem decodeFields_of_unassigned (data : BitVec 32) {op : BitVec 8} (idx : BitVec 8) (imm : BitVec 16)
    (hop : op ∉ assignedOps) : decodeFields data op idx imm = .error .unassignedOpcode := by
  rw [not_mem_assignedOps_iff] at hop
  unfold decodeFields
  split
  case h_22 => rfl
  all_goals
    next h =>
      rw [h] at hop
      exact absurd hop (by decide)

/-- What the decoder answers, for every word; later proofs split on this and not on `decode`. -/
theorem decoded_decode (w : Command) : Decoded w (decode w) := by
  rw [← mkCommand_fields w, decode_mkCommand]
  by_cases hop : opOf w ∈ assignedOps
  · exact decoded_of_assigned _ _ _ hop
  · rw [decodeFields_of_unassigned _ _ _ hop]
    exact .unassigned (by rwa [opOf_mkCommand])

/-! ### Words by their OP value and reserved fields -/

theorem opOf_encode (i : Instr) : opOf (encode i) = opcode i := by
  cases i <;> exact opOf_mkCommand ..

/-- The two halves of the round trip (R142). -/
theorem decode_eq_ok_iff {w : Command} {i : Instr} : decode w = .ok i ↔ encode i = w := by
  refine ⟨fun h => ?_, fun h => h ▸ decode_encode i⟩
  have hw := decoded_decode w
  rw [h] at hw
  cases hw with
  | command _ _ hi => exact hi

theorem opcode_of_decode {w : Command} {i : Instr} (h : decode w = .ok i) : opcode i = opOf w := by
  rw [← decode_eq_ok_iff.1 h, opOf_encode]

/-! Checks (1) and (3) of R132, and the words that pass both. -/

theorem decode_of_unassigned {w : Command} (hop : opOf w ∉ assignedOps) : decode w = .error .unassignedOpcode := by
  have hw := decoded_decode w
  generalize decode w = r at hw ⊢
  cases hw with
  | unassigned => rfl
  | reserved hmem => exact absurd hmem hop
  | command hmem => exact absurd hmem hop

theorem decode_of_reserved {w : Command} (hop : opOf w ∈ assignedOps) (hr : ¬reservedFieldsZero w) :
    decode w = .error .reservedField := by
  have hw := decoded_decode w
  generalize decode w = r at hw ⊢
  cases hw with
  | unassigned hmem => exact absurd hop hmem
  | reserved => rfl
  | command _ hzero => exact absurd hzero hr

theorem exists_decode_iff (w : Command) :
    (∃ i, decode w = .ok i) ↔ opOf w ∈ assignedOps ∧ reservedFieldsZero w := by
  have hw := decoded_decode w
  generalize decode w = r at hw ⊢
  cases hw with
  | unassigned hmem => simp [hmem]
  | reserved _ hr => simp [hr]
  | command hmem hzero => exact ⟨fun _ => ⟨hmem, hzero⟩, fun _ => ⟨_, rfl⟩⟩

theorem decodeBytes_of_decode {w : Command} {i : Instr} (h : decode w = .ok i) (rest : List Byte) :
    decodeBytes (commandBytes w ++ rest) = .ok (i, rest) := by
  rw [decodeBytes, takeCommand_commandBytes]
  simp only [h]

end Sys2Proof
end

section
/-! The checks of R132 that make a command illegal: the port (R134), the range (R136), and their order. -/

namespace Sys2Proof.Machine

/-! ### The port check -/

theorem onPort_of_wrongPort {p : Port} {s : State} {k : Answer} (h : s.port ≠ p) :
    onPort p s k = .next (afterIllegal .wrongPort s) :=
  (onPort_of_ne k h).trans (congrArg _ (raiseCondition_eq_afterIllegal _ s))

theorem exists_audPeriod_of_opcode {i : Instr} (h : opcode i = 0x20#8) : ∃ r n, i = .audPeriod r n := by
  cases i with
  | audPeriod r n => exact ⟨r, n, rfl⟩
  | _ => cases h

theorem exec_audPeriod_of_wrongPort {s : State} (r : Bool) (n : BitVec 16) (h : s.port ≠ .aud) :
    exec (.audPeriod r n) s = .next (afterIllegal .wrongPort s) :=
  onPort_of_wrongPort h

theorem exec_of_port_ne_cmd {s : State} {i : Instr} (h : s.port ≠ .cmd) (hnop : i ≠ .nop)
    (hperiod : ∀ r n, i ≠ .audPeriod r n) : exec i s = .next (afterIllegal .wrongPort s) := by
  cases i with
  | nop => exact absurd rfl hnop
  | audPeriod r n => exact absurd rfl (hperiod r n)
  | _ => exact onPort_of_wrongPort h

/-- Every command but NOP makes check (2) of R132 itself. -/
theorem exec_of_onWrongPort {s : State} {i : Instr} (h : onWrongPort (opcode i) s.port) :
    exec i s = .next (afterIllegal .wrongPort s) := by
  rcases h with ⟨hop, hport⟩ | ⟨hperiod, hnop, hport⟩
  · obtain ⟨r, n, rfl⟩ := exists_audPeriod_of_opcode hop
    exact exec_audPeriod_of_wrongPort r n hport
  · exact exec_of_port_ne_cmd hport (fun hi => hnop (hi ▸ rfl)) fun r n hi => hperiod (hi ▸ rfl)

/-- The port check of the words that do not decode is the same (R134). -/
theorem portLegal_iff (op : BitVec 8) (p : Port) : portLegal op p = true ↔ ¬onWrongPort op p := by
  unfold portLegal onWrongPort
  split
  case isTrue h => simp [h]
  case isFalse hnop =>
    split
    case isTrue h => simp [h]
    case isFalse h => simp [h, hnop]

/-! ### The checks of the word, in their order -/

theorem runCommand_of_unassigned {p : Port} {w : Command} (s : State) (hop : opOf w ∉ assignedOps) :
    runCommand p w s = .next (afterIllegal .unassignedOpcode { s with port := p }) := by
  simp only [runCommand, decode_of_unassigned hop, raiseCondition_eq_afterIllegal]

theorem runCommand_of_onWrongPort {p : Port} {w : Command} (s : State) (hop : opOf w ∈ assignedOps)
    (hport : onWrongPort (opOf w) p) :
    runCommand p w s = .next (afterIllegal .wrongPort { s with port := p }) := by
  by_cases hr : reservedFieldsZero w
  · obtain ⟨i, hi⟩ := (exists_decode_iff w).2 ⟨hop, hr⟩
    rw [runCommand_of_decode hi]
    exact exec_of_onWrongPort (s := { s with port := p }) (by rwa [opcode_of_decode hi])
  · have hlegal : ¬portLegal (opOf w) p = true := fun h => (portLegal_iff _ _).1 h hport
    simp only [runCommand, decode_of_reserved hop hr, if_neg hlegal, raiseCondition_eq_afterIllegal]

theorem runCommand_of_reserved {p : Port} {w : Command} (s : State) (hop : opOf w ∈ assignedOps)
    (hport : ¬onWrongPort (opOf w) p) (hr : ¬reservedFieldsZero w) :
    runCommand p w s = .next (afterIllegal .reservedField { s with port := p }) := by
  simp only [runCommand, decode_of_reserved hop hr, if_pos ((portLegal_iff _ _).2 hport),
    raiseCondition_eq_afterIllegal]

/-! ### The range check -/

/-- A lookup in a bank that is illegal where there is no such entry, and whose command is where there is one. -/
theorem elim_getElem?_of_illegal {α : Type} {xs : List α} {j : Nat} {k : α → Answer} {a : Answer}
    (h : ∀ x, j < xs.length → k x = a) : xs[j]?.elim a k = a := by
  cases hx : xs[j]? with
  | none => rfl
  | some x => exact h x (List.getElem?_eq_some_iff.1 hx).1

theorem withVoice_of_illegal {v : BitVec 8} {s : State} {k : Voice → Answer}
    (h : ∀ x, v.toNat < s.voices.length → k x = .next (afterIllegal .indexRange s)) :
    withVoice v s k = .next (afterIllegal .indexRange s) :=
  (withVoice_eq_elim v s k).trans (elim_getElem?_of_illegal h)

theorem withSwitch_of_illegal {j : BitVec 8} {s : State} {k : Switch → Answer}
    (h : ∀ x, j.toNat < s.switches.length → k x = .next (afterIllegal .indexRange s)) :
    withSwitch j s k = .next (afterIllegal .indexRange s) :=
  (withSwitch_eq_elim j s k).trans (elim_getElem?_of_illegal h)

theorem withIndicator_of_illegal {j : BitVec 8} {s : State} {k : Indicator → Answer}
    (h : ∀ x, j.toNat < s.indicators.length → k x = .next (afterIllegal .indexRange s)) :
    withIndicator j s k = .next (afterIllegal .indexRange s) :=
  (withIndicator_eq_elim j s k).trans (elim_getElem?_of_illegal h)

theorem replyRegister_of_none {r : Option Word} {s : State} (h : r = none) :
    replyRegister r s = .next (afterIllegal .indexRange s) := by
  rw [h, replyRegister_eq_elim, Option.elim_none]

theorem sysRegister_eq_none {s : State} {r : BitVec 16} (h : ¬r.toNat ≤ 6) : sysRegister s r = none := by
  obtain ⟨k, hk⟩ := Nat.exists_eq_add_of_le' (show 7 ≤ r.toNat by omega)
  rw [sysRegister, hk]
  rfl

theorem voiceRegister_eq_none {x : Voice} {r : BitVec 16} (h : ¬r.toNat ≤ 6) : voiceRegister x r = none := by
  obtain ⟨k, hk⟩ := Nat.exists_eq_add_of_le' (show 7 ≤ r.toNat by omega)
  rw [voiceRegister, hk]
  rfl

theorem switchRegister_eq_none {x : Switch} {r : BitVec 16} (h : ¬r.toNat ≤ 8) : switchRegister x r = none := by
  obtain ⟨k, hk⟩ := Nat.exists_eq_add_of_le' (show 9 ≤ r.toNat by omega)
  rw [switchRegister, hk]
  rfl

theorem indicatorRegister_eq_none {x : Indicator} {r : BitVec 16} (h : ¬r.toNat ≤ 5) :
    indicatorRegister x r = none := by
  obtain ⟨k, hk⟩ := Nat.exists_eq_add_of_le' (show 6 ≤ r.toNat by omega)
  rw [indicatorRegister, hk]
  rfl

/-- A command that passes the port check and not the range check (R136). -/
theorem exec_of_outOfRange {s : State} {i : Instr} (hport : ¬onWrongPort (opcode i) s.port)
    (h : ¬operandsInRange s i) : exec i s = .next (afterIllegal .indexRange s) := by
  have hcmd {k : Answer} (hop : decide (opcode i ≠ 0x20#8 ∧ opcode i ≠ 0x00#8) = true)
      (hk : k = .next (afterIllegal .indexRange s)) : onPort .cmd s k = .next (afterIllegal .indexRange s) := by
    obtain ⟨hperiod, hnop⟩ := of_decide_eq_true hop
    rwa [onPort_of_eq k (Decidable.not_not.1 fun hne => hport (.inr ⟨hperiod, hnop, hne⟩))]
  cases i with
  | nop => exact absurd trivial h
  | sysClrErr => exact absurd trivial h
  | oscSetFreq v f => exact hcmd rfl (withVoice_of_illegal fun _ hin => absurd hin h)
  | oscSetSr v f => exact hcmd rfl (withVoice_of_illegal fun _ hin => absurd hin h)
  | oscSetWave v w => exact hcmd rfl (withVoice_of_illegal fun _ hin => absurd hin h)
  | oscSetEn v e => exact hcmd rfl (withVoice_of_illegal fun _ hin => absurd hin h)
  | oscTickBlep v => exact hcmd rfl (withVoice_of_illegal fun _ hin => absurd hin h)
  | oscTickNaive v => exact hcmd rfl (withVoice_of_illegal fun _ hin => absurd hin h)
  | audPeriod r n => exact absurd trivial h
  | ctlPoll levels => exact absurd trivial h
  | swSetDw j n => exact hcmd rfl (withSwitch_of_illegal fun _ hin => absurd hin h)
  | swSetDcw j n => exact hcmd rfl (withSwitch_of_illegal fun _ hin => absurd hin h)
  | swSetHt j n => exact hcmd rfl (withSwitch_of_illegal fun _ hin => absurd hin h)
  | indSetTarget j f => exact hcmd rfl (withIndicator_of_illegal fun _ hin => absurd hin h)
  | indSetStep j f => exact hcmd rfl (withIndicator_of_illegal fun _ hin => absurd hin h)
  | indSetBlink j p => exact hcmd rfl (withIndicator_of_illegal fun _ hin => absurd hin h)
  | rdSys r => exact hcmd rfl (replyRegister_of_none (sysRegister_eq_none h))
  | rdOsc v r =>
    exact hcmd rfl <|
      withVoice_of_illegal fun _ hin => replyRegister_of_none (voiceRegister_eq_none fun hr => h ⟨hin, hr⟩)
  | rdSw j r =>
    exact hcmd rfl <|
      withSwitch_of_illegal fun _ hin => replyRegister_of_none (switchRegister_eq_none fun hr => h ⟨hin, hr⟩)
  | rdInd j r =>
    exact hcmd rfl <|
      withIndicator_of_illegal fun _ hin => replyRegister_of_none (indicatorRegister_eq_none fun hr => h ⟨hin, hr⟩)
  | rdBuf b ch k => exact hcmd rfl (replyRegister_of_none (if_neg h))

/-! ### The period -/

/-- The frame loop of a period, from its start (R205). -/
theorem renderFrames_loopEffect (s : State) (n : Nat) : LoopEffect s n (renderFrames s.wbank n 0 s) := by
  have hstart : duringPeriod s 0 s.mem = s := by rw [duringPeriod, voicesAfter_zero]
  have hloop : LoopEffect s n (renderFrames s.wbank n 0 (duringPeriod s 0 s.mem)) :=
    renderFrames_effect n (by omega) fun _ _ => rfl
  rwa [hstart] at hloop

/-- AUD_PERIOD has no range check (R136): on its port it leaves the record of illegal commands. -/
theorem execAudPeriod_record {ready : Bool} {n : BitVec 16} {s t : State} (hport : s.port = .aud)
    (h : execAudPeriod ready n s = .next t) : t.ill = s.ill ∧ t.illCause = s.illCause := by
  have hloop := renderFrames_loopEffect s n.toNat
  rcases execAudPeriod_next h with ⟨-, -, rfl⟩ | ⟨-, -, -, rfl⟩ | ⟨-, -, -, u, hu, rfl⟩ | ⟨-, -, -, hu⟩ | ⟨hne, -⟩
  · exact ⟨rfl, rfl⟩
  · exact ⟨rfl, rfl⟩
  · rw [hu] at hloop
    cases hloop with
    | complete => exact ⟨rfl, rfl⟩
  · rw [hu] at hloop
    cases hloop with
    | halted => exact ⟨rfl, rfl⟩
  · exact absurd hport hne

end Sys2Proof.Machine
end

section
/-! Which commands complete in every state, and which may fault (R177, U1, U2). -/

namespace Sys2Proof.Machine

/-- The command answers a next state. -/
def Completes (a : Answer) : Prop := ∃ t, a = .next t

theorem completes_next (t : State) : Completes (.next t) := ⟨t, rfl⟩

theorem completes_onPort {p : Port} {s : State} {k : Answer} (h : Completes k) : Completes (onPort p s k) := by
  by_cases hp : s.port = p
  · rwa [onPort_of_eq k hp]
  · rw [onPort_of_ne k hp]
    exact completes_next _

/-- A lookup whose failure is an illegal command. -/
theorem completes_elim {α : Type} {o : Option α} {t : State} {k : α → Answer} (h : ∀ x, Completes (k x)) :
    Completes (o.elim (.next t) k) := by
  cases o with
  | none => exact completes_next t
  | some x => exact h x

theorem completes_withVoice {v : BitVec 8} {s : State} {k : Voice → Answer} (h : ∀ x, Completes (k x)) :
    Completes (withVoice v s k) :=
  withVoice_eq_elim v s k ▸ completes_elim h

theorem completes_withSwitch {j : BitVec 8} {s : State} {k : Switch → Answer} (h : ∀ x, Completes (k x)) :
    Completes (withSwitch j s k) :=
  withSwitch_eq_elim j s k ▸ completes_elim h

theorem completes_withIndicator {j : BitVec 8} {s : State} {k : Indicator → Answer} (h : ∀ x, Completes (k x)) :
    Completes (withIndicator j s k) :=
  withIndicator_eq_elim j s k ▸ completes_elim h

theorem completes_replyRegister (r : Option Word) (s : State) : Completes (replyRegister r s) :=
  replyRegister_eq_elim r s ▸ completes_elim fun _ => completes_next _

/-- A period with READY = 0 ticks no voice (R203). -/
theorem completes_underrunPeriod (n : BitVec 16) (s : State) : Completes (execAudPeriod false n s) := by
  refine completes_onPort ?_
  split <;> exact completes_next _

/-- Only a command that ticks voices can fail to complete. -/
theorem exec_completes {i : Instr} (h : ¬ticksVoices i) (s : State) : Completes (exec i s) := by
  cases i with
  | nop => exact completes_next _
  | sysClrErr => exact completes_onPort (completes_next _)
  | oscSetFreq v f => exact completes_onPort (completes_withVoice fun _ => completes_next _)
  | oscSetSr v f => exact completes_onPort (completes_withVoice fun _ => completes_next _)
  | oscSetWave v w => exact completes_onPort (completes_withVoice fun _ => completes_next _)
  | oscSetEn v e => exact completes_onPort (completes_withVoice fun _ => completes_next _)
  | oscTickBlep v => exact absurd (.inr (.inl ⟨v, rfl⟩)) h
  | oscTickNaive v => exact absurd (.inr (.inr ⟨v, rfl⟩)) h
  | audPeriod ready n =>
    cases ready with
    | false => exact completes_underrunPeriod n s
    | true => exact absurd (.inl ⟨n, rfl⟩) h
  | ctlPoll levels => exact completes_onPort (completes_next _)
  | swSetDw j n => exact completes_onPort (completes_withSwitch fun _ => completes_next _)
  | swSetDcw j n => exact completes_onPort (completes_withSwitch fun _ => completes_next _)
  | swSetHt j n => exact completes_onPort (completes_withSwitch fun _ => completes_next _)
  | indSetTarget j f => exact completes_onPort (completes_withIndicator fun _ => completes_next _)
  | indSetStep j f => exact completes_onPort (completes_withIndicator fun _ => completes_next _)
  | indSetBlink j p => exact completes_onPort (completes_withIndicator fun _ => completes_next _)
  | rdSys r => exact completes_onPort (completes_replyRegister _ s)
  | rdOsc v r => exact completes_onPort (completes_withVoice fun _ => completes_replyRegister _ s)
  | rdSw j r => exact completes_onPort (completes_withSwitch fun _ => completes_replyRegister _ s)
  | rdInd j r => exact completes_onPort (completes_withIndicator fun _ => completes_replyRegister _ s)
  | rdBuf b ch k => exact completes_onPort (completes_replyRegister _ s)

/-- No command is refused, and there is one fault. -/
theorem exec_completes_or_faults (i : Instr) (s : State) : Completes (exec i s) ∨ exec i s = .fault .outOfDomain := by
  cases h : exec i s with
  | next t => exact .inl (completes_next t)
  | fault r => cases r; exact .inr rfl
  | refused r => exact absurd h (exec_ne_refused i s r)

end Sys2Proof.Machine
end

section
/-! The obligations of spec/30_encoding.md. -/

namespace Sys2Proof.Machine

/-- Settles O1: the fields of an encoded command fit the row of its opcode, and its bytes are put together again. -/
theorem decodeInvertsEncode : Obligations.DecodeInvertsEncode := by
  unfold Obligations.DecodeInvertsEncode
  exact fun i rest => ⟨decode_encode i, decodeBytes_of_decode (decode_encode i) rest⟩

/-- Settles O2: in each row of the decoder the mask leaves free only the bits that the command is read from. -/
theorem encodeInvertsDecode : Obligations.EncodeInvertsDecode := by
  unfold Obligations.EncodeInvertsDecode
  exact fun _ _ => decode_eq_ok_iff.1

/-- Settles O3: the mask of each row covers the reserved fields of its format. -/
theorem decodableWordsHaveZeroReservedFields : Obligations.DecodableWordsHaveZeroReservedFields := by
  unfold Obligations.DecodableWordsHaveZeroReservedFields
  exact exists_decode_iff

/-- Settles O6: the values between the assigned ones; a word that does not decode for its OP is illegal on either
port. -/
theorem unassignedOpcodesAreIllegal : Obligations.UnassignedOpcodesAreIllegal := by
  unfold Obligations.UnassignedOpcodesAreIllegal
  refine ⟨not_mem_assignedOps_iff, fun s p w rest hp hs hop => ⟨?_, rfl⟩⟩
  exact (step_of_input hp hs).trans (runCommand_of_unassigned _ hop)

/-- Settles O7: one clause for each answer of the decoder and each check of `exec`. -/
theorem decodeChecksRunInOrder : Obligations.DecodeChecksRunInOrder := by
  unfold Obligations.DecodeChecksRunInOrder
  refine ⟨fun s p w rest hp hs => ?_, rfl, rfl, rfl, rfl⟩
  rw [step_of_input hp hs]
  refine ⟨runCommand_of_unassigned _, runCommand_of_onWrongPort _, runCommand_of_reserved _, fun hop hport hr => ?_⟩
  obtain ⟨i, hi⟩ := (exists_decode_iff w).2 ⟨hop, hr⟩
  have hrun : runInput (.command p w) { s with inputs := rest } = exec i { s with inputs := rest, port := p } :=
    runCommand_of_decode hi
  refine ⟨i, hi, fun hrange => ?_, fun _ => hrun⟩
  rw [hrun]
  exact exec_of_outOfRange (by rwa [opcode_of_decode hi]) hrange

/-- Settles O8: the port check of the word, and that of each command. -/
theorem commandsOnTheWrongPortAreIllegal : Obligations.CommandsOnTheWrongPortAreIllegal := by
  unfold Obligations.CommandsOnTheWrongPortAreIllegal
  refine ⟨fun s p w rest hp hs hop hport => ?_, fun s r n hs => ?_, fun s i hs hnop hperiod => ?_, fun _ => rfl, rfl⟩
  · exact (step_of_input hp hs).trans (runCommand_of_onWrongPort _ hop hport)
  · exact exec_audPeriod_of_wrongPort r n (by simp [hs])
  · exact exec_of_port_ne_cmd (by simp [hs]) hnop hperiod

/-- Settles O9: the lookup of each operand fails, and a period looks nothing up. -/
theorem outOfRangeOperandsAreIllegal : Obligations.OutOfRangeOperandsAreIllegal := by
  unfold Obligations.OutOfRangeOperandsAreIllegal
  exact ⟨fun _ _ => exec_of_outOfRange, fun _ _ _ _ => execAudPeriod_record, rfl⟩

/-- Settles O13: the commands that tick voices may meet the one fault there is; every other command completes. -/
theorem everyCommandCompletesOrFaultsOutOfDomain : Obligations.EveryCommandCompletesOrFaultsOutOfDomain := by
  unfold Obligations.EveryCommandCompletesOrFaultsOutOfDomain
  intro i s
  by_cases hticks : ticksVoices i
  · exact (exec_completes_or_faults i s).imp_right fun hfault => ⟨hfault, or_rotate.1 hticks⟩
  · exact .inl (exec_completes hticks s)

/-- Settles O5: each word is the encoding of its command. -/
theorem specWordsDecode : Obligations.SpecWordsDecode := by
  unfold Obligations.SpecWordsDecode
  simp only [decode_eq_ok_iff]
  decide

end Sys2Proof.Machine
end

section
/-! Rounding does not leave an interval whose ends are representable (R20). Values are counted in units of 2^-149, so that
1.0 is 2^149. -/

namespace Sys2Proof.Machine

/-! ### Representable values -/

/-- A whole number of units of 2^-149 that is the value of a finite pattern. -/
def representable (z : Int) : Prop := ∃ m < infMag, unitsOfMag m = z.natAbs

theorem natAbs_signedUnits (v : F32) : (signedUnits v).natAbs = unitsOf v := by
  unfold signedUnits; split <;> simp

theorem representable_signedUnits {v : F32} (h : magOf v < infMag) : representable (signedUnits v) :=
  ⟨magOf v, h, (natAbs_signedUnits v).symm⟩

theorem representable_neg {z : Int} (h : representable z) : representable (-z) := by
  unfold representable; rwa [Int.natAbs_neg]

/-- A whole number of at most 24 bits at an exponent is a magnitude: it is doubled until it has 24 bits or the exponent is
the lowest. -/
theorem exists_unitsOfMag_eq (sh : Nat) {k : Nat} (hk : k ≤ 2 ^ 24) (hsh : sh ≤ 252) :
    ∃ m < infMag, unitsOfMag m = k * 2 ^ sh := by
  induction sh generalizing k with
  | zero => exact ⟨k, by unfold infMag; omega, by simpa using unitsOfMag_shift 0 k hk (.inl rfl)⟩
  | succ sh ih =>
    by_cases hnormal : 2 ^ 23 ≤ k
    · exact ⟨(sh + 1) * 2 ^ 23 + k, by unfold infMag; omega, unitsOfMag_shift _ k hk (.inr hnormal)⟩
    · obtain ⟨m, hm, hunits⟩ := ih (k := 2 * k) (by omega) (by omega)
      exact ⟨m, hm, by rw [hunits, Nat.pow_succ]; ring⟩

theorem representable_of_dvd (sh : Nat) {z : Int} (hdvd : 2 ^ sh ∣ z) (hz : z.natAbs ≤ 2 ^ 24 * 2 ^ sh)
    (hsh : sh ≤ 252) : representable z := by
  obtain ⟨k, rfl⟩ := hdvd
  have habs : ((2 : Int) ^ sh * k).natAbs = k.natAbs * 2 ^ sh := by
    rw [Int.natAbs_mul, Int.natAbs_pow, Nat.mul_comm]; rfl
  unfold representable
  rw [habs] at hz ⊢
  exact exists_unitsOfMag_eq sh (Nat.le_of_mul_le_mul_right hz (Nat.two_pow_pos sh)) hsh

theorem representable_two_pow {k : Nat} (h : k ≤ 252) : representable (2 ^ k) :=
  representable_of_dvd k (dvd_refl _) (by rw [Int.natAbs_pow]; exact Nat.le_mul_of_pos_left _ (by decide)) h

theorem representable_zero : representable 0 := ⟨0, by decide, rfl⟩

theorem representable_one : representable (2 ^ 149) := representable_two_pow (by decide)

theorem representable_minusOne : representable (-2 ^ 149) := representable_neg representable_one

theorem signedUnits_oneF : signedUnits oneF = 2 ^ 149 := by decide

/-- A pattern of magnitude at most 1.0 in terms of its value. -/
theorem magOf_le_oneF {v : F32} (hv : magOf v < infMag) (h : unitsOf v ≤ 2 ^ 149) : magOf v ≤ magOf oneF := by
  by_contra hlt
  have hunits := (unitsOf_lt_iff (a := oneF) (by decide) hv).2 (Nat.lt_of_not_le hlt)
  have hone : unitsOf oneF = 2 ^ 149 := by decide
  omega

/-- Up to 1.0 the double of a value is representable. -/
theorem representable_double {v : F32} (hv : magOf v < infMag) (h : unitsOf v ≤ 2 ^ 149) :
    representable (2 * signedUnits v) := by
  obtain ⟨sh, q, hm, hq, hs⟩ := exists_shift (magOf v)
  have hunits : unitsOf v = q * 2 ^ sh := by rw [unitsOf, hm, unitsOfMag_shift sh q (by omega) hs]
  have hle := magOf_le_oneF hv h
  rw [show magOf oneF = 127 * 2 ^ 23 by decide] at hle
  have habs : (2 * signedUnits v).natAbs = q * 2 ^ (sh + 1) := by
    rw [Int.natAbs_mul, natAbs_signedUnits, hunits, Nat.pow_succ]
    show 2 * (q * 2 ^ sh) = _
    ring
  refine representable_of_dvd (sh + 1) ?_ ?_ (by omega)
  · rw [← Int.natAbs_dvd_natAbs, habs, Int.natAbs_pow]
    exact Nat.dvd_mul_left _ _
  · rw [habs]
    exact Nat.mul_le_mul_right _ (by omega)

/-- From 0.5 up a value is a whole number of units of 2^-24. -/
theorem dvd_signedUnits {v : F32} (hv : magOf v < infMag) (h : 2 ^ 148 ≤ unitsOf v) :
    (2 ^ 125 : Int) ∣ signedUnits v := by
  have hhalf : unitsOf halfF = 2 ^ 148 := by decide
  have hmag : magOf halfF ≤ magOf v := by
    by_contra hlt
    have := (unitsOf_lt_iff hv (b := halfF) (by decide)).2 (Nat.lt_of_not_le hlt)
    omega
  rw [show magOf halfF = 126 * 2 ^ 23 by decide] at hmag
  rw [← Int.natAbs_dvd_natAbs, natAbs_signedUnits, Int.natAbs_pow, unitsOf, unitsOfMag, if_neg (by omega)]
  exact Dvd.dvd.mul_left (Nat.pow_dvd_pow 2 (by omega)) _

/-! ### Rounding between representable values -/

/-- Rounding does not pass a representable value on either side. -/
theorem unitsOfMag_roundMag_between {num den : Nat} {lo hi : Int} (hden : 0 < den) (hlo : representable lo)
    (hhi : representable hi) (hl : lo * den ≤ num) (hu : num ≤ hi * den) :
    roundMag num den < infMag ∧ lo ≤ unitsOfMag (roundMag num den) ∧ unitsOfMag (roundMag num den) ≤ hi := by
  obtain ⟨top, htop, hhi⟩ := hhi
  obtain ⟨bottom, hbottom, hlo⟩ := hlo
  have hpos : 0 ≤ hi :=
    Int.le_of_mul_le_mul_right ((Int.zero_mul _).le.trans ((Int.natCast_nonneg num).trans hu)) (Int.natCast_pos.2 hden)
  have hhi' : hi = unitsOfMag top := hhi ▸ (Int.natAbs_of_nonneg hpos).symm
  subst hhi'
  have hle : roundMag num den ≤ top := roundMag_le_of_le htop hden (Int.ofNat_le.1 (Int.natCast_mul .. ▸ hu))
  have hfin : roundMag num den < infMag := Nat.lt_of_le_of_lt hle htop
  refine ⟨hfin, ?_, Int.ofNat_le.2 (unitsOfMag_le htop hle)⟩
  rcases Int.lt_or_le lo 0 with hneg | hnonneg
  · exact hneg.le.trans (Int.natCast_nonneg _)
  · have hlo' : lo = unitsOfMag bottom := hlo ▸ (Int.natAbs_of_nonneg hnonneg).symm
    subst hlo'
    exact Int.ofNat_le.2
      (unitsOfMag_le hfin (le_roundMag_of_le hbottom hden (Int.ofNat_le.1 (Int.natCast_mul .. ▸ hl))))

/-- The pattern is finite and its value lies between lo and hi. -/
def valueIn (lo hi : Int) (v : F32) : Prop := magOf v < infMag ∧ lo ≤ signedUnits v ∧ signedUnits v ≤ hi

theorem valueIn_self {v : F32} (h : magOf v < infMag) : valueIn (signedUnits v) (signedUnits v) v :=
  ⟨h, Int.le_refl _, Int.le_refl _⟩

theorem valueIn_oneF : valueIn (2 ^ 149) (2 ^ 149) oneF := by unfold valueIn; decide

/-- A wider interval. -/
theorem valueIn.mono {lo hi lo' hi' : Int} {v : F32} (h : valueIn lo hi v) (hlo : lo' ≤ lo) (hhi : hi ≤ hi') :
    valueIn lo' hi' v :=
  ⟨h.1, hlo.trans h.2.1, h.2.2.trans hhi⟩

theorem signedUnits_packF (neg : Bool) {m : Nat} (h : m < 2 ^ 31) :
    signedUnits (packF neg m) = if neg then -(unitsOfMag m : Int) else unitsOfMag m := by
  rw [signedUnits, unitsOf, signOf_packF neg h, magOf_packF neg h]

/-- A magnitude with its sign. -/
def withSign (neg : Bool) (n : Nat) : Int := if neg then -(n : Int) else n

/-- The signed result of a rounding lies between representable values that the exact one lies between. -/
theorem packF_roundMag_valueIn {neg : Bool} {num den : Nat} {lo hi : Int} (hden : 0 < den) (hlo : representable lo)
    (hhi : representable hi) (hl : lo * den ≤ withSign neg num) (hu : withSign neg num ≤ hi * den) :
    valueIn lo hi (packF neg (roundMag num den)) := by
  rw [valueIn, magOf_packF_roundMag, signedUnits_packF _ (roundMag_lt _ _)]
  cases neg with
  | false => exact unitsOfMag_roundMag_between hden hlo hhi hl hu
  | true =>
    simp only [withSign, if_true] at hl hu ⊢
    obtain ⟨hfin, hl', hu'⟩ := unitsOfMag_roundMag_between (num := num) hden (representable_neg hhi)
      (representable_neg hlo) (Int.neg_mul hi den ▸ Int.neg_le_of_neg_le hu)
      (Int.neg_mul lo den ▸ Int.le_neg_of_le_neg hl)
    exact ⟨hfin, Int.le_neg_of_le_neg hu', Int.neg_le_of_neg_le hl'⟩

/-! ### The operations between representable values -/

theorem withSign_natAbs (z : Int) : withSign (decide (z < 0)) z.natAbs = z := by
  simp only [withSign, decide_eq_true_eq]; split <;> omega

theorem valueIn_packF_zero {neg : Bool} {lo hi : Int} (hl : lo ≤ 0) (hu : 0 ≤ hi) : valueIn lo hi (packF neg 0) := by
  rw [valueIn, magOf_packF _ (by decide), signedUnits_packF _ (by decide), unitsOfMag_zero, Int.natCast_zero,
    Int.neg_zero, ite_self]
  exact ⟨by decide, hl, hu⟩

theorem packSum_valueIn {neg : Bool} {z lo hi : Int} (hlo : representable lo) (hhi : representable hi) (hl : lo ≤ z)
    (hu : z ≤ hi) : valueIn lo hi (packSum neg z) := by
  unfold packSum
  split
  case isTrue hz => exact valueIn_packF_zero (hz ▸ hl) (hz ▸ hu)
  case isFalse hz =>
    refine packF_roundMag_valueIn Nat.one_pos hlo hhi ?_ ?_ <;> rw [withSign_natAbs, Nat.cast_one, Int.mul_one]
    · exact hl
    · exact hu

section
variable {a b : F32} {lo hi : Int}

theorem add32_valueIn (ha : magOf a < infMag) (hb : magOf b < infMag) (hlo : representable lo)
    (hhi : representable hi) (hl : lo ≤ signedUnits a + signedUnits b) (hu : signedUnits a + signedUnits b ≤ hi) :
    valueIn lo hi (add32 a b) := by
  rw [add32_finite ha hb]
  exact packSum_valueIn hlo hhi hl hu

theorem sub32_valueIn (ha : magOf a < infMag) (hb : magOf b < infMag) (hlo : representable lo)
    (hhi : representable hi) (hl : lo ≤ signedUnits a - signedUnits b) (hu : signedUnits a - signedUnits b ≤ hi) :
    valueIn lo hi (sub32 a b) :=
  add32_valueIn ha (by rwa [magOf_negF]) hlo hhi (by rwa [signedUnits_negF]) (by rwa [signedUnits_negF])

/-- The sum of numbers of two intervals. -/
theorem add32_interval {loA hiA loB hiB : Int} (ha : valueIn loA hiA a) (hb : valueIn loB hiB b)
    (hlo : representable lo) (hhi : representable hi) (hl : lo ≤ loA + loB) (hu : hiA + hiB ≤ hi) :
    valueIn lo hi (add32 a b) := by
  obtain ⟨haFin, haL, haU⟩ := ha
  obtain ⟨hbFin, hbL, hbU⟩ := hb
  exact add32_valueIn haFin hbFin hlo hhi (hl.trans (Int.add_le_add haL hbL)) ((Int.add_le_add haU hbU).trans hu)

/-- The difference of numbers of two intervals. -/
theorem sub32_interval {loA hiA loB hiB : Int} (ha : valueIn loA hiA a) (hb : valueIn loB hiB b)
    (hlo : representable lo) (hhi : representable hi) (hl : lo ≤ loA - hiB) (hu : hiA - loB ≤ hi) :
    valueIn lo hi (sub32 a b) := by
  obtain ⟨haFin, haL, haU⟩ := ha
  obtain ⟨hbFin, hbL, hbU⟩ := hb
  exact sub32_valueIn haFin hbFin hlo hhi (hl.trans (Int.sub_le_sub haL hbU)) ((Int.sub_le_sub haU hbL).trans hu)

/-- The sign of a product goes with the product of the magnitudes. -/
theorem withSign_bne (a b : F32) (n : Nat) :
    withSign (signOf a != signOf b) (unitsOf a * n) = signedUnits a * withSign (signOf b) n := by
  unfold withSign signedUnits
  cases signOf a <;> cases signOf b <;> simp

theorem mul32_valueIn (ha : magOf a < infMag) (hb : magOf b < infMag) (hlo : representable lo)
    (hhi : representable hi) (hl : lo * 2 ^ 149 ≤ signedUnits a * signedUnits b)
    (hu : signedUnits a * signedUnits b ≤ hi * 2 ^ 149) : valueIn lo hi (mul32 a b) := by
  rw [mul32_finite ha hb]
  refine packF_roundMag_valueIn (Nat.two_pow_pos 149) hlo hhi ?_ ?_ <;> rw [withSign_bne]
  · exact hl
  · exact hu

/-- The quotient by a positive number. -/
theorem div32_valueIn (ha : magOf a < infMag) (hb : magOf b < infMag) (hpos : 0 < signedUnits b)
    (hlo : representable lo) (hhi : representable hi) (hl : lo * signedUnits b ≤ signedUnits a * 2 ^ 149)
    (hu : signedUnits a * 2 ^ 149 ≤ hi * signedUnits b) : valueIn lo hi (div32 a b) := by
  have hsign : signOf b = false := by
    by_contra hneg
    rw [signedUnits, if_pos (Bool.eq_true_of_not_eq_false hneg)] at hpos
    omega
  have hunits : signedUnits b = unitsOf b := by rw [signedUnits, if_neg (by simp [hsign])]
  have h0 : magOf b ≠ 0 := fun h => by rw [hunits, unitsOf, h, unitsOfMag_zero] at hpos; omega
  rw [div32_finite ha hb h0]
  rw [hunits] at hl hu
  refine packF_roundMag_valueIn (unitsOf_pos hb h0) hlo hhi ?_ ?_ <;> rw [withSign_bne, hsign]
  · exact hl
  · exact hu

end

end Sys2Proof.Machine
end

section
/-! The range of the waveforms (R168): every step of the Saw, of the Triangle and of the two polynomials of blep stays
between representable values. Values are counted in units of 2^-149: 1.0 is 2^149 and 0.5 is 2^148. -/

namespace Sys2Proof.Machine

/-! ### Comparisons of finite values -/

theorem gt32_finite_iff {a b : F32} (ha : magOf a < infMag) (hb : magOf b < infMag) :
    gt32 a b = true ↔ signedUnits b < signedUnits a := by
  rw [gt32_eq_lt32, lt32_finite_iff hb ha]

theorem ge32_finite_iff {a b : F32} (ha : magOf a < infMag) (hb : magOf b < infMag) :
    ge32 a b = true ↔ signedUnits b ≤ signedUnits a := by
  rw [ge32_eq_not_lt32 (isNaN_of_finite ha) (isNaN_of_finite hb), Bool.not_eq_true', Bool.eq_false_iff, Ne,
    lt32_finite_iff ha hb, not_lt]

/-- Lying in [−1, 1] in terms of the value. -/
theorem inSignedUnit_of_valueIn {v : F32} (h : valueIn (-2 ^ 149) (2 ^ 149) v) : inSignedUnit v := by
  obtain ⟨hv, hlo, hhi⟩ := h
  have hminus : signedUnits minusOneF = -2 ^ 149 := by decide
  rw [inSignedUnit, ge32_finite_iff hv (by decide), ge32_finite_iff (by decide) hv, hminus, signedUnits_oneF]
  exact ⟨hlo, hhi⟩

theorem canonical_of_valueIn {v : F32} {lo hi : Int} (h : valueIn lo hi v) : canonical v = v :=
  canonical_of_not_isNaN (isNaN_of_finite h.1)

/-- A value of the cycle lies from 0 to below TWO_PI_F. -/
theorem inCycle_value {v : F32} (h : inCycle v = true) :
    magOf v < infMag ∧ 0 ≤ signedUnits v ∧ signedUnits v < signedUnits twoPiF := by
  obtain ⟨hmag, hsign⟩ := (inCycle_iff v).1 h
  have hfin : magOf v < infMag := Nat.lt_trans hmag twoPiF_finite
  have hlt := (unitsOf_lt_iff hfin twoPiF_finite).2 hmag
  rw [signedUnits_eq_of_nonneg hsign, signedUnits_eq_of_nonneg (.inl signOf_twoPiF)]
  omega

theorem signedUnits_twoPiF_pos : 0 < signedUnits twoPiF := by decide

/-- t and dt lie in [0, 1] for a phase and an increment of the cycle (R155). -/
theorem div32_twoPiF_valueIn {v : F32} (h : inCycle v = true) : valueIn 0 (2 ^ 149) (div32 v twoPiF) := by
  obtain ⟨hv, hlo, hhi⟩ := inCycle_value h
  exact div32_valueIn hv twoPiF_finite signedUnits_twoPiF_pos representable_zero (representable_two_pow (by decide))
    (by omega) (by omega)

/-- dt lies in [0, 1/2] for an increment below PI_F: TWO_PI_F is its double. -/
theorem div32_twoPiF_valueIn_half {v : F32} (h : inCycle v = true) (hpi : lt32 v piF = true) :
    valueIn 0 (2 ^ 148) (div32 v twoPiF) := by
  obtain ⟨hv, hlo, -⟩ := inCycle_value h
  have hdouble : signedUnits twoPiF = 2 * signedUnits piF := by decide
  rw [lt32_finite_iff hv (by decide)] at hpi
  exact div32_valueIn hv twoPiF_finite signedUnits_twoPiF_pos representable_zero (representable_two_pow (by decide))
    (by omega) (by omega)

/-! ### The naive waveforms -/

/-- The double of a number of an interval. -/
theorem mul32_twoF_valueIn {t : F32} {loT hiT lo hi : Int} (ht : valueIn loT hiT t) (hlo : representable lo)
    (hhi : representable hi) (hl : lo ≤ 2 * loT) (hu : 2 * hiT ≤ hi) : valueIn lo hi (mul32 twoF t) := by
  obtain ⟨hfin, htL, htU⟩ := ht
  have htwo : signedUnits twoF = 2 * 2 ^ 149 := by decide
  refine mul32_valueIn (by decide) hfin hlo hhi ?_ ?_ <;> rw [htwo] <;> omega

/-- The naive Saw lies in [−1, 1]. -/
theorem sawNaive_inSignedUnit {t : F32} (ht : valueIn 0 (2 ^ 149) t) : valueIn (-2 ^ 149) (2 ^ 149) (sawNaive t) :=
  sub32_interval
    (mul32_twoF_valueIn ht representable_zero (representable_two_pow (k := 150) (by decide)) (by decide) (by decide))
    valueIn_oneF representable_minusOne representable_one (by decide) (by decide)

/-- The first half of the ramp lies in [−1, 0]. -/
theorem sawNaive_first_half {t : F32} (ht : valueIn 0 (2 ^ 148) t) : valueIn (-2 ^ 149) 0 (sawNaive t) :=
  sub32_interval (mul32_twoF_valueIn ht representable_zero representable_one (by decide) (by decide)) valueIn_oneF
    representable_minusOne representable_zero (by decide) (by decide)

/-- The second half of the ramp lies in [0, 1]. -/
theorem sawNaive_second_half {t : F32} (ht : valueIn (2 ^ 148) (2 ^ 149) t) : valueIn 0 (2 ^ 149) (sawNaive t) :=
  sub32_interval
    (mul32_twoF_valueIn ht representable_one (representable_two_pow (k := 150) (by decide)) (by decide) (by decide))
    valueIn_oneF representable_zero representable_one (by decide) (by decide)

theorem squareNaive_inSignedUnit (phase : F32) : valueIn (-2 ^ 149) (2 ^ 149) (squareNaive phase) := by
  have hone : valueIn (-2 ^ 149) (2 ^ 149) oneF := by unfold valueIn; decide
  have hminus : valueIn (-2 ^ 149) (2 ^ 149) minusOneF := by unfold valueIn; decide
  unfold squareNaive
  split
  · exact hone
  · exact hminus

theorem abs32_valueIn {v : F32} {hi : Int} (h : valueIn (-hi) hi v) : valueIn 0 hi (abs32 v) := by
  obtain ⟨hfin, hl, hu⟩ := h
  have habs : signedUnits (abs32 v) = (signedUnits v).natAbs := by
    rw [natAbs_signedUnits, signedUnits, signOf_abs32, if_neg Bool.false_ne_true, unitsOf, magOf_abs32]; rfl
  rw [valueIn, habs, magOf_abs32]
  exact ⟨hfin, by omega, by omega⟩

/-- The naive Triangle lies in [−1, 1]: the folded ramp lies in [0, 1], less 0.5 in [−0.5, 0.5]. -/
theorem triangleNaive_inSignedUnit {t : F32} (ht : valueIn 0 (2 ^ 149) t) :
    valueIn (-2 ^ 149) (2 ^ 149) (triangleNaive t) := by
  have hhalf : representable (2 ^ 148) := representable_two_pow (by decide)
  have hhalfF : valueIn (2 ^ 148) (2 ^ 148) halfF := by unfold valueIn; decide
  have hfolded : valueIn (-2 ^ 148) (2 ^ 148) (sub32 (abs32 (sawNaive t)) halfF) :=
    sub32_interval (abs32_valueIn (sawNaive_inSignedUnit ht)) hhalfF (representable_neg hhalf) hhalf (by decide)
      (by decide)
  exact mul32_twoF_valueIn hfolded representable_minusOne representable_one (by decide) (by decide)

/-- R168 for the naive waveforms. -/
theorem naiveSample_inSignedUnit {x : Voice} (hw : x.wave ≠ .sine) (h : inDomain x = true) :
    valueIn (-2 ^ 149) (2 ^ 149) (naiveSample x) := by
  rw [inDomain, Bool.and_eq_true] at h
  have ht := div32_twoPiF_valueIn h.2
  unfold naiveSample
  cases hx : x.wave with
  | sine => exact absurd hx hw
  | saw => exact sawNaive_inSignedUnit ht
  | square => exact squareNaive_inSignedUnit x.phase
  | triangle => exact triangleNaive_inSignedUnit ht

/-! ### The polynomials of blep -/

/-- A square is at least its tangent at o. -/
theorem two_mul_sub_mul_le (u o : Int) : (2 * u - o) * o ≤ u * u := by
  linarith [sq_nonneg (o - u)]

/-- 2|v| − 1 is representable for |v| in [1/2, 1]. -/
theorem representable_two_mul_sub_one {v : F32} (hv : magOf v < infMag) (hlo : 2 ^ 148 ≤ unitsOf v)
    (hhi : unitsOf v ≤ 2 ^ 149) : representable (2 * (unitsOf v : Int) - 2 ^ 149) := by
  have hdvd : (2 ^ 125 : Int) ∣ unitsOf v := by
    rw [← natAbs_signedUnits, Int.dvd_natAbs]; exact dvd_signedUnits hv hlo
  exact representable_of_dvd 125 (Int.dvd_sub (hdvd.mul_left 2) (pow_dvd_pow 2 (by decide))) (by omega) (by decide)

/-- The rounded square of a number of [−1, 1] lies between 2|v| − 1 and |v|: the exact one does, as (1 − |v|)² ≥ 0, and
2|v| − 1 is representable where it is positive. -/
theorem mul32_self_bounds {v : F32} (hv : magOf v < infMag) (h : unitsOf v ≤ 2 ^ 149) :
    magOf (mul32 v v) < infMag ∧ 0 ≤ signedUnits (mul32 v v) ∧ signedUnits (mul32 v v) ≤ unitsOf v ∧
    2 * (unitsOf v : Int) - 2 ^ 149 ≤ signedUnits (mul32 v v) := by
  have hsquare : signedUnits v * signedUnits v = (unitsOf v : Int) * unitsOf v := by
    rw [← natAbs_signedUnits, Int.natAbs_mul_self' (signedUnits v)]
  have hunits : representable (unitsOf v) := ⟨magOf v, hv, rfl⟩
  have hnonneg : (0 : Int) ≤ unitsOf v := Int.natCast_nonneg _
  have hle : signedUnits v * signedUnits v ≤ unitsOf v * 2 ^ 149 :=
    hsquare ▸ Int.mul_le_mul_of_nonneg_left (by exact_mod_cast h) hnonneg
  obtain ⟨hfin, hl, hu⟩ := mul32_valueIn hv hv representable_zero hunits
    (by rw [hsquare, Int.zero_mul]; exact Int.mul_nonneg hnonneg hnonneg) hle
  refine ⟨hfin, hl, hu, ?_⟩
  rcases Nat.lt_or_ge (unitsOf v) (2 ^ 148) with hsmall | hlarge
  · omega
  · exact (mul32_valueIn hv hv (representable_two_mul_sub_one hv hlarge h) hunits
      (hsquare ▸ two_mul_sub_mul_le _ _) hle).2.1

/-- x + x − x² − 1 lies in [−1, 0] for x in [0, 1] (R160): x + x is exact, and its difference to x² is at most 1. -/
theorem blepAfter_valueIn {x : F32} (hx : valueIn 0 (2 ^ 149) x) : valueIn (-2 ^ 149) 0 (blepAfter x) := by
  obtain ⟨hfin, hl, hu⟩ := hx
  have habs := natAbs_signedUnits x
  obtain ⟨hsqFin, -, hsqLe, hsqGe⟩ := mul32_self_bounds hfin (by omega)
  have hdouble : representable (2 * signedUnits x) := representable_double hfin (by omega)
  obtain ⟨hsumFin, hsumL, hsumU⟩ := add32_interval (valueIn_self hfin) (valueIn_self hfin) hdouble hdouble
    (Int.two_mul _).le (Int.two_mul _).ge
  have hdiff : valueIn 0 (2 ^ 149) (sub32 (add32 x x) (mul32 x x)) :=
    sub32_valueIn hsumFin hsqFin representable_zero representable_one (by omega) (by omega)
  exact sub32_interval hdiff valueIn_oneF representable_minusOne representable_zero (by decide) (by decide)

/-- x² + x rounded lies between −1 − x and 0: x² + x is at least −1 − x, which is representable up to −1/2, and at least
x, which is above −1 − x from there on. -/
theorem add32_mul32_self_bounds {x : F32} (hx : valueIn (-2 ^ 149) 0 x) :
    valueIn (-2 ^ 149 - signedUnits x) 0 (add32 (mul32 x x) x) := by
  obtain ⟨hfin, hl, hu⟩ := hx
  have habs := natAbs_signedUnits x
  obtain ⟨hsqFin, hsq0, hsqLe, hsqGe⟩ := mul32_self_bounds hfin (by omega)
  by_cases hhalf : unitsOf x < 2 ^ 148
  · exact (add32_valueIn hsqFin hfin (representable_signedUnits hfin) representable_zero (by omega) (by omega)).mono
      (by omega) (Int.le_refl 0)
  · have hlo : representable (-2 ^ 149 - signedUnits x) :=
      representable_of_dvd 125
        (Int.dvd_sub ((pow_dvd_pow 2 (by decide)).neg_right) (dvd_signedUnits hfin (by omega))) (by omega) (by decide)
    exact add32_valueIn hsqFin hfin hlo representable_zero (by omega) (by omega)

/-- x² + x + x + 1 lies in [0, 1] for x in [−1, 0] (R160). -/
theorem blepBefore_valueIn {x : F32} (hx : valueIn (-2 ^ 149) 0 x) : valueIn 0 (2 ^ 149) (blepBefore x) := by
  have hfirst := add32_mul32_self_bounds hx
  obtain ⟨hfin, -, hu⟩ := hx
  have hsecond : valueIn (-2 ^ 149) 0 (add32 (add32 (mul32 x x) x) x) :=
    add32_interval hfirst (valueIn_self hfin) representable_minusOne representable_zero (Int.sub_add_cancel _ _).ge
      (by rwa [Int.zero_add])
  exact add32_interval hsecond valueIn_oneF representable_zero representable_one (by decide) (by decide)

/-! ### The polyBLEP Saw -/

/-- Past 1 − dt, the distance to the end of the cycle is less than dt: rounding 1 − dt does not pass t. -/
theorem lt_of_gt32_one_sub {t dt : F32} (ht : magOf t < infMag) (hdt : valueIn 0 (2 ^ 148) dt)
    (h : gt32 t (sub32 oneF dt) = true) :
    2 ^ 148 < signedUnits t ∧ 2 ^ 149 - signedUnits dt < signedUnits t := by
  obtain ⟨hfin, hl, hu⟩ := hdt
  have honeF := signedUnits_oneF
  obtain ⟨hsubFin, hsubL, -⟩ := sub32_valueIn (a := oneF) (by decide) hfin
    (representable_two_pow (k := 148) (by decide)) representable_one (by omega) (by omega)
  rw [gt32_finite_iff ht hsubFin] at h
  refine ⟨by omega, ?_⟩
  by_contra hle
  have hge := (sub32_valueIn (a := oneF) (b := dt) (by decide) hfin (representable_signedUnits ht)
    (representable_signedUnits (v := oneF) (by decide)) (by omega) (by omega)).2.1
  omega

/-- Near the start of the cycle the correction of the Saw lies in [−1, 0]. -/
theorem blepAfter_div32_valueIn {t dt : F32} (ht : valueIn 0 (2 ^ 149) t) (hdt : magOf dt < infMag)
    (hlt : signedUnits t < signedUnits dt) : valueIn (-2 ^ 149) 0 (blepAfter (div32 t dt)) := by
  obtain ⟨htFin, htL, -⟩ := ht
  exact blepAfter_valueIn
    (div32_valueIn htFin hdt (by omega) representable_zero representable_one (by omega) (by omega))

/-- Near the end of the cycle it lies in [0, 1]. -/
theorem blepBefore_div32_valueIn {t dt : F32} (ht : valueIn 0 (2 ^ 149) t) (hdt : magOf dt < infMag)
    (hlt : 2 ^ 149 - signedUnits dt < signedUnits t) :
    valueIn 0 (2 ^ 149) (blepBefore (div32 (sub32 t oneF) dt)) := by
  obtain ⟨htFin, -, htU⟩ := ht
  have honeF := signedUnits_oneF
  obtain ⟨hdistFin, hdistL, hdistU⟩ := sub32_valueIn (b := oneF) htFin (by decide)
    (representable_neg (representable_signedUnits hdt)) representable_zero (by omega) (by omega)
  exact blepBefore_valueIn
    (div32_valueIn hdistFin hdt (by omega) representable_minusOne representable_zero (by omega) (by omega))

/-- The polyBLEP Saw lies in [−1, 1] for dt in [0, 1/2] (R168): near the start of the cycle the ramp is not positive and
its correction is in [−1, 0], near the end the ramp is not negative and its correction is in [0, 1]. -/
theorem sawBlep_inSignedUnit {t dt : F32} (ht : valueIn 0 (2 ^ 149) t) (hdt : valueIn 0 (2 ^ 148) dt) :
    valueIn (-2 ^ 149) (2 ^ 149) (sawBlep t dt) := by
  have huncorrected : valueIn (-2 ^ 149) (2 ^ 149) (sub32 (sawNaive t) zeroF) :=
    sub32_interval (sawNaive_inSignedUnit ht) (valueIn_self (v := zeroF) (by decide)) representable_minusOne
      representable_one (by decide) (by decide)
  have ⟨htFin, htL, htU⟩ := ht
  have ⟨hdtFin, _, hdtU⟩ := hdt
  unfold sawBlep blep
  split_ifs with hzero hstart hend
  · exact huncorrected
  · rw [lt32_finite_iff htFin hdtFin] at hstart
    exact sub32_interval (sawNaive_first_half ⟨htFin, htL, hstart.le.trans hdtU⟩)
      (blepAfter_div32_valueIn ht hdtFin hstart) representable_minusOne representable_one (by decide) (by decide)
  · obtain ⟨hsecond, hnear⟩ := lt_of_gt32_one_sub htFin hdt hend
    exact sub32_interval (sawNaive_second_half ⟨htFin, hsecond.le, htU⟩) (blepBefore_div32_valueIn ht hdtFin hnear)
      representable_minusOne representable_one (by decide) (by decide)
  · exact huncorrected

end Sys2Proof.Machine
end

section
/-! Zeros and ones as operands, and values that a rounding leaves (R20 to R22). -/

namespace Sys2Proof.Machine

theorem magOf_eq_zero_iff (z : F32) : magOf z = 0 ↔ z = 0x00000000#32 ∨ z = 0x80000000#32 := by
  refine ⟨fun h => ?_, by rintro (rfl | rfl) <;> decide⟩
  cases hs : signOf z with
  | false => exact .inl (f32_ext hs h)
  | true => exact .inr (f32_ext hs h)

/-- A value that is below a bound is not at least the bound. -/
theorem ge32_eq_false_of_lt32 {a b : F32} (h : lt32 a b = true) : ge32 a b = false := by
  simp only [lt32, ge32, Bool.and_eq_true, decide_eq_true_eq, Bool.and_eq_false_iff, decide_eq_false_iff_not] at *
  omega

theorem packF_false_unit {v : F32} (hs : signOf v = false) (hv : magOf v < infMag) :
    packF false (roundMag (unitsOf v) 1) = v := by
  have hround : roundMag (unitsOf v) 1 = magOf v := by simpa [unitsOf] using roundMag_units hv Nat.one_pos
  rw [hround, ← hs, packF_signOf_magOf]

/-- The sum of a zero and a number other than zero is that number; of two zeros, −0.0 exactly if both are. -/
theorem add32_zero_left {z v : F32} (hz : magOf z = 0) (hv : isNaN v = false) :
    add32 z v = if magOf v = 0 then packF (signOf z && signOf v) 0 else v := by
  have hzFin : magOf z < infMag := by rw [hz]; decide
  have hzUnits : signedUnits z = 0 := by rw [signedUnits_eq_of_nonneg (.inr hz), unitsOf, hz, unitsOfMag_zero]; rfl
  rcases Nat.lt_or_eq_of_le ((isNaN_eq_false_iff v).1 hv) with hfin | hinf
  · have hround : roundMag (signedUnits v).natAbs 1 = magOf v := by
      simpa [natAbs_signedUnits, unitsOf] using roundMag_units hfin Nat.one_pos
    have hzero := unitsOf_eq_zero_iff hfin
    have habs := natAbs_signedUnits v
    rw [add32_finite hzFin hfin, hzUnits, Int.zero_add, packSum, hround]
    by_cases h0 : magOf v = 0
    · rw [if_pos (by omega), if_pos h0]
    · have hsign : decide (signedUnits v < 0) = signOf v := by
        cases hs : signOf v with
        | false => exact decide_eq_false (by rw [signedUnits, if_neg (by simp [hs])]; omega)
        | true => exact decide_eq_true (by rw [signedUnits, if_pos hs]; omega)
      rw [if_neg (by omega), if_neg h0, hsign, packF_signOf_magOf]
  · rw [add32_inf_right ((isInf_iff v).2 hinf) hzFin, if_neg (by rw [hinf]; decide)]

/-- The product with 1.0 is the other factor, a NaN made canonical. -/
theorem mul32_oneF (v : F32) : mul32 oneF v = canonical v := by
  cases hn : isNaN v with
  | true => rw [mul32_of_isNaN (.inr hn), canonical, if_pos hn]
  | false =>
    rw [canonical_of_not_isNaN hn]
    have hsign : (signOf oneF != signOf v) = signOf v := by
      rw [show signOf oneF = false by decide, Bool.false_bne]
    rcases Nat.lt_or_eq_of_le ((isNaN_eq_false_iff v).1 hn) with hfin | hinf
    · have hround : roundMag (unitsOf oneF * unitsOf v) (2 ^ 149) = magOf v := by
        rw [show unitsOf oneF = 2 ^ 149 by decide, Nat.mul_comm]
        exact roundMag_units hfin (Nat.two_pow_pos 149)
      rw [mul32_finite (by decide) hfin, hsign, hround, packF_signOf_magOf]
    · rw [mul32_inf (.inr ((isInf_iff v).2 hinf)) (by decide) hn (by decide) (by rw [hinf]; decide), hsign, ← hinf,
        packF_signOf_magOf]

/-- Adding a zero to the canonical form a second time changes nothing. -/
theorem add32_zero_canonical_idem {z : F32} (hz : magOf z = 0) (v : F32) :
    add32 z (canonical (add32 z (canonical v))) = add32 z (canonical v) := by
  cases hn : isNaN v with
  | true =>
    have hsum : add32 z (canonical v) = canonicalNaN := add32_of_isNaN (.inr (by rw [canonical, if_pos hn]; rfl))
    rw [hsum]
    exact add32_of_isNaN (.inr rfl)
  | false =>
    rw [canonical_of_not_isNaN hn, add32_zero_left hz hn]
    split
    case isTrue =>
      have hzero (neg : Bool) : isNaN (packF neg 0) = false := isNaN_packF (Nat.zero_le _)
      rw [canonical_of_not_isNaN (hzero _), add32_zero_left hz (hzero _), magOf_packF _ (by decide), if_pos rfl,
        signOf_packF _ (by decide), ← Bool.and_assoc, Bool.and_self]
    case isFalse h0 => rw [canonical_of_not_isNaN hn, add32_zero_left hz hn, if_neg h0]

end Sys2Proof.Machine
end

section
/-! What the OSC commands answer (R170 to R177). -/

namespace Sys2Proof.Machine

/-! ### The SET commands -/

/-- OSC_SET_WAVE on its port, of a voice that there is. -/
theorem exec_oscSetWave {s : State} {v : BitVec 8} {x : Voice} (w : Wave) (hp : s.port = .cmd)
    (hx : s.voices[v.toNat]? = some x) :
    exec (.oscSetWave v w) s = .next (reply 0#32 (setVoice s v { x with wave := w })) :=
  (onPort_of_eq _ hp).trans (withVoice_some _ hx)

/-- OSC_SET_EN on its port, of a voice that there is. -/
theorem exec_oscSetEn {s : State} {v : BitVec 8} {x : Voice} (e : Bool) (hp : s.port = .cmd)
    (hx : s.voices[v.toNat]? = some x) :
    exec (.oscSetEn v e) s = .next (reply 0#32 (setVoice s v { x with en := e })) :=
  (onPort_of_eq _ hp).trans (withVoice_some _ hx)

/-- A second write of a voice on the same port replaces the first, and the response with it. -/
theorem reply_setVoice_reply_setVoice (s : State) (v : BitVec 8) (x y : Voice) (w : Word) :
    reply w (setVoice (reply w (setVoice s v x)) v y) = reply w (setVoice s v y) := by
  simp [reply, setVoice]

/-- OSC_SET_FREQ after another write of the voice, which answered 0. -/
theorem exec_oscSetFreq_reply_setVoice {s : State} {v : BitVec 8} (f : F32) (x : Voice) (hp : s.port = .cmd)
    (hv : v.toNat < s.voices.length) :
    exec (.oscSetFreq v f) (reply 0#32 (setVoice s v x)) = .next (reply 0#32 (setVoice s v (setFreq f x))) := by
  rw [exec_oscSetFreq (s := reply 0#32 (setVoice s v x)) f hp (voices_reply_setVoice_self _ x hv),
    reply_setVoice_reply_setVoice]

/-- OSC_SET_SR after another write of the voice, which answered 0. -/
theorem exec_oscSetSr_reply_setVoice {s : State} {v : BitVec 8} (sr : F32) (x : Voice) (hp : s.port = .cmd)
    (hv : v.toNat < s.voices.length) :
    exec (.oscSetSr v sr) (reply 0#32 (setVoice s v x)) = .next (reply 0#32 (setVoice s v (setSr sr x))) := by
  rw [exec_oscSetSr (s := reply 0#32 (setVoice s v x)) sr hp (voices_reply_setVoice_self _ x hv),
    reply_setVoice_reply_setVoice]

/-! ### The tick commands -/

theorem inOperatingDomain_iff (x : Voice) : inOperatingDomain x ↔ inDomain x = true := by
  simp only [inOperatingDomain, inDomain, inCycle, Bool.and_eq_true]

theorem exec_oscTickBlep {s : State} (v : BitVec 8) (hp : s.port = .cmd) :
    exec (.oscTickBlep v) s = tickCommand tickBlep v s := onPort_of_eq _ hp

theorem exec_oscTickNaive {s : State} (v : BitVec 8) (hp : s.port = .cmd) :
    exec (.oscTickNaive v) s = tickCommand tickNaive v s := onPort_of_eq _ hp

section
variable {tick : Voice → Option Ticked} {v : BitVec 8} {s : State} {x : Voice}

/-- While halted a test tick does nothing (R174). -/
theorem tickCommand_of_halted (hx : s.voices[v.toNat]? = some x) (hh : s.halted = true) :
    tickCommand tick v s = .next (reply 0#32 s) :=
  (withVoice_some _ hx).trans (if_pos hh)

/-- A test tick answers the sample and writes the voice. -/
theorem tickCommand_of_some {t : Ticked} (hx : s.voices[v.toNat]? = some x) (hh : s.halted = false)
    (ht : tick x = some t) : tickCommand tick v s = .next (reply t.sample (setVoice s v t.voice)) := by
  rw [tickCommand, withVoice_some _ hx, if_neg (by simp [hh]), ht]

/-- A test tick faults exactly where it runs and the voice has no tick (R177). -/
theorem tickCommand_fault_iff :
    tickCommand tick v s = .fault .outOfDomain ↔
      s.halted = false ∧ ∃ x, s.voices[v.toNat]? = some x ∧ tick x = none := by
  cases hx : s.voices[v.toNat]? with
  | none => simp [tickCommand, withVoice_none _ hx]
  | some x =>
    cases hh : s.halted with
    | true => simp [tickCommand_of_halted hx hh]
    | false =>
      cases ht : tick x with
      | none => simp [tickCommand, withVoice_some _ hx, hh, ht]
      | some t => simp [tickCommand_of_some hx hh ht, ht]

/-- A command with one port faults exactly where it runs on that port. -/
theorem onPort_fault_iff {p : Port} {k : Answer} {r : Fault} : onPort p s k = .fault r ↔ s.port = p ∧ k = .fault r := by
  by_cases hp : s.port = p
  · simp [onPort_of_eq k hp, hp]
  · simp [onPort_of_ne k hp, hp]

end

theorem eq_none_iff_of_isSome_eq_inDomain {o : Option Ticked} {x : Voice} (h : o.isSome = inDomain x) :
    o = none ↔ ¬inOperatingDomain x := by
  rw [inOperatingDomain_iff, ← h]; cases o <;> simp

theorem tickBlep_eq_none_iff (x : Voice) : tickBlep x = none ↔ ¬inOperatingDomain x :=
  eq_none_iff_of_isSome_eq_inDomain (tickBlep_isSome_iff x)

theorem tickNaive_eq_none_iff (x : Voice) : tickNaive x = none ↔ ¬inOperatingDomain x :=
  eq_none_iff_of_isSome_eq_inDomain (tickNaive_isSome_iff x)

/-- Only a Triangle voice has LAST written (R38, R166). -/
theorem lastAfterBlep_eq (x : Voice) : lastAfterBlep x = if x.wave = .triangle then blepSample x else x.last := by
  unfold lastAfterBlep
  cases hw : x.wave <;> rfl

/-- A polyBLEP tick in domain, field by field. -/
theorem tickBlep_of_inOperatingDomain {x : Voice} (h : inOperatingDomain x) :
    tickBlep x = some
      { sample := canonical (blepSample x)
        voice :=
          { x with
            phase := nextPhase x.phase x.pinc
            last := if x.wave = .triangle then blepSample x else x.last } } := by
  rw [tickBlep_of_inDomain ((inOperatingDomain_iff x).1 h), lastAfterBlep_eq]; rfl

/-- A naive tick in domain, field by field. -/
theorem tickNaive_of_inOperatingDomain {x : Voice} (h : inOperatingDomain x) :
    tickNaive x = some
      { sample := canonical (naiveSample x), voice := { x with phase := nextPhase x.phase x.pinc } } :=
  tickNaive_of_inDomain ((inOperatingDomain_iff x).1 h)

end Sys2Proof.Machine
end

section
/-! The phase advance beyond two iterations (R153, R154), and ticks without an increment (R167). -/

namespace Sys2Proof.Machine

/-! ### The loop of the phase advance -/

/-- Below TWO_PI_F the loop does nothing. -/
theorem wrapPhase_of_not_ge {p : F32} (h : ge32 p twoPiF = false) (n : Nat) : wrapPhase n p = p := by
  cases n with
  | zero => rfl
  | succ n => rw [wrapPhase, h]; rfl

/-- More iterations go on from where the first ones ended. -/
theorem wrapPhase_add (m n : Nat) (p : F32) : wrapPhase (m + n) p = wrapPhase n (wrapPhase m p) := by
  induction m generalizing p with
  | zero => rw [Nat.zero_add]; rfl
  | succ m ih =>
    cases hge : ge32 p twoPiF with
    | false => rw [wrapPhase_of_not_ge hge, wrapPhase_of_not_ge hge, wrapPhase_of_not_ge hge]
    | true => rw [Nat.succ_add, wrapPhase, wrapPhase, hge, if_pos rfl, if_pos rfl, ih]

theorem phaseOk_of_inOperatingDomain {x : Voice} (h : inOperatingDomain x) (hneg : x.phase ≠ 0x80000000#32) :
    phaseOk x := by
  obtain ⟨-, hlo, hup⟩ := h
  exact ⟨hlo, hup, hneg⟩

/-! ### A zero increment -/

/-- Without an increment blep makes no correction: its guard answers (R160). -/
theorem blep_of_zero {dt : F32} (h : magOf dt = 0) (t : F32) : blep t dt = zeroF := by
  have hguard : gt32 dt zeroF = false := by rcases (magOf_eq_zero_iff dt).1 h with rfl | rfl <;> decide
  rw [blep, hguard]; rfl

theorem magOf_normPinc_of_zero {x : Voice} (h : magOf x.pinc = 0) : magOf (normPinc x) = 0 := by
  rw [normPinc]
  rcases (magOf_eq_zero_iff x.pinc).1 h with hp | hp <;> (rw [hp]; decide)

/-- Without an increment the polyBLEP Square is the naive one (R165). -/
theorem squareBlep_of_zero {dt : F32} (h : magOf dt = 0) (phase t : F32) :
    squareBlep phase t dt = squareNaive phase := by
  rw [squareBlep, blep_of_zero h, blep_of_zero h, squareNaive]
  split <;> decide

/-- Without an increment the integrator of the Triangle adds a zero to LAST, so it answers its own answer again (R166,
R167). -/
theorem integrate_idem {pinc : F32} (h : magOf pinc = 0) (phase last : F32) :
    integrate pinc (squareNaive phase) (integrate pinc (squareNaive phase) last) =
      integrate pinc (squareNaive phase) last := by
  have hone : sub32 oneF pinc = oneF := by rcases (magOf_eq_zero_iff pinc).1 h with rfl | rfl <;> decide
  have hsquare : squareNaive phase = oneF ∨ squareNaive phase = minusOneF := ite_eq_or_eq _ _ _
  have hzero : magOf (mul32 pinc (squareNaive phase)) = 0 := by
    rcases (magOf_eq_zero_iff pinc).1 h with rfl | rfl <;> rcases hsquare with hsq | hsq <;> rw [hsq] <;> decide
  simp only [integrate, hone, mul32_oneF]
  exact add32_zero_canonical_idem hzero last

/-- Without an increment PHASE stands still (R153, R167). -/
theorem advance_of_zero {x : Voice} (h : phaseOk x) (hz : magOf x.pinc = 0) : advance x = x := by
  obtain ⟨hsign, hmag⟩ := (phaseOk_iff x).1 h
  have hfin : magOf x.phase < infMag := Nat.lt_trans hmag twoPiF_finite
  have hpinc : signedUnits x.pinc = 0 := by
    rw [signedUnits_eq_of_nonneg (.inr hz), unitsOf, hz, unitsOfMag_zero]; rfl
  have hsum : add32 x.phase x.pinc = x.phase := by
    rw [add32_finite hfin (by rw [hz]; decide), hpinc, Int.add_zero, hsign, Bool.false_and,
      signedUnits_eq_of_nonneg (.inl hsign), packSum_ofNat, packF_false_unit hsign hfin]
  have hnext : nextPhase x.phase x.pinc = x.phase := by
    rw [nextPhase, hsum, wrapPhase_of_not_ge (ge32_eq_false_of_lt32 h.2.1)]
  rw [advance, hnext]

/-- The voice with LAST as a polyBLEP tick leaves it. -/
def settled (x : Voice) : Voice := { x with last := lastAfterBlep x }

theorem inDomain_of_zero {x : Voice} (h : phaseOk x) (hz : magOf x.pinc = 0) : inDomain x = true := by
  rw [inDomain, Bool.and_eq_true, inCycle_iff]
  exact ⟨⟨by rw [hz]; decide, .inr hz⟩, by rw [inCycle, h.1, h.2.1]; rfl⟩

/-- A polyBLEP tick without an increment writes at most LAST. -/
theorem tickBlep_of_zero {x : Voice} (h : phaseOk x) (hz : magOf x.pinc = 0) :
    tickBlep x = some { sample := canonical (blepSample x), voice := settled x } := by
  have hstill : advance { x with last := lastAfterBlep x } = settled x := advance_of_zero (x := settled x) h hz
  rw [tickBlep_of_inDomain (inDomain_of_zero h hz), hstill]

/-- A naive tick without an increment writes nothing. -/
theorem tickNaive_of_zero {x : Voice} (h : phaseOk x) (hz : magOf x.pinc = 0) :
    tickNaive x = some { sample := canonical (naiveSample x), voice := x } := by
  rw [tickNaive_of_inDomain (inDomain_of_zero h hz), advance_of_zero h hz]

theorem settled_of_ne_triangle {x : Voice} (hw : x.wave ≠ .triangle) : settled x = x := by
  rw [settled, lastAfterBlep_eq, if_neg hw]

/-- Without an increment the sample is the same with the LAST that a tick leaves. -/
theorem blepSample_settled {x : Voice} (hz : magOf x.pinc = 0) : blepSample (settled x) = blepSample x := by
  by_cases hw : x.wave = .triangle
  · have hsample (y : Voice) (hy : y.wave = .triangle) (hyz : magOf y.pinc = 0) :
        blepSample y = integrate y.pinc (squareNaive y.phase) y.last := by
      rw [blepSample, hy, ← squareBlep_of_zero (magOf_normPinc_of_zero hyz) y.phase (normPhase y)]
    have hlast : (settled x).last = blepSample x := by rw [settled, lastAfterBlep_eq, if_pos hw]
    rw [hsample (settled x) hw hz, hlast, hsample x hw hz]
    exact integrate_idem hz x.phase x.last
  · rw [settled_of_ne_triangle hw]

theorem settled_settled {x : Voice} (hz : magOf x.pinc = 0) : settled (settled x) = settled x := by
  by_cases hw : x.wave = .triangle
  · have hlast : lastAfterBlep (settled x) = lastAfterBlep x := by
      rw [lastAfterBlep_eq, lastAfterBlep_eq, if_pos hw, if_pos (show (settled x).wave = _ from hw),
        blepSample_settled hz]
    rw [settled, hlast]; rfl
  · rw [settled_of_ne_triangle hw, settled_of_ne_triangle hw]

/-- Without an increment the first tick settles the voice, and no later one changes it. -/
theorem afterTicks_succ_of_zero (k : Nat) {x : Voice} (h : phaseOk x) (hz : magOf x.pinc = 0) :
    afterTicks (k + 1) x = settled x := by
  induction k with
  | zero => exact blepTicked_of_tickBlep (tickBlep_of_zero h hz)
  | succ k ih =>
    rw [afterTicks, ih, blepTicked_of_tickBlep (tickBlep_of_zero (x := settled x) h hz)]
    exact settled_settled hz

theorem afterTicks_of_zero (k : Nat) {x : Voice} (h : phaseOk x) (hz : magOf x.pinc = 0) :
    afterTicks k x = x ∨ afterTicks k x = settled x := by
  cases k with
  | zero => exact .inl rfl
  | succ k => exact .inr (afterTicks_succ_of_zero k h hz)

end Sys2Proof.Machine
end

section
/-! The obligations of spec/40_oscillator.md. -/

namespace Sys2Proof.Machine

/-- Settles O26: each order writes the voice twice, and the second write replaces the first. -/
theorem frequencyAndRateOrderIsIrrelevant : Obligations.FrequencyAndRateOrderIsIrrelevant := by
  unfold Obligations.FrequencyAndRateOrderIsIrrelevant
  intro s v f sr hp hv
  have hx : s.voices[v.toNat]? = some s.voices[v.toNat] := List.getElem?_eq_getElem hv
  exact ⟨_, _, _, _, exec_oscSetFreq f hp hx, exec_oscSetSr_reply_setVoice sr _ hp hv, exec_oscSetSr sr hp hx,
    exec_oscSetFreq_reply_setVoice f _ hp hv, voices_reply_setVoice_self _ (setSr sr (setFreq f _)) hv, rfl, rfl, rfl⟩

/-- Settles O29: a tick command faults where it runs and the voice has no tick. -/
theorem tickFaultsExactlyOutOfDomain : Obligations.TickFaultsExactlyOutOfDomain := by
  unfold Obligations.TickFaultsExactlyOutOfDomain
  refine fun s v => ⟨onPort_fault_iff.trans ?_, onPort_fault_iff.trans ?_⟩
  · simp only [tickCommand_fault_iff, tickBlep_eq_none_iff]
  · simp only [tickCommand_fault_iff, tickNaive_eq_none_iff]

/-- Settles O30: two iterations end below TWO_PI_F, where the loop does nothing more. -/
theorem phaseAdvanceStaysInTheCycle : Obligations.PhaseAdvanceStaysInTheCycle := by
  unfold Obligations.PhaseAdvanceStaysInTheCycle
  intro x hdomain hneg
  have hphase := phaseOk_of_inOperatingDomain hdomain hneg
  obtain ⟨hlo, hup, hnext⟩ := phaseOk_advance hphase ((inOperatingDomain_iff x).1 hdomain)
  refine ⟨fun n => ?_, hlo, hup, hnext⟩
  rw [wrapPhase_add]
  exact wrapPhase_of_not_ge (ge32_eq_false_of_lt32 hup) n

/-- Settles O32: the first tick writes at most LAST, the sample stays as it is, and so the second tick changes nothing. -/
theorem zeroIncrementRepeatsTheSample : Obligations.ZeroIncrementRepeatsTheSample := by
  unfold Obligations.ZeroIncrementRepeatsTheSample
  intro x k h hz
  have hfirst : sampleAt 0 x = canonical (blepSample x) := by rw [sampleAt, afterTicks, tickBlep_of_zero h hz]
  rw [hfirst, afterTicks_succ_of_zero k h hz]
  rcases afterTicks_of_zero k h hz with hk | hk <;> rw [hk]
  · exact ⟨⟨_, tickBlep_of_zero h hz, rfl, rfl, rfl, rfl, rfl⟩, _, tickNaive_of_zero h hz, rfl, rfl⟩
  · exact ⟨⟨_, tickBlep_of_zero (x := settled x) h hz, congrArg canonical (blepSample_settled hz), settled_settled hz,
      rfl, rfl, rfl⟩, _, tickNaive_of_zero (x := settled x) h hz, rfl, rfl⟩

/-- Settles O33: from the ranges of the ramp and of the two polynomials. -/
theorem naiveAndSawSamplesStayInTheUnitRange : Obligations.NaiveAndSawSamplesStayInTheUnitRange := by
  unfold Obligations.NaiveAndSawSamplesStayInTheUnitRange
  refine ⟨fun x t hw ht => ?_, fun x t hw _ hpi ht => ?_⟩
  · have hdomain := inDomain_of_tickNaive ht
    have hrange := naiveSample_inSignedUnit hw hdomain
    obtain rfl := Option.some.inj ((tickNaive_of_inDomain hdomain).symm.trans ht)
    exact inSignedUnit_of_valueIn ((canonical_of_valueIn hrange).symm ▸ hrange)
  · have hdomain := inDomain_of_tickBlep ht
    obtain ⟨hpinc, hphase⟩ := (Bool.and_eq_true _ _).mp hdomain
    have hrange := sawBlep_inSignedUnit (div32_twoPiF_valueIn hphase) (div32_twoPiF_valueIn_half hpinc hpi)
    have hsample : blepSample x = sawBlep (div32 x.phase twoPiF) (div32 x.pinc twoPiF) := by rw [blepSample, hw]; rfl
    obtain rfl := Option.some.inj ((tickBlep_of_inDomain hdomain).symm.trans ht)
    rw [← hsample, ← canonical_of_valueIn hrange] at hrange
    exact inSignedUnit_of_valueIn hrange

/-- Settles O25: by the answer of each SET command. -/
theorem voiceWritesComplete : Obligations.VoiceWritesComplete := by
  unfold Obligations.VoiceWritesComplete
  exact fun s v x f w e hp hx =>
    ⟨exec_oscSetFreq f hp hx, exec_oscSetSr f hp hx, exec_oscSetWave w hp hx, exec_oscSetEn e hp hx⟩

/-- Settles O27: a tick command answers what its tick gives; the formulas are those of the model's functions. -/
theorem ticksComplete : Obligations.TicksComplete := by
  unfold Obligations.TicksComplete
  refine ⟨fun s v x hp hx hh hd => ⟨?_, ?_⟩,
    fun x hd => ⟨tickBlep_of_inOperatingDomain hd, tickNaive_of_inOperatingDomain hd⟩, ⟨rfl, rfl⟩, fun y => rfl, ?_, ?_,
    ?_⟩
  · rw [exec_oscTickBlep v hp, tickCommand_of_some hx hh (tickBlep_of_inOperatingDomain hd)]; rfl
  · rw [exec_oscTickNaive v hp, tickCommand_of_some hx hh (tickNaive_of_inOperatingDomain hd)]; rfl
  · rintro phase pinc _ _ rfl rfl
    rfl
  · rintro t dt _ _ rfl rfl
    show blep t dt = if gt32 dt zeroF = false then zeroF else _
    rw [blep]
    cases gt32 dt zeroF <;> rfl
  · rintro x _ _ _ _ _ _ _ rfl rfl rfl rfl rfl rfl rfl
    refine ⟨fun hw => ?_, fun hw => ?_, fun hw => ?_, fun hw => ?_⟩ <;> rw [naiveSample, blepSample, hw] <;>
      exact ⟨rfl, rfl⟩

/-- Settles O28: the index check passes, and then the halt answers. -/
theorem haltedTicksDoNothing : Obligations.HaltedTicksDoNothing := by
  unfold Obligations.HaltedTicksDoNothing
  intro s v hp hv hh
  have hx : s.voices[v.toNat]? = some s.voices[v.toNat] := List.getElem?_eq_getElem hv
  exact ⟨(exec_oscTickBlep v hp).trans (tickCommand_of_halted hx hh),
    (exec_oscTickNaive v hp).trans (tickCommand_of_halted hx hh)⟩

/-- The voice of V23: a Square of 3000 Hz at 48000, at the phase just below PI_F. -/
def justBelowPi : Voice :=
  { voiceAtReset { wave := .square, freq := 0x453B8000#32, sr := 0x473B8000#32, en := true } with
    phase := 0x40490FDA#32 }

/-- Settles O34: the voice of V23, evaluated. -/
theorem squareTickReachesTwo : Obligations.SquareTickReachesTwo := by
  unfold Obligations.SquareTickReachesTwo
  have hdomain : inDomain justBelowPi = true := by decide +kernel
  exact ⟨justBelowPi, _, rfl, rfl, rfl, (inOperatingDomain_iff _).2 hdomain, tickBlep_of_inDomain hdomain,
    by decide +kernel⟩

end Sys2Proof.Machine
end

section
/-! What the switch and indicator commands answer (R263 to R266, R270 to R272), and the cases of clamp01 (R263). -/

namespace Sys2Proof.Machine

/-! ### The commands that set a parameter -/

theorem exec_swSetDw {s : State} {i : BitVec 8} {x : Switch} (n : BitVec 16) (hp : s.port = .cmd)
    (hx : s.switches[i.toNat]? = some x) :
    exec (.swSetDw i n) s = .next (reply 0#32 (setSwitch s i { x with dw := n })) :=
  (onPort_of_eq _ hp).trans (withSwitch_some _ hx)

theorem exec_swSetDcw {s : State} {i : BitVec 8} {x : Switch} (n : BitVec 16) (hp : s.port = .cmd)
    (hx : s.switches[i.toNat]? = some x) :
    exec (.swSetDcw i n) s = .next (reply 0#32 (setSwitch s i { x with dcw := n })) :=
  (onPort_of_eq _ hp).trans (withSwitch_some _ hx)

theorem exec_swSetHt {s : State} {i : BitVec 8} {x : Switch} (n : BitVec 16) (hp : s.port = .cmd)
    (hx : s.switches[i.toNat]? = some x) :
    exec (.swSetHt i n) s = .next (reply 0#32 (setSwitch s i { x with ht := n })) :=
  (onPort_of_eq _ hp).trans (withSwitch_some _ hx)

theorem exec_indSetTarget {s : State} {i : BitVec 8} {x : Indicator} (v : F32) (hp : s.port = .cmd)
    (hx : s.indicators[i.toNat]? = some x) :
    exec (.indSetTarget i v) s = .next (reply 0#32 (setIndicator s i { x with target := clamp01 v })) :=
  (onPort_of_eq _ hp).trans (withIndicator_some _ hx)

theorem exec_indSetStep {s : State} {i : BitVec 8} {x : Indicator} (v : F32) (hp : s.port = .cmd)
    (hx : s.indicators[i.toNat]? = some x) :
    exec (.indSetStep i v) s = .next (reply 0#32 (setIndicator s i { x with step := clamp01 v })) :=
  (onPort_of_eq _ hp).trans (withIndicator_some _ hx)

theorem exec_indSetBlink {s : State} {i : BitVec 8} {x : Indicator} (p : BitVec 16) (hp : s.port = .cmd)
    (hx : s.indicators[i.toNat]? = some x) :
    exec (.indSetBlink i p) s = .next (reply 0#32 (setIndicator s i { x with blink := p, bcnt := 0#16 })) :=
  (onPort_of_eq _ hp).trans (withIndicator_some _ hx)

/-! ### clamp01 -/

theorem orderOf_zeroF : orderOf zeroF = 0 := by decide

/-- What is not above +0.0 is clamped to it. -/
theorem clamp01_of_not_gt_zero {x : F32} (h : gt32 x zeroF = false) : clamp01 x = zeroF := by
  simp [clamp01, h]

/-- A NaN, a zero and a negative value are not above +0.0. -/
theorem gt32_zeroF_eq_false {x : F32} (h : isNaN x = true ∨ magOf x = 0 ∨ lt32 x zeroF = true) :
    gt32 x zeroF = false := by
  rcases h with hnan | hzero | hneg
  · exact (comparisons_of_isNaN (.inl hnan)).2.1
  · rcases (magOf_eq_zero_iff x).1 hzero with rfl | rfl <;> decide
  · simp only [lt32, gt32, Bool.and_eq_true, Bool.and_eq_false_iff, decide_eq_true_eq, decide_eq_false_iff_not]
      at hneg ⊢
    omega

/-- What is above 1.0 is above +0.0. -/
theorem gt32_zeroF_of_gt32_oneF {x : F32} (h : gt32 x oneF = true) : gt32 x zeroF = true := by
  have hone : isNaN oneF = false ∧ orderOf oneF = 0x3F800000 := by decide
  have hzero : isNaN zeroF = false := by decide
  simp only [gt32, ordered, hone, hzero, orderOf_zeroF, Bool.and_eq_true, decide_eq_true_eq] at h ⊢
  exact ⟨h.1, by omega⟩

theorem clamp01_of_gt_one {x : F32} (h : gt32 x oneF = true) : clamp01 x = oneF := by
  simp [clamp01, h, gt32_zeroF_of_gt32_oneF h]

/-- A value above +0.0 and at most 1.0 is kept. -/
theorem clamp01_of_between {x : F32} (hpos : gt32 x zeroF = true) (hle : ge32 oneF x = true) : clamp01 x = x := by
  have hgt : gt32 x oneF = false := by
    by_contra hgt
    rw [Bool.not_eq_false, gt32_eq_lt32] at hgt
    rw [ge32_eq_false_of_lt32 hgt] at hle
    cases hle
  simp [clamp01, hpos, hgt]

/-- The only zero that clamp01 answers is +0.0. -/
theorem clamp01_ne_negZero (x : F32) : clamp01 x ≠ 0x80000000#32 := by
  unfold clamp01
  split
  case isFalse => decide
  case isTrue hpos =>
    split
    case isTrue => decide
    case isFalse =>
      rintro rfl
      exact absurd hpos (by decide)

end Sys2Proof.Machine
end

section
/-! What one poll does (R230 to R232), and what a run of polls keeps. -/

namespace Sys2Proof.Machine

/-! ### One poll -/

/-- The block after one poll, with the response (R231). -/
def afterPoll (m : BitVec 32) (s : State) : State := reply (eventMask (polled m s).switches) (polled m s)

/-- CTL_POLL on its port, halted or not (R232). -/
theorem exec_ctlPoll {s : State} (m : BitVec 32) (hp : s.port = .cmd) :
    exec (.ctlPoll m) s = .next (afterPoll m s) :=
  onPort_of_eq _ hp

/-- Bit i of the response is 1 exactly if switch i exists and emitted an event (R231). -/
theorem getLsbD_eventMask (xs : List Switch) {i : Nat} (hi : i < 32) :
    (eventMask xs).getLsbD i = true ↔ ∃ y, xs[i]? = some y ∧ y.event ≠ .none := by
  induction xs generalizing i with
  | nil => simp [eventMask]
  | cons x rest ih =>
    cases i with
    | zero => by_cases he : x.event = .none <;> simp [eventMask, he]
    | succ i =>
      have hlow : (if x.event = .none then 0#32 else 1#32).getLsbD (i + 1) = false := by
        split <;> simp [BitVec.getLsbD_one]
      simp only [eventMask, BitVec.getLsbD_or, hlow, Bool.or_false, BitVec.getLsbD_shiftLeft, hi, decide_true,
        Bool.true_and, Nat.add_sub_cancel, List.getElem?_cons_succ]
      simpa using ih (Nat.lt_of_succ_lt hi)

/-- A poll steps each switch with its own level bit and NOW. -/
theorem switches_afterPoll {s : State} {i : Nat} {x : Switch} (m : BitVec 32) (hx : s.switches[i]? = some x) :
    (afterPoll m s).switches[i]? = some (switchStep (m.getLsbD i) s.now x) := by
  simp [afterPoll, polled, pollSwitches, hx]

/-- A poll steps each indicator. -/
theorem indicators_afterPoll {s : State} {i : Nat} {x : Indicator} (m : BitVec 32) (hx : s.indicators[i]? = some x) :
    (afterPoll m s).indicators[i]? = some (indicatorStep x) := by
  simp [afterPoll, polled, hx]

/-! ### Runs of polls -/

theorem pollStates_cons {s : State} (m : BitVec 32) (ms : List (BitVec 32)) (hp : s.port = .cmd) :
    pollStates (m :: ms) s = afterPoll m s :: pollStates ms (afterPoll m s) := by
  rw [pollStates, exec_ctlPoll m hp]

/-- What holds before a run and what every poll carries from one count of polls to the next holds after every poll. -/
theorem pollStates_induction {P : Nat → State → Prop} {s : State} {ms : List (BitVec 32)} (hport : s.port = .cmd)
    (hstart : P 0 s)
    (hpoll : ∀ j (hj : j < ms.length) (s : State), P j s → P (j + 1) (afterPoll ms[j] s))
    (j : Nat) (hj : j < ms.length) : ∃ t, (pollStates ms s)[j]? = some t ∧ P (j + 1) t := by
  induction ms generalizing P s j with
  | nil => exact absurd hj (Nat.not_lt_zero j)
  | cons m ms ih =>
    rw [pollStates_cons m ms hport]
    have hfirst := hpoll 0 (Nat.zero_lt_succ _) s hstart
    cases j with
    | zero => exact ⟨_, rfl, hfirst⟩
    | succ j =>
      exact ih (P := fun k => P (k + 1)) (s := afterPoll m s) hport hfirst
        (fun k hk => hpoll (k + 1) (Nat.succ_lt_succ hk)) j (Nat.lt_of_succ_lt_succ hj)

end Sys2Proof.Machine
end

section
/-! The poll step of a switch, in terms of what was debounced (R233, R234) and of the rows of the transition table (R235
to R242). -/

namespace Sys2Proof.Machine

/-! ### Debouncing -/

/-- max(DW, 1), the number of polls that accept a change (R234). -/
def window (x : Switch) : Nat := max x.dw.toNat 1

theorem window_pos (x : Switch) : 0 < window x := Nat.lt_of_lt_of_le Nat.one_pos (Nat.le_max_right _ _)

/-- CNT saturates no earlier than the longest window ends. -/
theorem window_le (x : Switch) : window x ≤ 65535 :=
  Nat.max_le.2 ⟨Nat.le_of_lt_succ x.dw.isLt, by decide⟩

theorem toNat_countUp (cnt : BitVec 16) : (countUp cnt).toNat = min (cnt.toNat + 1) 65535 := by
  rw [countUp, BitVec.toNat_ofNat, Nat.mod_eq_of_lt (Nat.lt_of_le_of_lt (Nat.min_le_right _ _) (by decide))]

theorem accepts_iff (raw : Bool) (x : Switch) :
    accepts raw x = true ↔ raw ≠ x.deb ∧ window x ≤ min (x.cnt.toNat + 1) 65535 := by
  simp [accepts, toNat_countUp, window]

/-- In terms of the count alone: a window that is full is so before the count saturates. -/
theorem accepts_iff_window_le (raw : Bool) (x : Switch) :
    accepts raw x = true ↔ raw ≠ x.deb ∧ window x ≤ x.cnt.toNat + 1 := by
  rw [accepts_iff, Nat.le_min, and_iff_left (window_le x)]

/-- A poll that differs and is not accepted counts. -/
theorem toNat_countUp_of_lt {x : Switch} (h : x.cnt.toNat + 1 < window x) :
    (countUp x.cnt).toNat = x.cnt.toNat + 1 := by
  rw [toNat_countUp, Nat.min_eq_left (Nat.le_of_lt (Nat.lt_of_lt_of_le h (window_le x)))]

/-- The window depends on DW alone. -/
theorem window_congr {x y : Switch} (h : y.dw = x.dw) : window y = window x := by
  rw [window, window, h]

theorem accepts_of_eq_deb {raw : Bool} {x : Switch} (h : raw = x.deb) : accepts raw x = false := by
  simp [accepts, h]

/-- The edge of an accepted change to a level (R234). -/
def edgeTo (raw : Bool) : Edge := if raw then .press else .release

theorem edgeOf_of_accepts {raw : Bool} {x : Switch} (h : accepts raw x = true) : edgeOf raw x = edgeTo raw := by
  rw [edgeOf, if_pos h, edgeTo]

theorem edgeOf_of_not_accepts {raw : Bool} {x : Switch} (h : ¬accepts raw x = true) : edgeOf raw x = .none := if_neg h

theorem debounce_of_eq_deb {raw : Bool} {x : Switch} (h : raw = x.deb) :
    debounce raw x = { x with level := raw, cnt := 0#16 } := if_pos h

theorem debounce_of_accepts {raw : Bool} {x : Switch} (h : accepts raw x = true) :
    debounce raw x = { x with level := raw, deb := raw, cnt := 0#16 } := by
  rw [debounce, if_neg ((accepts_iff raw x).1 h).1, if_pos h]

theorem debounce_of_not_accepts {raw : Bool} {x : Switch} (hraw : raw ≠ x.deb) (h : ¬accepts raw x = true) :
    debounce raw x = { x with level := raw, cnt := countUp x.cnt } := by
  rw [debounce, if_neg hraw, if_neg h]

/-! ### The transition table -/

/-- The time since the last press has reached the threshold at which a state ends without an edge (R240, R241). -/
def timesOut (dcw ht el : Nat) : ClickState → Prop
  | .pressed => ht ≤ el
  | .doubleClicked => ht ≤ el
  | .released => dcw ≤ el
  | .idle => False
  | .held => False

/-- The rows of R235: the state before, the edge, the state after and the event, by the thresholds and el. -/
inductive TableRow (dcw ht el : Nat) : ClickState → Edge → ClickState → ClickEvent → Prop
  | firstPress : TableRow dcw ht el .idle .press .pressed .none
  | secondPress (h : el < dcw) : TableRow dcw ht el .released .press .doubleClicked .doubleClick
  | latePress (h : dcw ≤ el) : TableRow dcw ht el .released .press .pressed .click
  | shortRelease (h : el < dcw) : TableRow dcw ht el .pressed .release .released .none
  | longRelease (h : dcw ≤ el) : TableRow dcw ht el .pressed .release .idle .none
  | lastRelease {st : ClickState} (h : st = .doubleClicked ∨ st = .held) : TableRow dcw ht el st .release .idle .none
  | hold {st : ClickState} (h : st = .pressed ∨ st = .doubleClicked) (hel : ht ≤ el) :
      TableRow dcw ht el st .none .held .held
  | expire (h : dcw ≤ el) : TableRow dcw ht el .released .none .idle .click
  | stay {st : ClickState} (h : ¬timesOut dcw ht el st) : TableRow dcw ht el st .none st .none

/-- PRESS_T after an edge: NOW at a press (R235). -/
def pressTime (now pressT : BitVec 32) : Edge → BitVec 32
  | .press => now
  | .release => pressT
  | .none => pressT

/-- classify follows the rows. -/
theorem classify_of_row {edge : Edge} {now : BitVec 32} {x : Switch} {st : ClickState} {e : ClickEvent}
    (h : TableRow x.dcw.toNat x.ht.toNat (now - x.pressT).toNat x.state edge st e) :
    classify edge now x = { x with state := st, pressT := pressTime now x.pressT edge, event := e } := by
  obtain ⟨init, level, deb, cnt, state, pressT, event, dw, dcw, ht⟩ := x
  dsimp only at h ⊢
  cases h with
  | firstPress => rfl
  | secondPress hel => exact if_pos hel
  | latePress hel => exact if_neg (Nat.not_lt.2 hel)
  | shortRelease hel => exact if_pos hel
  | longRelease hel => exact if_neg (Nat.not_lt.2 hel)
  | lastRelease hst => rcases hst with rfl | rfl <;> rfl
  | hold hst hel => rcases hst with rfl | rfl <;> exact if_pos hel
  | expire hel => exact if_pos hel
  | stay hel =>
    cases st with
    | idle => rfl
    | held => rfl
    | pressed => exact if_neg hel
    | doubleClicked => exact if_neg hel
    | released => exact if_neg hel

/-! ### The step -/

/-- LEVEL, DEB and CNT after a step are those of the debouncing, and the parameters are kept (R233, R234). -/
theorem switchStep_debounced (raw : Bool) (now : BitVec 32) (x : Switch) :
    (switchStep raw now x).level = raw ∧ (switchStep raw now x).deb = (debounce raw x).deb ∧
    (switchStep raw now x).cnt = (debounce raw x).cnt ∧ (switchStep raw now x).dw = x.dw ∧
    (switchStep raw now x).dcw = x.dcw ∧ (switchStep raw now x).ht = x.ht := by
  obtain ⟨deb, cnt, hdebounce, -⟩ := debounce_eq raw x
  obtain ⟨st, pressT, event, hclassify, -⟩ := classify_eq (edgeOf raw x) now (debounce raw x)
  rw [switchStep, hclassify, hdebounce]
  exact ⟨rfl, rfl, rfl, rfl, rfl, rfl⟩

/-- STATE, PRESS_T and EVENT after a step are those of the row of the edge (R235). -/
theorem switchStep_of_row {raw : Bool} {now : BitVec 32} {x : Switch} {edge : Edge} {st st' : ClickState}
    {e : ClickEvent} (hedge : edgeOf raw x = edge) (hst : x.state = st)
    (hrow : TableRow x.dcw.toNat x.ht.toNat (now - x.pressT).toNat st edge st' e) :
    (switchStep raw now x).state = st' ∧ (switchStep raw now x).pressT = pressTime now x.pressT edge ∧
    (switchStep raw now x).event = e := by
  obtain ⟨deb, cnt, hdebounce, -⟩ := debounce_eq raw x
  subst hst
  rw [switchStep, hedge, hdebounce, classify_of_row (x := { x with level := raw, deb := deb, cnt := cnt }) hrow]
  exact ⟨rfl, rfl, rfl⟩

end Sys2Proof.Machine
end

section
/-! Runs of polls as one switch sees them (R233 to R245): the switch stands in a phase, and a run of polls at one level
leads it from phase to phase, each with the events that it emits. -/

namespace Sys2Proof.Machine

/-! ### A run of polls of one switch -/

/-- The polls of a switch from NOW and x, one raw level each, end in y and emit es. -/
inductive Polls : BitVec 32 → Switch → List Bool → List ClickEvent → Switch → Prop
  | nil (now : BitVec 32) (x : Switch) : Polls now x [] [] x
  | cons {now : BitVec 32} {x y : Switch} {raw : Bool} {rs : List Bool} {es : List ClickEvent}
      (h : Polls (now + 1#32) (switchStep raw now x) rs es y) :
      Polls now x (raw :: rs) ((switchStep raw now x).event :: es) y

/-- NOW after n more polls. -/
theorem add_ofNat_add_ofNat (now : BitVec 32) (m n : Nat) :
    now + BitVec.ofNat 32 m + BitVec.ofNat 32 n = now + BitVec.ofNat 32 (m + n) := by
  rw [BitVec.add_assoc, ← BitVec.ofNat_add]

/-- A run and the run after it. -/
theorem Polls.append {now : BitVec 32} {x y z : Switch} {rs rs' : List Bool} {es es' : List ClickEvent}
    (h : Polls now x rs es y) (h' : Polls (now + BitVec.ofNat 32 rs.length) y rs' es' z) :
    Polls now x (rs ++ rs') (es ++ es') z := by
  induction h with
  | nil now x => simpa using h'
  | cons _ ih =>
    rw [List.length_cons, Nat.add_comm, ← add_ofNat_add_ofNat] at h'
    exact .cons (ih h')

/-- The events that a run of CTL_POLL gives for a switch are those of the switch's own polls. -/
theorem eventsOf_pollStates {s : State} {i : Nat} {x y : Switch} {ms : List (BitVec 32)} {es : List ClickEvent}
    (hport : s.port = .cmd) (hx : s.switches[i]? = some x)
    (h : Polls s.now x (ms.map fun m => m.getLsbD i) es y) : eventsOf i (pollStates ms s) = es.map some := by
  induction ms generalizing s x es with
  | nil => cases h; rfl
  | cons m ms ih =>
    cases h with
    | cons h =>
      have hy := switches_afterPoll m hx
      have htail := ih (s := afterPoll m s) hport hy h
      rw [pollStates_cons m ms hport, eventsOf, List.map_cons, List.map_cons]
      exact congr_arg₂ List.cons (congrArg (Option.map Switch.event) hy) htail

theorem eventCount_map_some (e : ClickEvent) (es : List ClickEvent) : eventCount e (es.map some) = es.count e := by
  rw [eventCount, List.countP_map, List.count]
  congr 1
  funext x
  simp [beq_eq_decide]

/-! ### Phases -/

/-- The thresholds of y are those of x, DEB, CNT and STATE are given, and `el` polls have passed since PRESS_T. -/
structure Phase (x : Switch) (deb : Bool) (cnt : Nat) (st : ClickState) (el : Nat) (now : BitVec 32) (y : Switch) :
    Prop where
  dw : y.dw = x.dw
  dcw : y.dcw = x.dcw
  ht : y.ht = x.ht
  deb : y.deb = deb
  cnt : y.cnt.toNat = cnt
  state : y.state = st
  elapsed : now = y.pressT + BitVec.ofNat 32 el

/-- The events of a run, without the polls that emitted none. -/
def emitted (es : List ClickEvent) : List ClickEvent := es.filter fun e => decide (e ≠ .none)

theorem emitted_append (es es' : List ClickEvent) : emitted (es ++ es') = emitted es ++ emitted es' :=
  List.filter_append es es'

theorem count_emitted {e : ClickEvent} (he : e ≠ .none) (es : List ClickEvent) : (emitted es).count e = es.count e :=
  List.count_filter (decide_eq_true he)

/-- From every NOW and switch of P the polls at levels rs emit es, in this order, and lead to Q. -/
def Leads (P : BitVec 32 → Switch → Prop) (rs : List Bool) (es : List ClickEvent) (Q : BitVec 32 → Switch → Prop) :
    Prop :=
  ∀ now x, P now x →
    ∃ evs y, Polls now x rs evs y ∧ emitted evs = es ∧ Q (now + BitVec.ofNat 32 rs.length) y

theorem Leads.refl (P : BitVec 32 → Switch → Prop) : Leads P [] [] P :=
  fun now x h => ⟨[], x, .nil now x, rfl, by simpa using h⟩

theorem Leads.trans {P Q R : BitVec 32 → Switch → Prop} {rs rs' : List Bool} {es es' : List ClickEvent}
    (h : Leads P rs es Q) (h' : Leads Q rs' es' R) : Leads P (rs ++ rs') (es ++ es') R := by
  intro now x hx
  obtain ⟨_, y, hxy, rfl, hy⟩ := h now x hx
  obtain ⟨_, z, hyz, rfl, hz⟩ := h' _ y hy
  refine ⟨_, z, hxy.append hyz, emitted_append _ _, ?_⟩
  rwa [List.length_append, ← add_ofNat_add_ofNat]

/-- The polls since PRESS_T, one poll later. -/
def nextElapsed (el : Nat) : Edge → Nat
  | .press => 1
  | .release => el + 1
  | .none => el + 1

theorem elapsed_next {now pressT : BitVec 32} {el : Nat} (edge : Edge) (h : now = pressT + BitVec.ofNat 32 el) :
    now + 1#32 = pressTime now pressT edge + BitVec.ofNat 32 (nextElapsed el edge) := by
  have hlater : now + 1#32 = pressT + BitVec.ofNat 32 (el + 1) := by rw [h]; exact add_ofNat_add_ofNat pressT el 1
  cases edge with
  | press => rfl
  | release => exact hlater
  | none => exact hlater

/-- The time that the model computes from NOW and PRESS_T. -/
theorem Phase.toNat_elapsed {x y : Switch} {deb : Bool} {cnt el : Nat} {st : ClickState} {now : BitVec 32}
    (h : Phase x deb cnt st el now y) : (now - y.pressT).toNat = el % 2 ^ 32 := by
  rw [h.elapsed, BitVec.add_comm, BitVec.add_sub_cancel, BitVec.toNat_ofNat]

/-- One poll: the debouncing gives the edge, DEB and CNT, and the edge's row gives the rest. -/
theorem Leads.poll {x : Switch} {deb deb' raw : Bool} {cnt cnt' el : Nat} {st st' : ClickState} {edge : Edge}
    {e : ClickEvent}
    (hdebounce : ∀ y : Switch, y.dw = x.dw → y.deb = deb → y.cnt.toNat = cnt →
      edgeOf raw y = edge ∧ (debounce raw y).deb = deb' ∧ (debounce raw y).cnt.toNat = cnt')
    (hrow : TableRow x.dcw.toNat x.ht.toNat (el % 2 ^ 32) st edge st' e) :
    Leads (Phase x deb cnt st el) [raw] (emitted [e]) (Phase x deb' cnt' st' (nextElapsed el edge)) := by
  intro now y hy
  obtain ⟨hedge, hdeb, hcnt⟩ := hdebounce y hy.dw hy.deb hy.cnt
  obtain ⟨-, hdeb', hcnt', hdw', hdcw', hht'⟩ := switchStep_debounced raw now y
  obtain ⟨hst', hpressT', he'⟩ :=
    switchStep_of_row (now := now) hedge hy.state (by rwa [hy.dcw, hy.ht, hy.toNat_elapsed])
  refine ⟨_, switchStep raw now y, .cons (.nil _ _), by rw [he'], ?_⟩
  exact {
    dw := hdw'.trans hy.dw
    dcw := hdcw'.trans hy.dcw
    ht := hht'.trans hy.ht
    deb := hdeb'.trans hdeb
    cnt := (congrArg BitVec.toNat hcnt').trans hcnt
    state := hst'
    elapsed := by rw [hpressT']; exact elapsed_next edge hy.elapsed }

/-! ### Runs without an accepted change -/

theorem not_timesOut_mod {dcw ht el : Nat} {st : ClickState} (h : ¬timesOut dcw ht el st) (n : Nat) :
    ¬timesOut dcw ht (el % n) st := by
  have hle := Nat.mod_le el n
  cases st with
  | idle => exact h
  | held => exact h
  | pressed => exact fun ht' => h (Nat.le_trans ht' hle)
  | doubleClicked => exact fun ht' => h (Nat.le_trans ht' hle)
  | released => exact fun ht' => h (Nat.le_trans ht' hle)

/-- No time-out at any of n polls, the first of them `el` polls after PRESS_T. -/
def quietFor (x : Switch) (st : ClickState) (el n : Nat) : Prop :=
  ∀ k, el ≤ k → k < el + n → ¬timesOut x.dcw.toNat x.ht.toNat k st

/-- One poll at the debounced level. -/
theorem Leads.restOnce {x : Switch} {deb : Bool} {cnt el : Nat} {st st' : ClickState} {e : ClickEvent}
    (hrow : TableRow x.dcw.toNat x.ht.toNat (el % 2 ^ 32) st .none st' e) :
    Leads (Phase x deb cnt st el) [deb] (emitted [e]) (Phase x deb 0 st' (el + 1)) := by
  refine .poll (fun y _ hdeb _ => ?_) hrow
  have hsame : deb = y.deb := hdeb.symm
  refine ⟨edgeOf_of_not_accepts (by simp [accepts_of_eq_deb hsame]), ?_⟩
  rw [debounce_of_eq_deb hsame]
  exact ⟨hdeb, rfl⟩

/-- Polls at the debounced level, without a time-out. -/
theorem Leads.rest {x : Switch} {deb : Bool} {st : ClickState} {el : Nat} (n : Nat) (hquiet : quietFor x st el n) :
    Leads (Phase x deb 0 st el) (List.replicate n deb) [] (Phase x deb 0 st (el + n)) := by
  induction n generalizing el with
  | zero => exact .refl _
  | succ n ih =>
    have hfirst := not_timesOut_mod (hquiet el (Nat.le_refl _) (by omega)) (2 ^ 32)
    have hrest := ih (el := el + 1) fun k hlo hup => hquiet k (by omega) (by omega)
    rw [show el + (n + 1) = el + 1 + n by omega]
    exact (Leads.restOnce (.stay hfirst)).trans hrest

/-- One poll at another level, before the window ends. -/
theorem Leads.waitOnce {x : Switch} {deb raw : Bool} {cnt el : Nat} {st st' : ClickState} {e : ClickEvent}
    (hraw : raw ≠ deb) (hcnt : cnt + 1 < window x)
    (hrow : TableRow x.dcw.toNat x.ht.toNat (el % 2 ^ 32) st .none st' e) :
    Leads (Phase x deb cnt st el) [raw] (emitted [e]) (Phase x deb (cnt + 1) st' (el + 1)) := by
  refine .poll (fun y hdw hdeb hy => ?_) hrow
  have hdiff : raw ≠ y.deb := by rwa [hdeb]
  have hno : ¬accepts raw y = true := by
    rw [accepts_iff_window_le, hy, window_congr hdw]
    exact fun ⟨_, hfull⟩ => Nat.not_lt.2 hfull hcnt
  refine ⟨edgeOf_of_not_accepts hno, ?_⟩
  rw [debounce_of_not_accepts hdiff hno]
  exact ⟨hdeb, by rw [toNat_countUp_of_lt (by rwa [hy, window_congr hdw]), hy]⟩

/-- Polls at another level, fewer than accept the change, without a time-out. -/
theorem Leads.wait {x : Switch} {deb raw : Bool} {st : ClickState} {el cnt : Nat} (n : Nat) (hraw : raw ≠ deb)
    (hcnt : cnt + n < window x) (hquiet : quietFor x st el n) :
    Leads (Phase x deb cnt st el) (List.replicate n raw) [] (Phase x deb (cnt + n) st (el + n)) := by
  induction n generalizing el cnt with
  | zero => exact .refl _
  | succ n ih =>
    have hfirst := not_timesOut_mod (hquiet el (Nat.le_refl _) (by omega)) (2 ^ 32)
    have hrest := ih (el := el + 1) (cnt := cnt + 1) (by omega) fun k hlo hup => hquiet k (by omega) (by omega)
    rw [show el + (n + 1) = el + 1 + n by omega, show cnt + (n + 1) = cnt + 1 + n by omega]
    exact (Leads.waitOnce hraw (by omega) (.stay hfirst)).trans hrest

/-! ### An accepted change -/

/-- The poll that accepts a change. -/
theorem Leads.acceptOnce {x : Switch} {deb raw : Bool} {el cnt : Nat} {st st' : ClickState} {e : ClickEvent}
    (hraw : raw ≠ deb) (hcnt : cnt + 1 = window x)
    (hrow : TableRow x.dcw.toNat x.ht.toNat (el % 2 ^ 32) st (edgeTo raw) st' e) :
    Leads (Phase x deb cnt st el) [raw] (emitted [e]) (Phase x raw 0 st' (nextElapsed el (edgeTo raw))) := by
  refine .poll (fun y hdw hdeb hy => ?_) hrow
  have hacc : accepts raw y = true := by
    rw [accepts_iff_window_le, hy, hdeb, window_congr hdw]
    exact ⟨hraw, Nat.le_of_eq hcnt.symm⟩
  refine ⟨edgeOf_of_accepts hacc, ?_⟩
  rw [debounce_of_accepts hacc]
  exact ⟨rfl, rfl⟩

section
variable {x : Switch} {el w r : Nat} {st st' : ClickState} {e : ClickEvent}

/-- Polls at another level, r more than a window of w + 1: the last of the window accepts the change. -/
theorem Leads.accept {deb raw : Bool} (hraw : raw ≠ deb) (hw : window x = w + 1) (hbefore : quietFor x st el w)
    (hrow : TableRow x.dcw.toNat x.ht.toNat ((el + w) % 2 ^ 32) st (edgeTo raw) st' e)
    (hafter : quietFor x st' (nextElapsed (el + w) (edgeTo raw)) r) :
    Leads (Phase x deb 0 st el) (List.replicate (w + 1 + r) raw) (emitted [e])
      (Phase x raw 0 st' (nextElapsed (el + w) (edgeTo raw) + r)) := by
  rw [List.replicate_add, List.replicate_succ', ← List.append_nil (emitted [e])]
  exact ((Leads.wait w hraw (by omega) hbefore).trans (.acceptOnce hraw (by omega) hrow)).trans (.rest r hafter)

/-- A press: PRESS_T is the poll that accepts it (R235). -/
theorem Leads.press (hw : window x = w + 1) (hbefore : quietFor x st el w)
    (hrow : TableRow x.dcw.toNat x.ht.toNat ((el + w) % 2 ^ 32) st .press st' e) (hafter : quietFor x st' 1 r) :
    Leads (Phase x false 0 st el) (List.replicate (w + 1 + r) true) (emitted [e]) (Phase x true 0 st' (1 + r)) :=
  .accept (by decide) hw hbefore hrow hafter

/-- A release: PRESS_T is kept. -/
theorem Leads.release (hw : window x = w + 1) (hbefore : quietFor x st el w)
    (hrow : TableRow x.dcw.toNat x.ht.toNat ((el + w) % 2 ^ 32) st .release st' e)
    (hafter : quietFor x st' (el + w + 1) r) :
    Leads (Phase x true 0 st el) (List.replicate (w + 1 + r) false) (emitted [e])
      (Phase x false 0 st' (el + w + 1 + r)) :=
  .accept (by decide) hw hbefore hrow hafter

end

end Sys2Proof.Machine
end

section
/-! The two classified patterns of a switch: a long press (R244, R245 c) and a double click (R243). -/

namespace Sys2Proof.Machine

/-! ### From phases to counts of events -/

/-- An idle switch before a press, with any PRESS_T. -/
theorem phase_of_idle {x : Switch} (now : BitVec 32) (hst : x.state = .idle) (hdeb : x.deb = false)
    (hcnt : x.cnt = 0#16) : Phase x false 0 .idle (now - x.pressT).toNat now x where
  dw := rfl
  dcw := rfl
  ht := rfl
  deb := hdeb
  cnt := congrArg BitVec.toNat hcnt
  state := hst
  elapsed := by rw [BitVec.ofNat_toNat, BitVec.setWidth_eq, BitVec.add_comm, BitVec.sub_add_cancel]

/-- The counts of events of a run from an idle switch, from what the run emits. -/
theorem eventCounts_of_leads {s : State} {i : Nat} {x : Switch} {ms : List (BitVec 32)} {rs : List Bool}
    {es : List ClickEvent} {Q : BitVec 32 → Switch → Prop} (hp : s.port = .cmd) (hx : s.switches[i]? = some x)
    (hst : x.state = .idle) (hdeb : x.deb = false) (hcnt : x.cnt = 0#16)
    (hlevels : ms.map (fun m => m.getLsbD i) = rs)
    (h : Leads (Phase x false 0 .idle (s.now - x.pressT).toNat) rs es Q) {e : ClickEvent} (he : e ≠ .none) :
    eventCount e (eventsOf i (pollStates ms s)) = es.count e := by
  obtain ⟨evs, y, hpolls, rfl, -⟩ := h s.now x (phase_of_idle s.now hst hdeb hcnt)
  rw [eventsOf_pollStates hp hx (hlevels ▸ hpolls), eventCount_map_some, count_emitted he]

/-- The levels that a run shows a switch whose bit is the same in every mask. -/
theorem map_getLsbD_eq_replicate {ms : List (BitVec 32)} {i : Nat} {raw : Bool} (h : ∀ m ∈ ms, m.getLsbD i = raw) :
    ms.map (fun m => m.getLsbD i) = List.replicate ms.length raw :=
  List.map_eq_replicate_iff.2 h

/-! ### States without a time-out -/

theorem quietFor_idle (x : Switch) (el n : Nat) : quietFor x .idle el n := fun _ _ _ => id

theorem quietFor_held (x : Switch) (el n : Nat) : quietFor x .held el n := fun _ _ _ => id

/-- A press is quiet before HT polls have passed since its edge. -/
theorem quietFor_press {x : Switch} {st : ClickState} {el n : Nat} (hst : st = .pressed ∨ st = .doubleClicked)
    (h : n = 0 ∨ el + n ≤ x.ht.toNat) : quietFor x st el n := by
  intro k hlo hup
  have hk : ¬x.ht.toNat ≤ k := by omega
  rcases hst with rfl | rfl <;> exact hk

/-- A released switch is quiet before DCW polls have passed since its press. -/
theorem quietFor_released {x : Switch} {el n : Nat} (h : el + n ≤ x.dcw.toNat) : quietFor x .released el n := by
  intro k hlo hup
  show ¬x.dcw.toNat ≤ k
  omega

/-! ### Parts of the patterns -/

section
variable {x : Switch} {w : Nat} (hw : window x = w + 1)
include hw

/-- Pressed polls from the idle state, as long as HELD is not due. -/
theorem Leads.firstPress (el r : Nat) (hht : r = 0 ∨ 1 + r ≤ x.ht.toNat) :
    Leads (Phase x false 0 .idle el) (List.replicate (w + 1 + r) true) [] (Phase x true 0 .pressed (1 + r)) :=
  .press hw (quietFor_idle _ _ _) .firstPress (quietFor_press (.inl rfl) hht)

/-- Released polls after HELD or DOUBLE_CLICKED, however many, emit nothing, if the window ends before a time-out. -/
theorem Leads.lastRelease {st : ClickState} {el : Nat} (m : Nat) (hst : st = .doubleClicked ∨ st = .held)
    (hquiet : quietFor x st el w) : ∃ Q, Leads (Phase x true 0 st el) (List.replicate m false) [] Q := by
  rcases Nat.lt_or_ge m (w + 1) with hm | hm
  · exact ⟨_, .wait m (by decide) (by omega) fun k hlo hup => hquiet k hlo (by omega)⟩
  · obtain ⟨r, rfl⟩ := Nat.exists_eq_add_of_le hm
    exact ⟨_, .release hw hquiet (.lastRelease hst) (quietFor_idle _ _ _)⟩

/-! ### The patterns -/

/-- A long press: HELD at the first poll that is both HT polls and one poll past the edge, and nothing else. -/
theorem Leads.longPress {h : Nat} (hh : max x.ht.toNat 1 = h + 1) (el r m : Nat) :
    ∃ Q, Leads (Phase x false 0 .idle el) (List.replicate (w + 1 + h + 1 + r) true ++ List.replicate m false)
      [.held] Q := by
  have hhold : TableRow x.dcw.toNat x.ht.toNat ((1 + h) % 2 ^ 32) .pressed .none .held .held := by
    have hbound := x.ht.isLt
    refine .hold (.inl rfl) ?_
    rw [Nat.mod_eq_of_lt (by omega)]
    omega
  obtain ⟨Q, hrelease⟩ := Leads.lastRelease (el := 1 + h + 1 + r) hw m (.inr rfl) (quietFor_held _ _ _)
  rw [List.replicate_add, List.replicate_succ']
  exact ⟨Q, (((Leads.firstPress hw el h (by omega)).trans (.restOnce hhold)).trans
    (.rest r (quietFor_held _ _ _))).trans hrelease⟩

/-- Two short presses: DOUBLE_CLICK at the second edge, and nothing else. -/
theorem Leads.doubleClick {r₁ r r₂ : Nat} (el m : Nat) (hht₁ : w + 1 + r₁ < x.ht.toNat)
    (hht₂ : w + 1 + r₂ < x.ht.toNat) (hdcw : w + 1 + r₁ + (w + 1 + r) < x.dcw.toNat) :
    ∃ Q, Leads (Phase x false 0 .idle el)
      (List.replicate (w + 1 + r₁) true ++ List.replicate (w + 1 + r) false ++ List.replicate (w + 1 + r₂) true ++
        List.replicate m false)
      [.doubleClick] Q := by
  have early {k : Nat} (hk : k < x.dcw.toNat) : k % 2 ^ 32 < x.dcw.toNat := Nat.lt_of_le_of_lt (Nat.mod_le _ _) hk
  have hpress := Leads.firstPress hw el r₁ (by omega)
  have hgap := Leads.release (st := .pressed) (el := 1 + r₁) (r := r) hw (quietFor_press (.inl rfl) (by omega))
    (.shortRelease (early (by omega))) (quietFor_released (by omega))
  have hagain := Leads.press (el := 1 + r₁ + w + 1 + r) (r := r₂) hw (quietFor_released (by omega))
    (.secondPress (early (by omega))) (quietFor_press (.inr rfl) (by omega))
  obtain ⟨Q, hrelease⟩ := Leads.lastRelease (el := 1 + r₂) hw m (.inl rfl) (quietFor_press (.inr rfl) (by omega))
  exact ⟨Q, ((hpress.trans hgap).trans hagain).trans hrelease⟩

end

end Sys2Proof.Machine
end

section
/-! The poll step of an indicator: the brightness ramp (R260) and the blink schedule (R261). -/

namespace Sys2Proof.Machine

/-! ### The ramp -/

theorem ge32_iff {a b : F32} (ha : isNaN a = false) (hb : isNaN b = false) :
    ge32 a b = true ↔ orderOf b ≤ orderOf a := by
  rw [ge32_eq_not_lt32 ha hb, Bool.not_eq_true', Bool.eq_false_iff, Ne, lt32_iff ha hb, not_lt]

/-- A smaller of two values, at least what both are at least. -/
theorem min32_between {a b c : F32} (ha : isNaN a = false) (hb : isNaN b = false) (hc : isNaN c = false)
    (hca : orderOf c ≤ orderOf a) (hcb : orderOf c ≤ orderOf b) :
    ge32 (min32 a b) c = true ∧ ge32 b (min32 a b) = true := by
  unfold min32
  split
  case isTrue => exact ⟨(ge32_iff hb hc).2 hcb, (ge32_iff hb hb).2 (Int.le_refl _)⟩
  case isFalse h => exact ⟨(ge32_iff ha hc).2 hca, (ge32_iff hb ha).2 (orderOf_le_of_not_lt32 hb ha h)⟩

/-- A larger of two values, at most what both are at most. -/
theorem max32_between {a b c : F32} (ha : isNaN a = false) (hb : isNaN b = false) (hc : isNaN c = false)
    (hac : orderOf a ≤ orderOf c) (hbc : orderOf b ≤ orderOf c) :
    ge32 c (max32 a b) = true ∧ ge32 (max32 a b) b = true := by
  unfold max32
  rw [gt32_eq_lt32]
  split
  case isTrue => exact ⟨(ge32_iff hc hb).2 hbc, (ge32_iff hb hb).2 (Int.le_refl _)⟩
  case isFalse h => exact ⟨(ge32_iff hc ha).2 hac, (ge32_iff ha hb).2 (orderOf_le_of_not_lt32 ha hb h)⟩

/-- A sum of two numbers of [0, 1] is at least the first. -/
theorem orderOf_le_add32 {a b : F32} (ha : inUnit a) (hb : inUnit b) : orderOf a ≤ orderOf (add32 a b) := by
  have hub := signedUnits_nonneg_of_inUnit hb
  rw [add32_finite (magOf_lt_of_inUnit ha) (magOf_lt_of_inUnit hb)]
  exact le_orderOf_packSum _ (magOf_lt_of_inUnit ha) (by omega)

theorem rampCur_of_lt {x : Indicator} (h : lt32 x.cur x.target = true) :
    rampCur x = min32 (add32 x.cur x.step) x.target := if_pos h

/-- What is above a bound is not below it. -/
theorem lt32_eq_false_of_gt32 {a b : F32} (h : gt32 a b = true) : lt32 a b = false := by
  rw [gt32_eq_lt32] at h
  by_contra hlt
  simp only [lt32, Bool.not_eq_false, Bool.and_eq_true, decide_eq_true_eq] at h hlt
  omega

theorem rampCur_of_gt {x : Indicator} (h : gt32 x.cur x.target = true) :
    rampCur x = max32 (sub32 x.cur x.step) x.target := by
  simp [rampCur, lt32_eq_false_of_gt32 h, h]

theorem rampCur_of_reached {x : Indicator} (hlt : lt32 x.cur x.target = false) (hgt : gt32 x.cur x.target = false) :
    rampCur x = x.cur := by
  simp [rampCur, hlt, hgt]

/-- Below TARGET the ramp rises, and ends at TARGET at the latest. -/
theorem rampCur_rises {x : Indicator} (hx : indicatorOk x) (h : lt32 x.cur x.target = true) :
    ge32 (rampCur x) x.cur = true ∧ ge32 x.target (rampCur x) = true := by
  obtain ⟨hcur, htarget, hstep⟩ := hx
  obtain ⟨hcurNaN, -, -⟩ := (inUnit_iff _).1 hcur
  obtain ⟨htargetNaN, -, -⟩ := (inUnit_iff _).1 htarget
  rw [rampCur_of_lt h]
  exact min32_between (add32_of_inUnit hcur hstep).1 htargetNaN hcurNaN (orderOf_le_add32 hcur hstep)
    (Int.le_of_lt ((lt32_iff hcurNaN htargetNaN).1 h))

/-- Above TARGET the ramp falls, and ends at TARGET at the latest. -/
theorem rampCur_falls {x : Indicator} (hx : indicatorOk x) (h : gt32 x.cur x.target = true) :
    ge32 x.cur (rampCur x) = true ∧ ge32 (rampCur x) x.target = true := by
  obtain ⟨hcur, htarget, hstep⟩ := hx
  obtain ⟨hcurNaN, -, -⟩ := (inUnit_iff _).1 hcur
  obtain ⟨htargetNaN, -, -⟩ := (inUnit_iff _).1 htarget
  obtain ⟨hdiffNaN, hdiff⟩ := sub32_of_inUnit hcur hstep
  rw [rampCur_of_gt h]
  rw [gt32_eq_lt32, lt32_iff htargetNaN hcurNaN] at h
  exact max32_between hdiffNaN htargetNaN hcurNaN hdiff (Int.le_of_lt h)

/-! ### The blink schedule -/

theorem blinkOn_iff {x : Indicator} (h : x.blink ≠ 0#16) :
    blinkOn x = true ↔ x.bcnt.toNat < x.blink.toNat - x.blink.toNat / 2 := by
  simp [blinkOn, h]

/-- BCNT counts modulo BLINK (R261). -/
theorem toNat_blinkCount {x : Indicator} (h : x.bcnt.toNat < x.blink.toNat) :
    (blinkCount x).toNat = (x.bcnt.toNat + 1) % x.blink.toNat := by
  have hblink : x.blink ≠ 0#16 := fun h0 => by simp [h0] at h
  unfold blinkCount
  rw [if_neg hblink]
  split
  case isTrue hlast => rw [hlast, Nat.mod_self]; rfl
  case isFalse hlast =>
    have hbound := x.blink.isLt
    rw [Nat.mod_eq_of_lt (by omega), BitVec.toNat_add, BitVec.toNat_ofNat]
    omega

/-- Without a blink period ON is 1 and BCNT 0 after every poll. -/
theorem indicatorStep_of_blink_zero {x : Indicator} (h : x.blink = 0#16) :
    (indicatorStep x).on = true ∧ (indicatorStep x).bcnt = 0#16 :=
  ⟨if_pos h, if_pos h⟩

end Sys2Proof.Machine
end

section
/-! Quantities that a run of polls counts: the debounce count of a switch (R234) and the blink count of an indicator
(R261). -/

namespace Sys2Proof.Machine

/-! ### The debounce count -/

/-- Switch i after j polls of a run at a level other than DEB, from CNT = 0 (R234). -/
def debouncing (i : Nat) (x : Switch) (raw : Bool) (j : Nat) (s : State) : Prop :=
  ∃ y, s.switches[i]? = some y ∧ y.dw = x.dw ∧
    (j < window x → y.deb = x.deb ∧ y.cnt.toNat = j) ∧ (j = window x → y.deb = raw ∧ y.cnt = 0#16)

theorem debouncing_start {s : State} {i : Nat} {x : Switch} (raw : Bool) (hx : s.switches[i]? = some x)
    (hcnt : x.cnt = 0#16) : debouncing i x raw 0 s :=
  ⟨x, hx, rfl, fun _ => ⟨rfl, congrArg BitVec.toNat hcnt⟩, fun h => absurd h (window_pos x).ne⟩

/-- One more differing poll counts, or is accepted if it is the last of the window. -/
theorem debouncing.poll {s : State} {i j : Nat} {x : Switch} {raw : Bool} {m : BitVec 32}
    (h : debouncing i x raw j s) (hraw : raw ≠ x.deb) (hj : j < window x) (hm : m.getLsbD i = raw) :
    debouncing i x raw (j + 1) (afterPoll m s) := by
  obtain ⟨y, hy, hydw, hbefore, -⟩ := h
  obtain ⟨hydeb, hycnt⟩ := hbefore hj
  obtain ⟨-, hdeb, hcnt, hdw, -, -⟩ := switchStep_debounced raw s.now y
  have hdiff : raw ≠ y.deb := by rwa [hydeb]
  have hacc : accepts raw y = true ↔ window x ≤ j + 1 := by
    rw [accepts_iff_window_le, hycnt, and_iff_right hdiff, window_congr hydw]
  refine ⟨_, switches_afterPoll m hy, ?_⟩
  rw [hm, hdeb, hcnt]
  refine ⟨hdw.trans hydw, fun hlt => ?_, fun heq => ?_⟩
  · rw [debounce_of_not_accepts hdiff (mt hacc.1 (Nat.not_le.2 hlt))]
    exact ⟨hydeb, by rw [toNat_countUp_of_lt (by rwa [hycnt, window_congr hydw]), hycnt]⟩
  · rw [debounce_of_accepts (hacc.2 (Nat.le_of_eq heq.symm))]
    exact ⟨rfl, rfl⟩

/-! ### The blink count -/

/-- An indicator after each poll of a run. -/
theorem pollStates_indicator {s : State} {i j : Nat} {x : Indicator} {ms : List (BitVec 32)} (hp : s.port = .cmd)
    (hx : s.indicators[i]? = some x) (hj : j < ms.length) :
    ∃ t, (pollStates ms s)[j]? = some t ∧ t.indicators[i]? = some (indicatorStep^[j + 1] x) :=
  pollStates_induction (P := fun j s => s.indicators[i]? = some (indicatorStep^[j] x)) hp hx
    (fun j _ _ h => by rw [Function.iterate_succ_apply']; exact indicators_afterPoll _ h) j hj

theorem blink_iterate (j : Nat) (x : Indicator) : (indicatorStep^[j] x).blink = x.blink := by
  induction j with
  | zero => rfl
  | succ j ih => rw [Function.iterate_succ_apply']; exact ih

/-- BCNT after j polls, from any BCNT below BLINK (R261). -/
theorem bcnt_iterate {x : Indicator} (h : x.bcnt.toNat < x.blink.toNat) (j : Nat) :
    (indicatorStep^[j] x).bcnt.toNat = (x.bcnt.toNat + j) % x.blink.toNat := by
  induction j with
  | zero => exact (Nat.mod_eq_of_lt h).symm
  | succ j ih =>
    have hlt : (indicatorStep^[j] x).bcnt.toNat < (indicatorStep^[j] x).blink.toNat := by
      rw [ih, blink_iterate]
      exact Nat.mod_lt _ (Nat.zero_lt_of_lt h)
    have hcount : (indicatorStep (indicatorStep^[j] x)).bcnt.toNat = _ := toNat_blinkCount hlt
    rw [Function.iterate_succ_apply', hcount, ih, blink_iterate, Nat.mod_add_mod, Nat.add_assoc]

end Sys2Proof.Machine
end

section
/-! The obligations of spec/42_control.md. -/

namespace Sys2Proof.Machine

/-- Settles O49: a poll is one next state, and the response is its mask of events. -/
theorem pollCompletes : Obligations.PollCompletes := by
  unfold Obligations.PollCompletes
  intro s m hp
  exact ⟨_, _, exec_ctlPoll m hp, rfl, fun i => getLsbD_eventMask (polled m s).switches⟩

/-- Settles O50: the debouncing by its three cases, then the table row by row. -/
theorem switchStepFollowsTheTransitionTable : Obligations.SwitchStepFollowsTheTransitionTable := by
  unfold Obligations.SwitchStepFollowsTheTransitionTable
  rintro raw now x y accepted el haccepted rfl rfl
  have hacc : accepted ↔ accepts raw x = true := haccepted.trans (accepts_iff raw x).symm
  have hpress (ha : accepted) (hraw : raw = true) : edgeOf raw x = .press := by
    rw [edgeOf_of_accepts (hacc.1 ha), hraw]; rfl
  have hrelease (ha : accepted) (hraw : raw = false) : edgeOf raw x = .release := by
    rw [edgeOf_of_accepts (hacc.1 ha), hraw]; rfl
  have hnone (ha : ¬accepted) : edgeOf raw x = .none := edgeOf_of_not_accepts (mt hacc.2 ha)
  obtain ⟨hlevel, hdeb, hcnt, hdw, hdcw, hht⟩ := switchStep_debounced raw now x
  refine ⟨⟨hlevel, hdw, hdcw, hht, switchStep_init raw now x⟩, fun ha => ?_, fun hraw => ?_, fun hraw ha => ?_,
    fun hst ha hr => switchStep_of_row (hpress ha hr) hst .firstPress,
    fun hst ha hr hel => switchStep_of_row (hpress ha hr) hst (.secondPress hel),
    fun hst ha hr hel => switchStep_of_row (hpress ha hr) hst (.latePress hel),
    fun hst ha hr hel => switchStep_of_row (hrelease ha hr) hst (.shortRelease hel),
    fun hst ha hr hel => switchStep_of_row (hrelease ha hr) hst (.longRelease hel),
    fun hst ha hr => switchStep_of_row (hrelease ha hr) rfl (.lastRelease hst),
    fun hst ha hel => switchStep_of_row (hnone ha) rfl (.hold hst hel),
    fun hst ha hel => switchStep_of_row (hnone ha) hst (.expire hel),
    fun hst ha => switchStep_of_row (hnone ha) rfl (.stay ?_)⟩
  · rw [hdeb, hcnt, debounce_of_accepts (hacc.1 ha)]
    exact ⟨rfl, rfl⟩
  · rw [hdeb, hcnt, debounce_of_eq_deb hraw]
    exact ⟨rfl, rfl⟩
  · rw [hdeb, hcnt, debounce_of_not_accepts hraw (mt hacc.2 ha)]
    exact ⟨rfl, toNat_countUp x.cnt⟩
  · rcases hst with hst | hst | ⟨hst, hel⟩ | ⟨hst | hst, hel⟩ <;> rw [hst]
    · exact id
    · exact id
    · exact Nat.not_le.2 hel
    · exact Nat.not_le.2 hel
    · exact Nat.not_le.2 hel

/-- Settles O52: the count rises to the window, where the change is accepted. -/
theorem debounceAcceptsAtTheWindow : Obligations.DebounceAcceptsAtTheWindow := by
  unfold Obligations.DebounceAcceptsAtTheWindow
  intro s i x raw ms hp hx hcnt hraw hlevels hlength j hj
  have hwindow : ms.length = window x := hlength
  obtain ⟨t, ht, y, hy, -, hbefore, hlast⟩ :=
    pollStates_induction hp (debouncing_start raw hx hcnt)
      (fun j hj _ h => h.poll hraw (hwindow ▸ hj) (hlevels _ (List.getElem_mem hj))) j hj
  rw [← hwindow] at hbefore hlast
  exact ⟨t, y, ht, hy, hbefore, hlast⟩

/-- Settles O53: the long press, whose only event is HELD. -/
theorem continuousPressEmitsOneHeld : Obligations.ContinuousPressEmitsOneHeld := by
  unfold Obligations.ContinuousPressEmitsOneHeld
  intro s i x press release hp hx hst hdeb hcnt hpress hrelease hlength
  obtain ⟨w, hw⟩ := Nat.exists_eq_add_one.2 (window_pos x)
  obtain ⟨h, hh⟩ := Nat.exists_eq_add_one.2 (Nat.lt_of_lt_of_le Nat.one_pos (Nat.le_max_right x.ht.toNat 1))
  obtain ⟨r, hr⟩ := Nat.exists_eq_add_of_le hlength
  have hn : press.length = w + 1 + h + 1 + r := by rw [hr, hh, ← hw]; rfl
  obtain ⟨Q, hrun⟩ := Leads.longPress hw hh (s.now - x.pressT).toNat r release.length
  have hcount {e : ClickEvent} (he : e ≠ .none) :=
    eventCounts_of_leads (ms := press ++ release) hp hx hst hdeb hcnt
      (by rw [List.map_append, map_getLsbD_eq_replicate hpress, map_getLsbD_eq_replicate hrelease, hn]) hrun he
  exact ⟨hcount nofun, hcount nofun, hcount nofun⟩

/-- Settles O54: the two presses, whose only event is DOUBLE_CLICK. -/
theorem twoShortPressesEmitOneDoubleClick : Obligations.TwoShortPressesEmitOneDoubleClick := by
  unfold Obligations.TwoShortPressesEmitOneDoubleClick
  intro s i x press1 gap press2 release hp hx hst hdeb hcnt hpressed hreleased hn1 hg hn2 hht1 hht2 hdcw
  obtain ⟨hpress1, hpress2⟩ := List.forall_mem_append.1 hpressed
  obtain ⟨hgap, hrelease⟩ := List.forall_mem_append.1 hreleased
  obtain ⟨w, hw⟩ := Nat.exists_eq_add_one.2 (window_pos x)
  obtain ⟨r₁, hr₁⟩ := Nat.exists_eq_add_of_le (hw ▸ hn1 : w + 1 ≤ press1.length)
  obtain ⟨r, hr⟩ := Nat.exists_eq_add_of_le (hw ▸ hg : w + 1 ≤ gap.length)
  obtain ⟨r₂, hr₂⟩ := Nat.exists_eq_add_of_le (hw ▸ hn2 : w + 1 ≤ press2.length)
  rw [hr₁] at hht1 hdcw
  rw [hr₂] at hht2
  rw [hr] at hdcw
  obtain ⟨Q, hrun⟩ := Leads.doubleClick hw (s.now - x.pressT).toNat release.length hht1 hht2 hdcw
  have hcount {e : ClickEvent} (he : e ≠ .none) :=
    eventCounts_of_leads (ms := press1 ++ gap ++ press2 ++ release) hp hx hst hdeb hcnt
      (by simp only [List.map_append, map_getLsbD_eq_replicate hpress1, map_getLsbD_eq_replicate hgap,
        map_getLsbD_eq_replicate hpress2, map_getLsbD_eq_replicate hrelease, hr₁, hr, hr₂]) hrun he
  exact ⟨hcount nofun, hcount nofun, hcount nofun⟩

/-- Settles O57: the three cases of clamp01, and its range. -/
theorem clampLandsInTheUnitInterval : Obligations.ClampLandsInTheUnitInterval := by
  unfold Obligations.ClampLandsInTheUnitInterval
  intro x
  have hunit := clamp01_inUnit x
  exact ⟨fun h => clamp01_of_not_gt_zero (gt32_zeroF_eq_false h), clamp01_of_gt_one, clamp01_of_between, hunit,
    ((inUnit_iff _).1 hunit).1, clamp01_ne_negZero x⟩

/-- Settles O59: the ramp on both sides of TARGET, and at it. -/
theorem brightnessNeverOvershoots : Obligations.BrightnessNeverOvershoots := by
  unfold Obligations.BrightnessNeverOvershoots
  intro s m i x hp hx hok
  exact ⟨_, indicatorStep x, exec_ctlPoll m hp, indicators_afterPoll m hx,
    fun h => ⟨rampCur_of_lt h, rampCur_rises hok h⟩, fun h => ⟨rampCur_of_gt h, rampCur_falls hok h⟩,
    rampCur_of_reached, rfl, rfl, rfl⟩

/-- Settles O60: the schedule of the iterates of the poll step. -/
theorem blinkFollowsItsSchedule : Obligations.BlinkFollowsItsSchedule := by
  unfold Obligations.BlinkFollowsItsSchedule
  intro s i x ms hp hx j hj
  obtain ⟨t, ht, hy⟩ := pollStates_indicator hp hx hj
  refine ⟨t, _, ht, hy, rfl, fun hblink => ?_, fun hlt => ?_⟩
  · rw [Function.iterate_succ_apply']
    exact indicatorStep_of_blink_zero ((blink_iterate j x).trans hblink)
  · refine ⟨?_, bcnt_iterate hlt (j + 1)⟩
    rw [Function.iterate_succ_apply', ← bcnt_iterate hlt j, ← blink_iterate j x]
    refine blinkOn_iff fun h0 => ?_
    simp [(blink_iterate j x).symm.trans h0] at hlt

/-- Settles O55: each write finds its switch and replaces the threshold. -/
theorem thresholdWritesComplete : Obligations.ThresholdWritesComplete := by
  unfold Obligations.ThresholdWritesComplete
  exact fun s i x n hp hx => ⟨exec_swSetDw n hp hx, exec_swSetDcw n hp hx, exec_swSetHt n hp hx⟩

/-- Settles O56: each write finds its indicator and replaces what it sets. -/
theorem indicatorWritesComplete : Obligations.IndicatorWritesComplete := by
  unfold Obligations.IndicatorWritesComplete
  exact fun s i x v p hp hx => ⟨exec_indSetTarget v hp hx, exec_indSetStep v hp hx, exec_indSetBlink p hp hx⟩

end Sys2Proof.Machine
end

section
/-! What the system commands and the reads answer (R280, R281, R284 to R288). -/

namespace Sys2Proof.Machine

/-! ### The commands without operands -/

/-- NOP completes on either port. -/
theorem exec_nop (s : State) : exec .nop s = .next (answered 0#32 s) := rfl

theorem exec_sysClrErr {s : State} (hp : s.port = .cmd) :
    exec .sysClrErr s = .next (answered 0#32 (clearIllegal s)) :=
  onPort_of_eq _ hp

/-! ### Reads of a register that there is -/

theorem replyRegister_of_some {r : Option Word} {w : Word} {s : State} (h : r = some w) :
    replyRegister r s = .next (answered w s) := by
  rw [h, replyRegister_eq_elim, Option.elim_some]; rfl

theorem exec_rdSys {s : State} {r : BitVec 16} {w : Word} (hp : s.port = .cmd) (hr : sysRegister s r = some w) :
    exec (.rdSys r) s = .next (answered w s) :=
  (onPort_of_eq _ hp).trans (replyRegister_of_some hr)

theorem exec_rdOsc {s : State} {v : BitVec 8} {x : Voice} {r : BitVec 16} {w : Word} (hp : s.port = .cmd)
    (hx : s.voices[v.toNat]? = some x) (hr : voiceRegister x r = some w) :
    exec (.rdOsc v r) s = .next (answered w s) :=
  (onPort_of_eq _ hp).trans ((withVoice_some _ hx).trans (replyRegister_of_some hr))

theorem exec_rdSw {s : State} {i : BitVec 8} {x : Switch} {r : BitVec 16} {w : Word} (hp : s.port = .cmd)
    (hx : s.switches[i.toNat]? = some x) (hr : switchRegister x r = some w) :
    exec (.rdSw i r) s = .next (answered w s) :=
  (onPort_of_eq _ hp).trans ((withSwitch_some _ hx).trans (replyRegister_of_some hr))

theorem exec_rdInd {s : State} {i : BitVec 8} {x : Indicator} {r : BitVec 16} {w : Word} (hp : s.port = .cmd)
    (hx : s.indicators[i.toNat]? = some x) (hr : indicatorRegister x r = some w) :
    exec (.rdInd i r) s = .next (answered w s) :=
  (onPort_of_eq _ hp).trans ((withIndicator_some _ hx).trans (replyRegister_of_some hr))

theorem exec_rdBuf {s : State} {k : BitVec 16} (b ch : BitVec 1) (hp : s.port = .cmd) (hk : k.toNat < s.capacity) :
    exec (.rdBuf b ch k) s = .next (answered (bufWord s b k.toNat ch) s) :=
  (onPort_of_eq _ hp).trans (replyRegister_of_some (if_pos hk))

/-! ### One-bit registers -/

/-- A one-bit register reads as 0 or 1 (R70). -/
theorem setWidth_ofBool (b : Bool) : (BitVec.ofBool b).setWidth 32 = if b then 1#32 else 0#32 := by
  cases b <;> rfl

theorem voiceRegister_en (x : Voice) : voiceRegister x 6#16 = some (if x.en then 1#32 else 0#32) :=
  congrArg some (setWidth_ofBool x.en)

theorem switchRegister_level (x : Switch) : switchRegister x 0#16 = some (if x.level then 1#32 else 0#32) :=
  congrArg some (setWidth_ofBool x.level)

theorem switchRegister_deb (x : Switch) : switchRegister x 1#16 = some (if x.deb then 1#32 else 0#32) :=
  congrArg some (setWidth_ofBool x.deb)

theorem indicatorRegister_on (x : Indicator) : indicatorRegister x 5#16 = some (if x.on then 1#32 else 0#32) :=
  congrArg some (setWidth_ofBool x.on)

end Sys2Proof.Machine
end

section
/-! The obligations of spec/43_system.md. -/

namespace Sys2Proof.Machine

/-- Settles O17: the next states of the two commands without operands. -/
theorem nopAndClearErrorComplete : Obligations.NopAndClearErrorComplete := by
  unfold Obligations.NopAndClearErrorComplete
  exact ⟨exec_nop, fun _ hp => exec_sysClrErr hp⟩

/-- Settles O18: the row of the SYS table for each number, and the buffer word at its address of R91. -/
theorem systemAndBufferReadsAnswer : Obligations.SystemAndBufferReadsAnswer := by
  unfold Obligations.SystemAndBufferReadsAnswer
  intro s hp
  exact ⟨exec_rdSys hp rfl, exec_rdSys hp rfl, exec_rdSys hp rfl, exec_rdSys hp rfl, exec_rdSys hp rfl,
    exec_rdSys hp rfl, exec_rdSys hp rfl, fun b ch _ hk => exec_rdBuf b ch hp hk⟩

/-- Settles O19: each read finds its bank, and the row of the unit's table gives the register. -/
theorem unitReadsAnswer : Obligations.UnitReadsAnswer := by
  unfold Obligations.UnitReadsAnswer
  refine ⟨fun s v x hp hx => ?osc, fun s i x hp hx => ?sw, fun s i x hp hx => ?ind,
    ⟨rfl, rfl, rfl, rfl⟩, ⟨rfl, rfl, rfl, rfl, rfl⟩, rfl, rfl, rfl, rfl⟩
  case osc =>
    have read {r w} (hr : voiceRegister x r = some w) := exec_rdOsc hp hx hr
    exact ⟨read rfl, read rfl, read rfl, read rfl, read rfl, read rfl, read (voiceRegister_en x)⟩
  case sw =>
    have read {r w} (hr : switchRegister x r = some w) := exec_rdSw hp hx hr
    exact ⟨read (switchRegister_level x), read (switchRegister_deb x), read rfl, read rfl, read rfl, read rfl,
      read rfl, read rfl, read rfl⟩
  case ind =>
    have read {r w} (hr : indicatorRegister x r = some w) := exec_rdInd hp hx hr
    exact ⟨read rfl, read rfl, read rfl, read rfl, read rfl, read (indicatorRegister_on x)⟩

end Sys2Proof.Machine
end

section
/-! The frames of a period (R205 to R208): the tick of a voice in domain leaves it in domain, so every frame is the mix
of the voices' next samples, and the loop ends only with its last frame or at the capacity. -/

namespace Sys2Proof.Machine

/-! ### Ticks of a voice in domain -/

/-- From a zero phase of either sign the advance comes to the increment or to a zero (R153). -/
theorem inCycle_nextPhase_of_zero {phase pinc : F32} (hz : magOf phase = 0) (hi : inCycle pinc = true) :
    inCycle (nextPhase phase pinc) = true := by
  have hlt := ((inCycle_iff pinc).1 hi).1
  have hnan : isNaN pinc = false :=
    (isNaN_eq_false_iff pinc).2 (Nat.le_of_lt (Nat.lt_trans hlt twoPiF_finite))
  have hsum : inCycle (add32 phase pinc) = true := by
    rw [add32_zero_left hz hnan]
    split
    case isTrue =>
      rw [inCycle_iff, magOf_packF _ (by decide)]
      exact ⟨by decide, .inr rfl⟩
    case isFalse => exact hi
  have hbelow : lt32 (add32 phase pinc) twoPiF = true := (Bool.and_eq_true_iff.1 hsum).2
  rwa [nextPhase, wrapPhase_of_not_ge (ge32_eq_false_of_lt32 hbelow)]

/-- A voice in domain is in domain after the phase advance, from −0.0 as well (R150, R154). -/
theorem inOperatingDomain_advance {x : Voice} (h : inOperatingDomain x) : inOperatingDomain (advance x) := by
  obtain ⟨hpinc, hphase⟩ := h
  have hdomain : inDomain x = true := (inOperatingDomain_iff x).1 ⟨hpinc, hphase⟩
  refine ⟨hpinc, ?_⟩
  by_cases hneg : x.phase = 0x80000000#32
  · have hcycle : inCycle x.pinc = true := by rw [inCycle, hpinc.1, hpinc.2]; rfl
    exact Bool.and_eq_true_iff.1 (inCycle_nextPhase_of_zero (by rw [hneg]; decide) hcycle)
  · obtain ⟨hlo, hup, -⟩ := phaseOk_advance (phaseOk_of_inOperatingDomain ⟨hpinc, hphase⟩ hneg) hdomain
    exact ⟨hlo, hup⟩

/-- A voice in domain stays in domain over any number of ticks (R150). -/
theorem inOperatingDomain_afterTicks (k : Nat) {x : Voice} (h : inOperatingDomain x) :
    inOperatingDomain (afterTicks k x) := by
  refine afterTicks_keeps (fun y t ht hy => ?_) k h
  rw [tickBlep_voice ht]
  exact inOperatingDomain_advance (x := { y with last := lastAfterBlep y }) hy

/-- Tick k of a voice in domain answers its k-th sample and leaves the voice ticked once more (R211). -/
theorem tickBlep_afterTicks (k : Nat) {x : Voice} (h : inOperatingDomain x) :
    tickBlep (afterTicks k x) = some { sample := sampleAt k x, voice := afterTicks (k + 1) x } := by
  have ht := tickBlep_of_inOperatingDomain (inOperatingDomain_afterTicks k h)
  rw [afterTicks, blepTicked_of_tickBlep ht, sampleAt, ht]

theorem voicesAfter_cons (k : Nat) (x : Voice) (xs : List Voice) :
    voicesAfter k (x :: xs) = (if x.en then afterTicks k x else x) :: voicesAfter k xs := rfl

/-- Frame k adds the k-th samples of the enabled voices in increasing order, and ticks those voices (R206). -/
theorem synthFrame_voicesAfter (k : Nat) {xs : List Voice} (h : ∀ x ∈ xs, x.en = true → inOperatingDomain x)
    (acc : F32) :
    synthFrame (voicesAfter k xs) acc =
      some ((xs.filter fun x => x.en).foldl (fun acc x => add32 acc (sampleAt k x)) acc, voicesAfter (k + 1) xs) := by
  induction xs generalizing acc with
  | nil => rfl
  | cons x rest ih =>
    obtain ⟨hx, hrest⟩ := List.forall_mem_cons.1 h
    rw [voicesAfter_cons, voicesAfter_cons, synthFrame]
    cases he : x.en with
    | false => simp [he, ih hrest]
    | true => simp [he, tickBlep_afterTicks k (hx he), ih hrest]

/-! ### The frame loop with every enabled voice in domain -/

/-- OUT_BUF after k frames: the mix of each frame below C on both channels (R207), nothing from frame C on (R208). -/
def mixedMem (s : State) : Nat → List Host.Cell
  | 0 => s.mem
  | k + 1 =>
    if k < s.capacity then
      (writeFrame s.wbank k (mixAt k s.voices) (mixAt k s.voices) { s with mem := mixedMem s k }).mem
    else mixedMem s k

/-- The block after k frames of its period. -/
def afterFrames (s : State) (k : Nat) : State := duringPeriod s k (mixedMem s k)

@[simp] theorem afterFrames_zero (s : State) : afterFrames s 0 = s := by
  rw [afterFrames, duringPeriod, voicesAfter_zero, mixedMem]

/-- A frame below C is ticked and pushed (R207). -/
theorem afterFrames_succ_of_room {s : State} {k : Nat} (hk : k < s.capacity) :
    afterFrames s (k + 1) =
      writeFrame s.wbank k (mixAt k s.voices) (mixAt k s.voices) (duringPeriod s (k + 1) (mixedMem s k)) := by
  rw [afterFrames, mixedMem, if_pos hk]; rfl

/-- A frame from C on is ticked only (R208). -/
theorem afterFrames_succ_of_full {s : State} {k : Nat} (hk : ¬k < s.capacity) :
    afterFrames s (k + 1) = duringPeriod s (k + 1) (mixedMem s k) := by
  rw [afterFrames, mixedMem, if_neg hk]

/-- The next frame of the loop, by its outcome. -/
theorem renderFrames_afterFrames_succ {s : State} (h : enabledInDomain s) (todo k : Nat) :
    renderFrames s.wbank (todo + 1) k (afterFrames s k) =
      if k < s.capacity ∨ s.build = .release then renderFrames s.wbank todo (k + 1) (afterFrames s (k + 1))
      else .halted (reply 3#32 (enterHalt (afterFrames s (k + 1)))) := by
  have hframe : synthFrame (afterFrames s k).voices zeroF = some (mixAt k s.voices, voicesAfter (k + 1) s.voices) :=
    synthFrame_voicesAfter k h zeroF
  have hticked : { afterFrames s k with voices := voicesAfter (k + 1) s.voices } =
      duringPeriod s (k + 1) (mixedMem s k) := rfl
  have hcapacity : (afterFrames s k).capacity = s.capacity := rfl
  rw [renderFrames_succ hframe, hticked, hcapacity]
  by_cases hk : k < s.capacity
  · rw [if_pos hk, if_pos (.inl hk), afterFrames_succ_of_room hk]
  · rw [if_neg hk, afterFrames_succ_of_full hk]
    have hbuild : (afterFrames s k).build = s.build := rfl
    rw [hbuild]
    cases hb : s.build with
    | debug =>
      rw [if_neg (by simp [hk])]
      exact congrArg _ (raiseCondition_capacity_debug (s := duringPeriod s (k + 1) (mixedMem s k)) hb)
    | release => rw [if_pos (.inr rfl)]

/-- Without a violation the loop completes (R205, R208). -/
theorem renderFrames_completes {s : State} (h : enabledInDomain s) (todo k : Nat)
    (hn : k + todo ≤ s.capacity ∨ s.build = .release) :
    renderFrames s.wbank todo k (afterFrames s k) = .complete (afterFrames s (k + todo)) := by
  induction todo generalizing k with
  | zero => rfl
  | succ todo ih =>
    rw [renderFrames_afterFrames_succ h, if_pos (hn.imp_left fun _ => by omega),
      ih (k + 1) (hn.imp_left fun _ => by omega), Nat.succ_add_eq_add_succ]

/-- In DEBUG the loop ends after the ticks of frame C (R208). -/
theorem renderFrames_halts {s : State} (h : enabledInDomain s) (hb : s.build = .debug) (todo k : Nat)
    (hk : k ≤ s.capacity) (hn : s.capacity < k + todo) :
    renderFrames s.wbank todo k (afterFrames s k) =
      .halted (reply 3#32 (enterHalt (afterFrames s (s.capacity + 1)))) := by
  induction todo generalizing k with
  | zero => omega
  | succ todo ih =>
    rw [renderFrames_afterFrames_succ h]
    by_cases hroom : k < s.capacity
    · rw [if_pos (.inl hroom), ih (k + 1) hroom (by omega)]
    · rw [if_neg (by simp [hroom, hb]), Nat.le_antisymm hk (Nat.le_of_not_lt hroom)]

/-- The loop faults exactly where it has a frame to make with an enabled voice out of domain (R177, U2). -/
theorem renderFrames_eq_outOfDomain_iff (s : State) (n : Nat) :
    renderFrames s.wbank n 0 s = .outOfDomain ↔ 0 < n ∧ ¬enabledInDomain s := by
  by_cases h : enabledInDomain s
  · have hne : renderFrames s.wbank n 0 (afterFrames s 0) ≠ .outOfDomain := by
      cases hb : s.build with
      | release => rw [renderFrames_completes h n 0 (.inr hb)]; exact nofun
      | debug =>
        by_cases hn : 0 + n ≤ s.capacity
        · rw [renderFrames_completes h n 0 (.inl hn)]; exact nofun
        · rw [renderFrames_halts h hb n 0 (Nat.zero_le _) (Nat.lt_of_not_le hn)]; exact nofun
    rw [afterFrames_zero] at hne
    exact iff_of_false hne fun hfault => hfault.2 h
  · cases n with
    | zero => exact iff_of_false nofun fun hfault => Nat.lt_irrefl 0 hfault.1
    | succ n =>
      have hnone : synthFrame s.voices zeroF = none := by
        rw [← Option.not_isSome_iff_eq_none, synthFrame_isSome_iff]
        simpa only [enabledInDomain, inOperatingDomain_iff] using h
      exact iff_of_true (renderFrames_succ_none hnone) ⟨Nat.succ_pos n, h⟩

/-! ### The frames written -/

theorem mixedMem_wf {s : State} (h : Memory.wf s.mem) (k : Nat) : Memory.wf (mixedMem s k) := by
  induction k with
  | zero => exact h
  | succ k ih =>
    rw [mixedMem]
    split
    · exact writeFrame_wf (s := { s with mem := mixedMem s k }) ih ..
    · exact ih

/-- Each frame pushed holds its mix on both channels, and no later push touches it (R207). -/
theorem bufWord_afterFrames {s : State} (h : Memory.wf s.mem) {j k : Nat} (hj : j < min k s.capacity) (ch : BitVec 1) :
    bufWord (afterFrames s k) s.wbank j ch = mixAt j s.voices := by
  induction k with
  | zero => omega
  | succ k ih =>
    by_cases hk : k < s.capacity
    · rw [afterFrames_succ_of_room hk]
      by_cases hlast : j = k
      · subst hlast
        obtain ⟨hleft, hright⟩ := bufWord_writeFrame_eq (s := duringPeriod s (j + 1) (mixedMem s j)) (mixedMem_wf h j)
          s.wbank j (mixAt j s.voices) (mixAt j s.voices)
        rcases BitVec.eq_zero_or_eq_one ch with rfl | rfl
        · exact hleft
        · exact hright
      · have hother := bufWord_writeFrame_ne (s := duringPeriod s (k + 1) (mixedMem s k)) (b := s.wbank) (b' := s.wbank)
          hk (Nat.lt_of_lt_of_le hj (Nat.min_le_right ..)) (.inr hlast) ch (mixAt k s.voices) (mixAt k s.voices)
        exact hother.trans (ih (by omega))
    · rw [afterFrames_succ_of_full hk]
      exact ih (by omega)

end Sys2Proof.Machine
end

section
/-! What AUD_PERIOD answers on its port, by the cases of R200. -/

namespace Sys2Proof.Machine

/-- While halted a period does nothing (R202). -/
theorem exec_audPeriod_of_halted {s : State} (r : Bool) (n : BitVec 16) (hp : s.port = .aud) (hh : s.halted = true) :
    exec (.audPeriod r n) s = .next (reply 2#32 s) :=
  (onPort_of_eq _ hp).trans (if_pos hh)

/-- A period with READY = 0 is an underrun (R203). -/
theorem exec_audPeriod_of_not_ready {s : State} (n : BitVec 16) (hp : s.port = .aud) (hh : s.halted = false) :
    exec (.audPeriod false n) s = .next (reply 1#32 { s with underrunCnt := s.underrunCnt + 1#32 }) :=
  (onPort_of_eq _ hp).trans ((if_neg (by simp [hh])).trans (if_pos rfl))

/-- What a period of n frames answers, by the end of its frame loop (R208, R210, R177). -/
def periodAnswer (s : State) (n : Nat) : Rendered → Answer
  | .complete u => .next (submitBlock s.wbank (min n s.capacity) u)
  | .halted u => .next u
  | .outOfDomain => .fault .outOfDomain

/-- A period with READY = 1 runs its frame loop (R205). -/
theorem exec_audPeriod_of_ready {s : State} (n : BitVec 16) (hp : s.port = .aud) (hh : s.halted = false) :
    exec (.audPeriod true n) s = periodAnswer s n.toNat (renderFrames s.wbank n.toNat 0 s) := by
  refine (onPort_of_eq _ hp).trans ((if_neg (by simp [hh])).trans ((if_neg (by simp)).trans ?_))
  cases renderFrames s.wbank n.toNat 0 s <;> rfl

theorem periodAnswer_eq_fault_iff (s : State) (n : Nat) (x : Rendered) :
    periodAnswer s n x = .fault .outOfDomain ↔ x = .outOfDomain := by
  cases x <;> simp [periodAnswer]

end Sys2Proof.Machine
end

section
/-! The obligations of spec/41_pipeline.md. -/

namespace Sys2Proof.Machine

/-- Settles O35: the check of HALTED comes before READY and n. -/
theorem haltedPeriodDoesNothing : Obligations.HaltedPeriodDoesNothing := by
  unfold Obligations.HaltedPeriodDoesNothing
  exact fun s r n hp hh => exec_audPeriod_of_halted r n hp hh

/-- Settles O36: the check of READY comes before the frame loop. -/
theorem underrunOnlyCounts : Obligations.UnderrunOnlyCounts := by
  unfold Obligations.UnderrunOnlyCounts
  exact fun s n hp hh => exec_audPeriod_of_not_ready n hp hh

/-- Settles O37: with no frame to make the loop ends at once, in the state that it started from. -/
theorem emptyPeriodSubmitsAnEmptyBlock : Obligations.EmptyPeriodSubmitsAnEmptyBlock := by
  unfold Obligations.EmptyPeriodSubmitsAnEmptyBlock
  intro s hp hh
  have hloop : renderFrames s.wbank (0#16).toNat 0 s = .complete s := rfl
  rw [exec_audPeriod_of_ready _ hp hh, hloop]
  simp [periodAnswer, submitBlock, hp]

/-- Settles O38: the loop makes every frame, each with the mix of the voices' next samples. -/
theorem readyPeriodSubmitsTheMixedBlock : Obligations.ReadyPeriodSubmitsTheMixedBlock := by
  unfold Obligations.ReadyPeriodSubmitsTheMixedBlock
  intro s n hp hh hwf hdomain hn
  have hloop := renderFrames_completes hdomain n.toNat 0 (by rwa [Nat.zero_add])
  rw [afterFrames_zero, Nat.zero_add] at hloop
  have hexec := exec_audPeriod_of_ready n hp hh
  rw [hloop, periodAnswer] at hexec
  refine ⟨_, hexec, fun k ch hk => bufWord_afterFrames hwf hk ch, periodsWriteOnlyTheirOwnFrames.1 s _ true n hexec, ?_⟩
  rw [← hp]; rfl

/-- Settles O39: the loop makes C frames, and the push of the next one halts the block. -/
theorem capacityViolationHaltsADebugBlock : Obligations.CapacityViolationHaltsADebugBlock := by
  unfold Obligations.CapacityViolationHaltsADebugBlock
  intro s n hp hh hwf hdomain hb hn
  have hloop := renderFrames_halts hdomain hb n.toNat 0 (Nat.zero_le _) (by rwa [Nat.zero_add])
  rw [afterFrames_zero] at hloop
  have hexec := exec_audPeriod_of_ready n hp hh
  rw [hloop, periodAnswer] at hexec
  have hframes := periodsWriteOnlyTheirOwnFrames.1 s _ true n hexec
  rw [Nat.min_eq_right (Nat.le_of_lt hn)] at hframes
  refine ⟨_, hexec, fun k ch hk => ?_, hframes, ?_⟩
  · exact bufWord_afterFrames (k := s.capacity + 1) hwf (by omega) ch
  · rw [← hp]; rfl

/-- Settles O40: the frame loop is the one part of the command that can fault. -/
theorem periodFaultsExactlyOutOfDomain : Obligations.PeriodFaultsExactlyOutOfDomain := by
  unfold Obligations.PeriodFaultsExactlyOutOfDomain
  intro s r n
  refine ⟨fun h => ?_, ?_⟩
  · have hp : s.port = .aud := (onPort_fault_iff.1 h).1
    cases hh : s.halted with
    | true => rw [exec_audPeriod_of_halted r n hp hh] at h; cases h
    | false =>
      cases r with
      | false => rw [exec_audPeriod_of_not_ready n hp hh] at h; cases h
      | true =>
        rw [exec_audPeriod_of_ready n hp hh, periodAnswer_eq_fault_iff, renderFrames_eq_outOfDomain_iff] at h
        exact ⟨hp, rfl, rfl, h⟩
  · rintro ⟨hp, hh, rfl, hfault⟩
    rwa [exec_audPeriod_of_ready n hp hh, periodAnswer_eq_fault_iff, renderFrames_eq_outOfDomain_iff]

/-- Settles O41: of the effects on voices a period has frames only, which pass a disabled voice by. -/
theorem disabledVoicesKeepTheirPhase : Obligations.DisabledVoicesKeepTheirPhase := by
  unfold Obligations.DisabledVoicesKeepTheirPhase
  intro s t r n v x h hx hen
  rcases (exec_effect h).voices with ht | ⟨_, _, _, -, hwrite, -⟩ | ⟨-, _, _, _, -, htick, -⟩ | ⟨-, _, j, -, ht⟩
  · rwa [ht]
  · cases hwrite
  · cases htick
  · rw [ht, voicesAfter, List.getElem?_map, hx]
    simp [hen]

end Sys2Proof.Machine
end

section
/-! What reset establishes (R340): every invariant, and the words that it clears. -/

namespace Sys2Proof.Machine

/-- A block that was just reset is the same after another reset. -/
theorem resetBlock_ofStartUp (c : StartUp) : resetBlock (State.ofStartUp c) = State.ofStartUp c := by
  rw [resetBlock, startUpOf_ofStartUp]

/-- The reset of every start-up configuration has every invariant (R340). -/
theorem blockOk_ofStartUp (c : StartUp) : blockOk (State.ofStartUp c) := by
  have hreset := resetBlock_ofStartUp c
  exact ⟨hreset ▸ memoryOk_resetBlock _, hreset ▸ recordOk_resetBlock _, hreset ▸ handoffOk_resetBlock _,
    List.forall_mem_map.2 fun i _ => voiceOk_voiceAtReset i,
    List.forall_mem_map.2 fun i _ => switchOk_switchAtReset i,
    List.forall_mem_map.2 fun i _ => ⟨indicatorOk_indicatorAtReset i, blinkOk_indicatorAtReset i⟩⟩

/-- Reset leaves +0.0 in every word of the buffer (R340, R41). -/
theorem bufWord_resetBlock (s : State) (b : BitVec 1) (k : Nat) (ch : BitVec 1) :
    bufWord (resetBlock s) b k ch = 0#32 := by
  show unlistedByte ++ unlistedByte ++ unlistedByte ++ unlistedByte = 0#32
  decide

/-- Reset leaves no bit of STATUS set (R340, R47). -/
theorem statusWord_resetBlock (s : State) : statusWord (resetBlock s) = 0#32 := by
  show 0#19 ++ 0#1 ++ 0#4 ++ 0#4 ++ 0#2 ++ BitVec.ofBool false ++ BitVec.ofBool false = 0#32
  decide

/-- Reset leaves no bit of OUTINFO set (R340, R43). -/
theorem outinfoWord_resetBlock (s : State) : outinfoWord (resetBlock s) = 0#32 := by
  show BitVec.ofBool false ++ 0#14 ++ 0#1 ++ 0#16 = 0#32
  decide

end Sys2Proof.Machine
end

section
/-! The obligations of spec/70_reset_and_hazards.md. -/

namespace Sys2Proof.Machine

/-- Settles O16: `State.reset` is the reset of one start-up configuration. -/
theorem resetMeetsTheInvariants : Obligations.ResetMeetsTheInvariants := by
  unfold Obligations.ResetMeetsTheInvariants
  exact ⟨blockOk_ofStartUp, blockOk_ofStartUp standardStartUp⟩

/-- Settles O15: each bank is built from its own start-up configuration, and the parameters are given back. -/
theorem resetSetsEveryRegister : Obligations.ResetSetsEveryRegister := by
  unfold Obligations.ResetSetsEveryRegister
  intro s rest hp hs
  have hparam : startUpOf (resetBlock { s with inputs := rest }) = startUpOf s := startUpOf_ofStartUp (startUpOf s)
  refine ⟨_, step_of_input hp hs, List.map_map, List.map_map, List.map_map, ?_, bufWord_resetBlock _,
    statusWord_resetBlock _, outinfoWord_resetBlock _, rfl, rfl, rfl, capsWord_congr hparam, blkcapWord_congr hparam⟩
  exact List.forall_mem_map.2 fun i _ => ⟨rfl, rfl⟩

end Sys2Proof.Machine
end
